-- ==== Sys2Proof/Word.lean ====
section
/-! DEFINITION. The value types of 00_scope.md R12: `u8`, `u32` and `u64`. `BitVec` addition and subtraction are
the modulo-2^n arithmetic R12 asks for; a comparison the spec marks "(mathematical)" is made on `toNat`. -/

namespace Sys2Proof

/-- A byte, `u8` (R12). -/
abbrev Byte := BitVec 8

/-- A 32-bit word, `u32`: addresses (`Addr`), PTEs and the command-interface registers (R8, R12, R53 to R57). -/
abbrev Word := BitVec 32

/-- A 64-bit counter, `u64`: BYTE_COUNT, TLB.seq and the TLB statistics (R10). -/
abbrev Count := BitVec 64

end Sys2Proof
end

