-- ==== Sys2Proof/Config.lean ====
section
/-! DEFINITION. The configuration of the block (00_scope.md R8, R9; 10_state.md R33): chosen when the block is built,
never changed afterwards. The model carries it as a field of `State` that no step writes (log 1), so that a statement
about every state is a statement about every configuration. The block has no value left free by the spec, so there is
no opaque constant here. -/

namespace Sys2Proof

/-- Bytes in a page and in a frame, PAGE_SIZE (R8). -/
def pageSize : Nat := 4096

/-- The configuration parameters of R9. -/
structure Config where
  /-- FRAME_COUNT: the number of 4096-byte frames of PhysicalMemory. -/
  frameCount : Nat
  /-- TLB_PRESENT. -/
  tlbPresent : Bool
  /-- TLB_CAPACITY, meaningful only when TLB_PRESENT. -/
  tlbCapacity : Nat
  /-- HOST_MEM_SIZE: bytes of host buffer memory. -/
  hostMemSize : Nat
  /-- NONE_PENDING_IS_ERROR: whether Execute on state None with bytes remaining is InvalidOperation (D16). -/
  nonePendingIsError : Bool := true
deriving DecidableEq, Repr

/-- SIZE = FRAME_COUNT * 4096 bytes (R9, R46). -/
def Config.size (c : Config) : Nat := c.frameCount * pageSize

/-- FRAME_COUNT is in the range R9 gives: 1 to 2^20 - 1. -/
def Config.frameCountLegal (c : Config) : Bool := decide (1 ≤ c.frameCount) && decide (c.frameCount ≤ 2 ^ 20 - 1)

/-- TLB_CAPACITY is at least 1 when there is a TLB (R9, R371). -/
def Config.capacityLegal (c : Config) : Bool := !c.tlbPresent || decide (1 ≤ c.tlbCapacity)

/-- The configurations a block can be built with. -/
def Config.legal (c : Config) : Bool := c.frameCountLegal && c.capacityLegal

/-- The configuration of `State.reset`: DESIGN CHOICE (log 2). 32 frames and a TLB of capacity 4 as in the spec's setup S1,
16384 host bytes (its scenario W2 needs 8200, log 14), and the spec's default for NONE_PENDING_IS_ERROR. -/
def Config.default : Config where
  frameCount := 32
  tlbPresent := true
  tlbCapacity := 4
  hostMemSize := 16384
  nonePendingIsError := true

end Sys2Proof
end

