-- ==== Sys2Proof/Syntax.lean ====
section
/-! DEFINITION. The commands: one constructor for each row of the opcode map (30_encoding.md R126). Operands are not part
of a command: they sit in ARG0 to ARG4 (R123, R129). The one field of the command word that a command reads is WR, which
only TO_PHYSICAL has (R121, R122). -/

namespace Sys2Proof

/-- The sixteen commands of R126. -/
inductive Instr where
  /-- Read one byte at ARG0 into HostMem[ARG2]. -/
  | getByte
  /-- Read ARG1 bytes at ARG0 into HostMem from ARG2. -/
  | getBytes
  /-- Write HostMem[ARG2] as one byte at ARG0. -/
  | putByte
  /-- Write ARG1 bytes of HostMem from ARG2 at ARG0. -/
  | putBytes
  /-- Copy the active PMCB to RES0..RES4. -/
  | getPmcb
  /-- Replace the active PMCB by ARG0..ARG4 and resume a transfer it holds. -/
  | setPmcb
  /-- Translate ARG0, for a write when `wr` (CMD[8]). -/
  | toPhysical (wr : Bool)
  /-- Remove every TLB entry. -/
  | flushTlb
  /-- Read the six TLB statistics. -/
  | getTlbStats
  /-- Read FRAME_COUNT. -/
  | getFrameCount
  /-- Read BYTE_COUNT. -/
  | getByteCount
  /-- Test port: read physical bytes into HostMem. -/
  | pmGetBytes
  /-- Test port: write HostMem bytes to physical memory. -/
  | pmPutBytes
  /-- Test port: read a 32-bit word of physical memory. -/
  | pmGet32
  /-- Test port: look ARG0 up in the TLB. -/
  | tlbLookup
  /-- Test port: insert or refresh the TLB entry of ARG0 with the PTE ARG1. -/
  | tlbCache
deriving DecidableEq, Repr

/-- The three fields of a command word (R121). -/
structure CommandFields where
  /-- OPC, bits [7:0]. -/
  opc : BitVec 8
  /-- WR, bit [8]. -/
  wr : Bool
  /-- RSV, bits [31:9]. -/
  rsv : BitVec 23
deriving DecidableEq, Repr

/-- The OPC value of each command (R126). -/
def Instr.opcode : Instr → BitVec 8
  | .getByte => 0x01#8
  | .getBytes => 0x02#8
  | .putByte => 0x03#8
  | .putBytes => 0x04#8
  | .getPmcb => 0x10#8
  | .setPmcb => 0x11#8
  | .toPhysical _ => 0x20#8
  | .flushTlb => 0x30#8
  | .getTlbStats => 0x31#8
  | .getFrameCount => 0x40#8
  | .getByteCount => 0x41#8
  | .pmGetBytes => 0x80#8
  | .pmPutBytes => 0x81#8
  | .pmGet32 => 0x82#8
  | .tlbLookup => 0x90#8
  | .tlbCache => 0x91#8

/-- The WR bit of each command: 0 in every command but TO_PHYSICAL (R122). -/
def Instr.writeFlag : Instr → Bool
  | .toPhysical wr => wr
  | .getByte | .getBytes | .putByte | .putBytes | .getPmcb | .setPmcb | .flushTlb | .getTlbStats
  | .getFrameCount | .getByteCount | .pmGetBytes | .pmPutBytes | .pmGet32 | .tlbLookup | .tlbCache => false

/-- The field values of a command's word (R121, R126). -/
def Instr.fields (i : Instr) : CommandFields where
  opc := i.opcode
  wr := i.writeFlag
  rsv := 0#23

end Sys2Proof
end

