-- ==== Sys2Proof/WellFormed.lean ====
section
/-! DEFINITION. When the fields of a command word form a command (30_encoding.md R121, R122, R127): RSV is 0, OPC is one the
opcode map assigns, and WR is 0 unless the command is TO_PHYSICAL. -/

namespace Sys2Proof

/-- The OPC values R126 assigns, in its order. -/
def assignedOpcodes : List (BitVec 8) :=
  [0x01#8, 0x02#8, 0x03#8, 0x04#8, 0x10#8, 0x11#8, 0x20#8, 0x30#8,
   0x31#8, 0x40#8, 0x41#8, 0x80#8, 0x81#8, 0x82#8, 0x90#8, 0x91#8]

/-- The OPC value of TO_PHYSICAL, the one command that has the WR flag (R122). -/
def writeFlagOpcode : BitVec 8 := 0x20#8

/-- RSV must be 0 (R121). -/
def CommandFields.reservedClear (f : CommandFields) : Bool := f.rsv == 0#23

/-- OPC must be assigned (R127, R128). -/
def CommandFields.opcodeAssigned (f : CommandFields) : Bool := assignedOpcodes.contains f.opc

/-- WR must be 0 in every command other than TO_PHYSICAL (R122). -/
def CommandFields.writeFlagAllowed (f : CommandFields) : Bool := !f.wr || f.opc == writeFlagOpcode

/-- The three checks together: the words R127 does not refuse. -/
def CommandFields.wellFormed (f : CommandFields) : Bool :=
  f.reservedClear && f.opcodeAssigned && f.writeFlagAllowed

/-- A command is well formed when its word's fields are. A command holds no register number and no immediate (R123), and WR
of TO_PHYSICAL takes both values, so every term of `Instr` passes; what can be ill formed is a word's fields. -/
def Instr.wellFormed (i : Instr) : Bool := i.fields.wellFormed

end Sys2Proof
end

