-- ==== Sys2Proof/Decode.lean ====
section
/-! DEFINITION. The decoder of a command word and its inverse (30_encoding.md R120, R121, R126, R127, R129). -/

namespace Sys2Proof

/-- Why a command word matches no row of the opcode map (R127). The three names are the model's (log 7); R127 refuses them alike. -/
inductive DecodeReject where
  /-- RSV, bits [31:9], is not 0. -/
  | reservedBits
  /-- OPC is not assigned. -/
  | unassignedOpcode
  /-- WR = 1 on an opcode other than 0x20. -/
  | writeFlagNotAllowed
deriving DecidableEq, Repr

/-- One row of R126: a word selects it when `word &&& mask = pattern`; `build` makes the command from the WR bit. -/
structure OpcodeRow where
  pattern : Word
  mask : Word
  build : Bool → Instr

/-- The opcode map of R126, in its order. -/
def opcodeTable : List OpcodeRow :=
  [⟨0x00000001#32, 0xFFFFFFFF#32, fun _ => .getByte⟩,
   ⟨0x00000002#32, 0xFFFFFFFF#32, fun _ => .getBytes⟩,
   ⟨0x00000003#32, 0xFFFFFFFF#32, fun _ => .putByte⟩,
   ⟨0x00000004#32, 0xFFFFFFFF#32, fun _ => .putBytes⟩,
   ⟨0x00000010#32, 0xFFFFFFFF#32, fun _ => .getPmcb⟩,
   ⟨0x00000011#32, 0xFFFFFFFF#32, fun _ => .setPmcb⟩,
   ⟨0x00000020#32, 0xFFFFFEFF#32, fun wr => .toPhysical wr⟩,
   ⟨0x00000030#32, 0xFFFFFFFF#32, fun _ => .flushTlb⟩,
   ⟨0x00000031#32, 0xFFFFFFFF#32, fun _ => .getTlbStats⟩,
   ⟨0x00000040#32, 0xFFFFFFFF#32, fun _ => .getFrameCount⟩,
   ⟨0x00000041#32, 0xFFFFFFFF#32, fun _ => .getByteCount⟩,
   ⟨0x00000080#32, 0xFFFFFFFF#32, fun _ => .pmGetBytes⟩,
   ⟨0x00000081#32, 0xFFFFFFFF#32, fun _ => .pmPutBytes⟩,
   ⟨0x00000082#32, 0xFFFFFFFF#32, fun _ => .pmGet32⟩,
   ⟨0x00000090#32, 0xFFFFFFFF#32, fun _ => .tlbLookup⟩,
   ⟨0x00000091#32, 0xFFFFFFFF#32, fun _ => .tlbCache⟩]

/-- `(CMD & mask) == match` (R126). -/
def OpcodeRow.selects (r : OpcodeRow) (w : Word) : Bool := w &&& r.mask == r.pattern

/-- The fields of a command word (R121). -/
def splitWord (w : Word) : CommandFields where
  opc := w.extractLsb' 0 8
  wr := w.getLsbD 8
  rsv := w.extractLsb' 9 23

/-- The name of the rejection of a word that no row selects (R127), the reserved bits first. -/
def rejectReason (w : Word) : DecodeReject :=
  if (splitWord w).reservedClear then
    if (splitWord w).opcodeAssigned then .writeFlagNotAllowed else .unassignedOpcode
  else .reservedBits

/-- The decoder: the row that selects the word, or a rejection by name (R126, R127). -/
def decode (w : Word) : Except DecodeReject Instr :=
  match opcodeTable.find? (fun r => r.selects w) with
  | some r => .ok (r.build (splitWord w).wr)
  | none => .error (rejectReason w)

/-- A command word from its fields (R121). -/
def joinWord (f : CommandFields) : Word := f.rsv ++ BitVec.ofBool f.wr ++ f.opc

/-- The command word of a command, from R121 and the OPC column of R126. -/
def encode (i : Instr) : Word := joinWord i.fields

/-- The command the decoder reads from a word numbered as the opcode table numbers it (bit 0 the least significant): a
command is exactly one 32-bit word (R120, R129), and the bits above `nbits` are 0. -/
def decodeTableWord (nbits w : Nat) : Option Instr :=
  if w % 2 ^ nbits < 2 ^ 32 then
    match decode (BitVec.ofNat 32 (w % 2 ^ nbits)) with
    | .ok i => some i
    | .error _ => none
  else none

end Sys2Proof
end

