-- ==== Sys2Proof/Machine/State.lean ====
section
/-! DEFINITION. The state of the block (10_state.md R34), its reset value (R65), and the reasons a step can stop. -/

namespace Sys2Proof.Machine

/-- Why construction can fail. The commands of the block never stop the machine with a fault: a command that faults is a
NEXT state with STATUS and FAULT_ADDR written (R58, R330), so `exec` and `step` answer no `Fault` at all. -/
inductive Fault where
  /-- InvalidOperation of the constructor: a TLB of capacity 0 (70_reset_and_hazards.md R371). Raised by `State.construct`
  only; no block exists afterwards. Safe. -/
  | constructionInvalidOperation
deriving DecidableEq, Repr

/-- Why the model gives a command or a host action no meaning. -/
inductive Refusal where
  /-- An instruction of the table that has no meaning in this model; raised by a dispatch arm. Safe. -/
  | notModelled (mnemonic : String)
  /-- `refuse(HostBufferRange)`: a host buffer access past HOST_MEM_SIZE (R63, R294, I5); raised by a transfer, PM_GET_BYTES,
  PM_PUT_BYTES, a resuming SET_PMCB, or (log 16) a host write to HostMem. Safe. -/
  | hostBufferRange
  /-- A command word with RSV not 0 (R127); raised by `step`. Safe. -/
  | reservedBits
  /-- A command word with an unassigned OPC (R127); raised by `step`. Safe. -/
  | unassignedOpcode
  /-- A command word with WR = 1 on an opcode other than 0x20 (R122, R127); raised by `step`. Safe. -/
  | writeFlagNotAllowed
  /-- A FRAME_COUNT outside the range of R9; raised by `State.construct`. Safe. -/
  | illegalConfiguration
deriving DecidableEq, Repr

/-- The four faults of 60_exceptions.md R331 to R334, each with the value it records. -/
inductive MmuFault where
  /-- Code 1, records the virtual address being translated. -/
  | pageFault (va : Word)
  /-- Code 2, records the virtual address being translated. -/
  | writePermissionFault (va : Word)
  /-- Code 3, records the starting address of the failing access. -/
  | physicalMemoryBounds (addr : Word)
  /-- Code 4, records 0. -/
  | invalidOperation
deriving DecidableEq, Repr

/-- The 2-bit `operation_state` (R38). -/
inductive OperationState where
  /-- 0: no transfer in flight. -/
  | none
  /-- 1: memory to host buffer. -/
  | read
  /-- 2: host buffer to memory. -/
  | write
  /-- 3: not a state the source names; stored by SET_PMCB, an InvalidOperation in Execute. -/
  | reserved
deriving DecidableEq, Repr

/-- The PMCB register block (R35). -/
structure Pmcb where
  /-- Virtual (true) or physical (false) addressing (R36). -/
  vmEnable : Bool
  /-- Physical address of the L1 table (R37). -/
  pageTableBase : Word
  /-- The transfer in flight (R38). -/
  operationState : OperationState
  /-- Address of the next byte to transfer (R39). -/
  nextVaddress : Word
  /-- Bytes still to transfer (R40). -/
  remainingCount : Word
  /-- Index in HostMem of the next byte to transfer (R41). -/
  userBuffer : Word
deriving DecidableEq, Repr

/-- One TLB entry with the key it is filed under (R49). -/
structure TlbEntry where
  /-- The page-aligned virtual address. -/
  key : Word
  /-- `last_ref_seq`, the LRU stamp. -/
  lastRefSeq : Count
  /-- `pt_entry`, the cached PTE. -/
  ptEntry : Word
deriving DecidableEq, Repr

/-- The TranslationCache (R49 to R51). The map is a list with rising keys (log 8). -/
structure Tlb where
  entries : List TlbEntry
  seq : Count
  recentHits : Count
  totalHits : Count
  recentMisses : Count
  totalMisses : Count
  recentMaxSize : Count
  totalMaxSize : Count
deriving DecidableEq, Repr

/-- Byte memory: (address, byte) pairs with rising addresses, none of them the byte an unlisted address reads as. PhysicalMemory
and HostMem are held alike; `Memory.read` says what an unlisted address reads as (log 3, log 4). -/
abbrev Memory := List Host.Cell

/-- One action of the host between commands (R6, R53, R54, R64). -/
inductive HostAction where
  /-- Write ARGn (R54). -/
  | writeArg (n : Fin 5) (value : Word)
  /-- Write CMD, which starts the command (R53). -/
  | writeCmd (word : Word)
  /-- Write bytes of HostMem from an index on (R64, R131). -/
  | writeHostMem (index : Word) (bytes : List Byte)
deriving DecidableEq, Repr

/-- The state of the block (R34), with the host buffer memory (R62), the configuration (R33, log 1) and the host's actions
still to come (log 6). -/
structure State where
  /-- The configuration; no step writes it. -/
  cfg : Config
  /-- The active PMCB. -/
  pmcb : Pmcb
  /-- PhysicalMemory, PM[0 .. SIZE-1] (R46). -/
  pm : Memory
  /-- BYTE_COUNT (R47). -/
  byteCount : Count
  /-- The TranslationCache; no command reads or writes it when TLB_PRESENT is false (R48). -/
  tlb : Tlb
  /-- CMD (R53). -/
  cmd : Word
  /-- ARG0 to ARG4 (R54). -/
  args : Vector Word 5
  /-- RES0 to RES11 (R55). -/
  res : Vector Word 12
  /-- STATUS (R56). -/
  status : Word
  /-- FAULT_ADDR (R57). -/
  faultAddr : Word
  /-- HostMem[0 .. HOST_MEM_SIZE-1] (R62). -/
  hostMem : Memory
  /-- The host's actions still to come, the next one first. -/
  pending : List HostAction
deriving DecidableEq, Repr

/-- The PMCB after construction (R65). -/
def Pmcb.reset : Pmcb where
  vmEnable := false
  pageTableBase := 0
  operationState := .none
  nextVaddress := 0
  remainingCount := 0
  userBuffer := 0

/-- The TranslationCache after construction (R65). -/
def Tlb.reset : Tlb where
  entries := []
  seq := 0
  recentHits := 0
  totalHits := 0
  recentMisses := 0
  totalMisses := 0
  recentMaxSize := 0
  totalMaxSize := 0

/-- The machine right after reset (R65), with the configuration of log 2 and the model's choice for what R65 leaves unspecified:
zero in PM (log 3), in HostMem (log 4), and in CMD, ARG and RES (log 5). `State.construct` takes these as arguments. -/
def State.reset : State where
  cfg := Config.default
  pmcb := Pmcb.reset
  pm := []
  byteCount := 0
  tlb := Tlb.reset
  cmd := 0
  args := Vector.replicate 5 0
  res := Vector.replicate 12 0
  status := 0
  faultAddr := 0
  hostMem := []
  pending := []

end Sys2Proof.Machine
end

