-- ==== Sys2Proof/Machine/Flags.lean ====
section
/-! DEFINITION. The block has no condition codes (10_state.md R32). What it has in their place: the P, W, A and M bits of a PTE
(20_memory.md R86 to R88), which are data in PhysicalMemory, and the STATUS code and FAULT_ADDR value of each fault
(60_exceptions.md R330, R335). -/

namespace Sys2Proof.Machine

/-- `P(pte) = pte[0]`: present (R87). -/
def pteP (pte : Word) : Bool := pte.getLsbD 0

/-- `W(pte) = pte[1]`: writable (R87). -/
def pteW (pte : Word) : Bool := pte.getLsbD 1

/-- `A(pte) = pte[5]`: accessed (R87). -/
def pteA (pte : Word) : Bool := pte.getLsbD 5

/-- `M(pte) = pte[6]`: modified (R87). -/
def pteM (pte : Word) : Bool := pte.getLsbD 6

/-- `frame(pte) = pte & 0xFFFFF000`: an address, not a frame number (R87). -/
def pteFrame (pte : Word) : Word := pte &&& 0xFFFFF000#32

/-- `pte | 0x20 | (w ? 0x40 : 0)`: A, and for a write M, added; every other bit kept (R88, R255, R258). -/
def pteMark (pte : Word) (w : Bool) : Word := pte ||| 0x20#32 ||| (if w then 0x40#32 else 0#32)

/-- The STATUS of a command that completed (R56). -/
def statusOk : Word := 0#32

/-- `code(F)`, the STATUS a fault sets (R335). -/
def MmuFault.code : MmuFault → Word
  | .pageFault _ => 1#32
  | .writePermissionFault _ => 2#32
  | .physicalMemoryBounds _ => 3#32
  | .invalidOperation => 4#32

/-- The value a fault records in FAULT_ADDR (R330). -/
def MmuFault.info : MmuFault → Word
  | .pageFault va => va
  | .writePermissionFault va => va
  | .physicalMemoryBounds addr => addr
  | .invalidOperation => 0#32

end Sys2Proof.Machine
end

