-- ==== Sys2Proof/Machine/Operands.lean ====
section
/-! DEFINITION. Operand and result forms: the ARG and RES registers (30_encoding.md R123, R124), the PMCB image
(10_state.md R44, 42_pmcb.md R231), the fields of a virtual address (20_memory.md R84, R85), and the byte order of a
32-bit word (R92). -/

namespace Sys2Proof.Machine

/-- ARGn, taken as it stands (R123). -/
def readArg (s : State) (n : Fin 5) : Word := s.args[n]

/-- The host's write of ARGn (R54). -/
def writeArg (n : Fin 5) (v : Word) (s : State) : State := { s with args := s.args.set n v }

/-- The host's write of CMD, which holds the command word (R53). -/
def writeCmd (w : Word) (s : State) : State := { s with cmd := w }

/-- A command word numbered as the opcode table numbers it (R120): its low `nbits` bits, the rest zero. -/
def tableWord (nbits w : Nat) : Word := BitVec.ofNat 32 (w % 2 ^ nbits)

/-- A write of RESn (R55). -/
def writeRes (n : Fin 12) (v : Word) (s : State) : State := { s with res := s.res.set n v }

/-- The low word of a u64 (R124). -/
def lowWord (c : Count) : Word := c.extractLsb' 0 32

/-- The high word of a u64 (R124). -/
def highWord (c : Count) : Word := c.extractLsb' 32 32

/-- A u64 in two consecutive RES registers, low word first (R124). -/
def writeResPair (lo hi : Fin 12) (c : Count) (s : State) : State :=
  writeRes hi (highWord c) (writeRes lo (lowWord c) s)

/-- The 2-bit encoding of `operation_state` (R38). -/
def OperationState.bits : OperationState → BitVec 2
  | .none => 0#2
  | .read => 1#2
  | .write => 2#2
  | .reserved => 3#2

/-- The `operation_state` two bits stand for (R38). -/
def OperationState.ofBits (b : BitVec 2) : OperationState :=
  if b = 0#2 then .none else if b = 1#2 then .read else if b = 2#2 then .write else .reserved

/-- The five words of a PMCB image (R44). -/
structure PmcbImage where
  w0 : Word
  w1 : Word
  w2 : Word
  w3 : Word
  w4 : Word
deriving DecidableEq, Repr

/-- `Encode(PMCB)` (R231). -/
def Pmcb.encodeImage (p : Pmcb) : PmcbImage where
  w0 := (BitVec.ofBool p.vmEnable).setWidth 32 ||| (p.operationState.bits.setWidth 32 <<< 1)
  w1 := p.pageTableBase
  w2 := p.nextVaddress
  w3 := p.remainingCount
  w4 := p.userBuffer

/-- `Decode(w0, w1, w2, w3, w4)`; bits [31:3] of w0 are ignored (R231). -/
def Pmcb.decodeImage (w : PmcbImage) : Pmcb where
  vmEnable := w.w0.getLsbD 0
  operationState := .ofBits (w.w0.extractLsb' 1 2)
  pageTableBase := w.w1
  nextVaddress := w.w2
  remainingCount := w.w3
  userBuffer := w.w4

/-- The image in ARG0 to ARG4 (R123). -/
def readImage (s : State) : PmcbImage where
  w0 := readArg s 0
  w1 := readArg s 1
  w2 := readArg s 2
  w3 := readArg s 3
  w4 := readArg s 4

/-- A PMCB image in RES0 to RES4 (R124). -/
def writeImage (w : PmcbImage) (s : State) : State :=
  writeRes 4 w.w4 (writeRes 3 w.w3 (writeRes 2 w.w2 (writeRes 1 w.w1 (writeRes 0 w.w0 s))))

/-- `key(va) = va & 0xFFFFF000`, the page-aligned key (R85). -/
def pageKey (va : Word) : Word := va &&& 0xFFFFF000#32

/-- `off(va) = va & 0x00000FFF`, the offset within the page (R84, R85). -/
def pageOffset (va : Word) : Word := va &&& 0x00000FFF#32

/-- The L1 index va[31:22] (R84). -/
def l1Index (va : Word) : BitVec 10 := va.extractLsb' 22 10

/-- The L2 index va[21:12] (R84). -/
def l2Index (va : Word) : BitVec 10 := va.extractLsb' 12 10

/-- The address of entry `i` of a table: `base + 4 * i` modulo 2^32 (R89, R90, D22). -/
def entryAddress (base : Word) (i : BitVec 10) : Word := base + (i.setWidth 32 <<< 2)

/-- `page_table_base[11:0] = 0` (R97). -/
def pageAligned (base : Word) : Bool := base.extractLsb' 0 12 == 0#12

/-- The physical address of `va` in a frame: `frame | off(va)` (R91). -/
def physicalAddress (frame va : Word) : Word := frame ||| pageOffset va

/-- `min(remaining_count, 4096 - next_vaddress[11:0])`, the bytes of the next chunk (44_transfer.md R293). -/
def chunkSize (remaining va : Word) : Word :=
  let room := 4096#32 - pageOffset va
  if remaining ≤ room then remaining else room

/-- `{b3, b2, b1, b0}`: four bytes read as a word, the first the least significant (R92). -/
def wordOfBytes (bytes : List Byte) : Word :=
  match bytes with
  | [b0, b1, b2, b3] => b3 ++ b2 ++ b1 ++ b0
  | _ => 0#32

/-- The four bytes of a word, least significant first (R92). -/
def bytesOfWord (v : Word) : List Byte :=
  [v.extractLsb' 0 8, v.extractLsb' 8 8, v.extractLsb' 16 8, v.extractLsb' 24 8]

end Sys2Proof.Machine
end

