-- ==== Sys2Proof/Machine/Ops.lean ====
section
/-! DEFINITION. The shared operations: how a command ends (10_state.md R58), taking a fault and returning from it (60_exceptions.md
R330, R343), the PhysicalMemory primitives (40_physical_memory.md R161 to R166) and the host buffer accesses (10_state.md R63). -/

namespace Sys2Proof.Machine

/-- What a part of a command ends with: a value, a raised fault with the state it leaves (a raise undoes nothing, R15, R340), or
a refusal. -/
inductive Result (α : Type) where
  | ok (a : α) (s : State)
  | raised (f : MmuFault) (s : State)
  | refuse (r : Refusal)
deriving DecidableEq, Repr

/-- Pseudocode steps run in the order written; a raise or a refusal ends the command at once (R15, R16). -/
def Result.andThen {α β : Type} (r : Result α) (k : α → State → Result β) : Result β :=
  match r with
  | .ok a s => k a s
  | .raised f s => .raised f s
  | .refuse x => .refuse x

/-- TAKING A FAULT (R330): STATUS is the fault's code and FAULT_ADDR its recorded value; no RES register is written and nothing
done before is undone. There is no vector, mode change or saved register besides (R342). -/
def takeFault (f : MmuFault) (s : State) : State := { s with status := f.code, faultAddr := f.info }

/-- A command that completes sets STATUS to 0 and leaves FAULT_ADDR unchanged (R56, R57). -/
def succeed (s : State) : State := { s with status := statusOk }

/-- THE RETURN FROM A FAULT restores all six PMCB fields (R343): the image becomes the active PMCB, unchecked (R233, R234).
Execute then continues the transfer it holds (`execSetPmcb`). -/
def restorePmcb (w : PmcbImage) (s : State) : State := { s with pmcb := Pmcb.decodeImage w }

/-- The end of a command (R58): completed, with the results `write` puts in RES; faulted; or refused. -/
def finish {α : Type} (r : Result α) (write : α → State → State) : Host.Outcome State Fault Refusal :=
  match r with
  | .ok a s => .next (succeed (write a s))
  | .raised f s => .next (takeFault f s)
  | .refuse x => .refused x

/-- The end of a command that has no result register. -/
def finishPlain {α : Type} (r : Result α) : Host.Outcome State Fault Refusal := finish r (fun _ s => s)

/-- `Valid(addr, n)` (R161). -/
def validRange (size : Nat) (addr n : Word) : Bool :=
  let stop := addr + n
  if stop.toNat > size then false
  else if stop ≤ addr then false
  else true

/-- BYTE_COUNT grows by the bytes moved, modulo 2^64 (R166). -/
def countBytes (n : Word) (s : State) : State := { s with byteCount := s.byteCount + n.setWidth 64 }

/-- `MemRead(addr, n)` (R162). -/
def memRead (addr n : Word) (s : State) : Result (List Byte) :=
  if validRange s.cfg.size addr n then .ok (s.pm.readBytes addr.toNat n.toNat) (countBytes n s)
  else .raised (.physicalMemoryBounds addr) s

/-- `MemWrite(addr, n, bytes)` (R163). -/
def memWrite (addr n : Word) (bytes : List Byte) (s : State) : Result Unit :=
  if validRange s.cfg.size addr n then
    .ok () (countBytes n { s with pm := s.pm.writeBytes addr.toNat (bytes.take n.toNat) })
  else .raised (.physicalMemoryBounds addr) s

/-- `MemRead32(addr)` (R164). -/
def memRead32 (addr : Word) (s : State) : Result Word :=
  (memRead addr 4#32 s).andThen fun bytes s => .ok (wordOfBytes bytes) s

/-- `MemWrite32(addr, v)` (R165). -/
def memWrite32 (addr v : Word) (s : State) : Result Unit := memWrite addr 4#32 (bytesOfWord v) s

/-- The requirement of a host buffer access, on true integers: `i + n ≤ HOST_MEM_SIZE` (R63). -/
def hostInRange (s : State) (i n : Word) : Bool := decide (i.toNat + n.toNat ≤ s.cfg.hostMemSize)

/-- `HostRead(i, n)` (R63). -/
def hostRead (i n : Word) (s : State) : Result (List Byte) :=
  if hostInRange s i n then .ok (s.hostMem.readBytes i.toNat n.toNat) s else .refuse .hostBufferRange

/-- `HostWrite(i, n, bytes)` (R63). -/
def hostWrite (i n : Word) (bytes : List Byte) (s : State) : Result Unit :=
  if hostInRange s i n then .ok () { s with hostMem := s.hostMem.writeBytes i.toNat (bytes.take n.toNat) }
  else .refuse .hostBufferRange

/-- A refusal unless the host buffer range lies inside HostMem: the test R167, R168 and R298 make before data moves. -/
def requireHostRange (i n : Word) (s : State) : Result Unit :=
  if hostInRange s i n then .ok () s else .refuse .hostBufferRange

/-- The host's own write to HostMem between commands (R64, R131); one past HOST_MEM_SIZE is refused: DESIGN CHOICE (log 16). -/
def hostStore (i : Word) (bytes : List Byte) (s : State) : Host.Outcome State Fault Refusal :=
  if i.toNat + bytes.length ≤ s.cfg.hostMemSize then
    .next { s with hostMem := s.hostMem.writeBytes i.toNat bytes }
  else .refused .hostBufferRange

/-- The block between commands: idle, keeping all its state (R352, R372). -/
def idle (s : State) : Host.Outcome State Fault Refusal := .next s

/-- The host's next action becomes `a`. -/
def pushAction (a : HostAction) (s : State) : State := { s with pending := a :: s.pending }

/-- The host's next action is taken. -/
def popAction (s : State) : State := { s with pending := s.pending.tail }

/-- What `step` answers to a command word the decoder rejects: a refusal by name (R127). -/
def rejection : DecodeReject → Refusal
  | .reservedBits => .reservedBits
  | .unassignedOpcode => .unassignedOpcode
  | .writeFlagNotAllowed => .writeFlagNotAllowed

end Sys2Proof.Machine
end

