-- ==== Sys2Proof/Machine/PhysicalMemory.lean ====
section
/-! DEFINITION. The PhysicalMemory commands (40_physical_memory.md R167 to R171). -/

namespace Sys2Proof.Machine

/-- PM_GET_BYTES (R167): the host range is tested first, then PhysicalMemory is read. -/
def execPmGetBytes (s : State) : Host.Outcome State Fault Refusal :=
  finishPlain
    ((requireHostRange (readArg s 2) (readArg s 1) s).andThen fun _ s =>
      (memRead (readArg s 0) (readArg s 1) s).andThen fun bytes s =>
        hostWrite (readArg s 2) (readArg s 1) bytes s)

/-- PM_PUT_BYTES (R168). -/
def execPmPutBytes (s : State) : Host.Outcome State Fault Refusal :=
  finishPlain
    ((requireHostRange (readArg s 2) (readArg s 1) s).andThen fun _ s =>
      (hostRead (readArg s 2) (readArg s 1) s).andThen fun bytes s =>
        memWrite (readArg s 0) (readArg s 1) bytes s)

/-- PM_GET_32 (R169). -/
def execPmGet32 (s : State) : Host.Outcome State Fault Refusal :=
  finish (memRead32 (readArg s 0) s) (fun v s => writeRes 0 v s)

/-- GET_FRAME_COUNT (R170). -/
def execGetFrameCount (s : State) : Host.Outcome State Fault Refusal :=
  .next (succeed (writeRes 0 (BitVec.ofNat 32 s.cfg.frameCount) s))

/-- GET_BYTE_COUNT (R171). -/
def execGetByteCount (s : State) : Host.Outcome State Fault Refusal :=
  .next (succeed (writeResPair 0 1 s.byteCount s))

end Sys2Proof.Machine
end

