-- ==== Sys2Proof/Machine/TranslationCache.lean ====
section
/-! DEFINITION. The TranslationCache operations Lookup, Cache and Flush (41_tlb.md R190 to R196), and the four TLB commands
(R197 to R200). -/

namespace Sys2Proof.Machine

/-- The entry filed under a key. -/
def findEntry (es : List TlbEntry) (k : Word) : Option TlbEntry := es.find? (fun e => e.key == k)

/-- Stamp the entry of a key. -/
def stampEntry (es : List TlbEntry) (k : Word) (seq : Count) : List TlbEntry :=
  es.map (fun e => if e.key = k then { e with lastRefSeq := seq } else e)

/-- Insert an entry, or replace the one with its key, keeping the keys rising. -/
def putEntry (es : List TlbEntry) (new : TlbEntry) : List TlbEntry :=
  match es with
  | [] => [new]
  | e :: rest =>
    if new.key < e.key then new :: e :: rest
    else if new.key = e.key then new :: rest
    else e :: putEntry rest new

/-- Remove the entry of a key. -/
def removeEntry (es : List TlbEntry) (k : Word) : List TlbEntry := es.filter (fun e => e.key != k)

/-- Whether `a` is evicted before `b`: the smaller stamp, and the smaller key where stamps tie (R194, D12). -/
def evictsBefore (a b : TlbEntry) : Bool :=
  decide (a.lastRefSeq < b.lastRefSeq) || (a.lastRefSeq == b.lastRefSeq && decide (a.key < b.key))

/-- `Victim()` (R194): the entry that is evicted before every other. -/
def victim (es : List TlbEntry) : Option TlbEntry :=
  match es with
  | [] => none
  | e :: rest =>
    match victim rest with
    | none => some e
    | some v => if evictsBefore v e then some v else some e

/-- `Lookup(va)` (R192): the cached PTE, or the sentinel 0, and the TLB after it. -/
def tlbLookup (va : Word) (t : Tlb) : Word × Tlb :=
  match findEntry t.entries (pageKey va) with
  | some e =>
    (e.ptEntry,
      { t with
        recentHits := t.recentHits + 1
        totalHits := t.totalHits + 1
        seq := t.seq + 1
        entries := stampEntry t.entries (pageKey va) (t.seq + 1) })
  | none =>
    (0#32, { t with recentMisses := t.recentMisses + 1, totalMisses := t.totalMisses + 1 })

/-- The entries that stay when a key is cached (R193): all of them on a refresh or where there is room, all but the victim when
the cache holds `capacity` entries. -/
def makeRoom (capacity : Nat) (k : Word) (es : List TlbEntry) : List TlbEntry :=
  if (findEntry es k).isSome then es
  else if es.length = capacity then
    match victim es with
    | some v => removeEntry es v.key
    | none => es
  else es

/-- The number of entries as a u64 (R196, log 11). -/
def tlbSize (es : List TlbEntry) : Count := BitVec.ofNat 64 es.length

/-- The larger of two counters. -/
def maxCount (a b : Count) : Count := if a ≤ b then b else a

/-- `UpdateMaxSize()` (R196). -/
def updateMaxSize (t : Tlb) : Tlb :=
  { t with
    recentMaxSize := maxCount t.recentMaxSize (tlbSize t.entries)
    totalMaxSize := maxCount t.totalMaxSize (tlbSize t.entries) }

/-- `Cache(va, pte)` (R193). -/
def tlbInsert (capacity : Nat) (va pte : Word) (t : Tlb) : Tlb :=
  updateMaxSize
    { t with
      seq := t.seq + 1
      entries := putEntry (makeRoom capacity (pageKey va) t.entries)
        { key := pageKey va, lastRefSeq := t.seq + 1, ptEntry := pte } }

/-- `Flush()` (R195). -/
def tlbFlush (t : Tlb) : Tlb :=
  { t with entries := [], recentHits := 0, recentMisses := 0, recentMaxSize := 0 }

/-- InvalidOperation(0) where no TLB is configured (R197, R198, R200). -/
def requireTlb (s : State) : Result Unit :=
  if s.cfg.tlbPresent then .ok () s else .raised .invalidOperation s

/-- Lookup on the block's TLB. -/
def lookupTlb (va : Word) (s : State) : Word × State :=
  ((tlbLookup va s.tlb).1, { s with tlb := (tlbLookup va s.tlb).2 })

/-- Cache on the block's TLB. -/
def cacheTlb (va pte : Word) (s : State) : State :=
  { s with tlb := tlbInsert s.cfg.tlbCapacity va pte s.tlb }

/-- The six statistics in RES0 to RES11, each low word then high word (R124, R200). -/
def writeStats (t : Tlb) (s : State) : State :=
  writeResPair 10 11 t.totalMaxSize
    (writeResPair 8 9 t.recentMaxSize
      (writeResPair 6 7 t.totalMisses
        (writeResPair 4 5 t.recentMisses
          (writeResPair 2 3 t.totalHits
            (writeResPair 0 1 t.recentHits s)))))

/-- TLB_LOOKUP (R197). -/
def execTlbLookup (s : State) : Host.Outcome State Fault Refusal :=
  finish
    ((requireTlb s).andThen fun _ s => .ok (lookupTlb (readArg s 0) s).1 (lookupTlb (readArg s 0) s).2)
    (fun pte s => writeRes 0 pte s)

/-- TLB_CACHE (R198). -/
def execTlbCache (s : State) : Host.Outcome State Fault Refusal :=
  finishPlain ((requireTlb s).andThen fun _ s => .ok () (cacheTlb (readArg s 0) (readArg s 1) s))

/-- FLUSH_TLB (R199): with no TLB it does nothing and succeeds. -/
def execFlushTlb (s : State) : Host.Outcome State Fault Refusal :=
  .next (succeed (if s.cfg.tlbPresent then { s with tlb := tlbFlush s.tlb } else s))

/-- GET_TLB_STATS (R200). -/
def execGetTlbStats (s : State) : Host.Outcome State Fault Refusal :=
  finish (requireTlb s) (fun _ s => writeStats s.tlb s)

end Sys2Proof.Machine
end

