-- ==== Sys2Proof/Machine/Translation.lean ====
section
/-! DEFINITION. ToPhysical, step by step (43_translate.md R250 to R260), and the command TO_PHYSICAL (R263). -/

namespace Sys2Proof.Machine

/-- Step 2 (R252): the cached entry when it may be used directly, and the state after the Lookup. Without a TLB there is no
Lookup. -/
def consultTlb (va : Word) (w : Bool) (s : State) : Option Word × State :=
  if s.cfg.tlbPresent then
    let e := (lookupTlb va s).1
    (if pteP e && (!w || pteM e) then some e else none, (lookupTlb va s).2)
  else (none, s)

/-- Step 3c (R255): the L1 entry is written back only when its A bit is clear. -/
def markL1 (a1 l1 : Word) (w : Bool) (s : State) : Result Unit :=
  if pteA l1 then .ok () s else memWrite32 a1 (pteMark l1 w) s

/-- Steps 3a to 3d (R253 to R256): the address and the value of the L2 entry. -/
def walk (va : Word) (w : Bool) (s : State) : Result (Word × Word) :=
  if pageAligned s.pmcb.pageTableBase then
    let a1 := entryAddress s.pmcb.pageTableBase (l1Index va)
    (memRead32 a1 s).andThen fun l1 s =>
      if pteP l1 then
        (markL1 a1 l1 w s).andThen fun _ s =>
          let a2 := entryAddress (pteFrame l1) (l2Index va)
          (memRead32 a2 s).andThen fun pte s => .ok (a2, pte) s
      else .raised (.pageFault va) s
  else .raised .invalidOperation s

/-- Step 4 (R257): the present and writable checks of the chosen entry. -/
def permit (va : Word) (w : Bool) (pte : Word) (s : State) : Result Unit :=
  if !pteP pte then .raised (.pageFault va) s
  else if w && !pteW pte then .raised (.writePermissionFault va) s
  else .ok () s

/-- The L2 write-back of step 5 (R258): only when the entry changes. -/
def markL2 (a2 pte : Word) (w : Bool) (s : State) : Result Unit :=
  if pteMark pte w = pte then .ok () s else memWrite32 a2 (pteMark pte w) s

/-- The TLB fill of step 5 (R258). -/
def fillTlb (va pte : Word) (s : State) : State := if s.cfg.tlbPresent then cacheTlb va pte s else s

/-- The walk path of ToPhysical: steps 3 to 6 for a mapping that was not taken from the cache. -/
def translateByWalk (va : Word) (w : Bool) (s : State) : Result Word :=
  (walk va w s).andThen fun entry s =>
    (permit va w entry.2 s).andThen fun _ s =>
      (markL2 entry.1 entry.2 w s).andThen fun _ s =>
        .ok (physicalAddress (pteFrame entry.2) va) (fillTlb va (pteMark entry.2 w) s)

/-- The cache path of ToPhysical: steps 4 and 6 for a cached entry used directly. -/
def translateCached (va : Word) (w : Bool) (pte : Word) (s : State) : Result Word :=
  (permit va w pte s).andThen fun _ s => .ok (physicalAddress (pteFrame pte) va) s

/-- `ToPhysical(va, w)` (R260). -/
def toPhysical (va : Word) (w : Bool) (s : State) : Result Word :=
  if s.pmcb.vmEnable then
    match (consultTlb va w s).1 with
    | some pte => translateCached va w pte (consultTlb va w s).2
    | none => translateByWalk va w (consultTlb va w s).2
  else .ok va s

/-- TO_PHYSICAL (R263). -/
def execToPhysical (wr : Bool) (s : State) : Host.Outcome State Fault Refusal :=
  finish (toPhysical (readArg s 0) wr s) (fun pa s => writeRes 0 pa s)

end Sys2Proof.Machine
end

