-- ==== Sys2Proof/Machine/Transfer.lean ====
section
/-! DEFINITION. Execute, the multi-page transfer controller (44_transfer.md R290 to R298), and the four byte-transfer commands
(R299 to R302). -/

namespace Sys2Proof.Machine

/-- The move of one chunk's bytes (R294). -/
def moveChunk (isWrite : Bool) (pa buf n : Word) (s : State) : Result Unit :=
  (requireHostRange buf n s).andThen fun _ s =>
    if isWrite then (hostRead buf n s).andThen fun bytes s => memWrite pa n bytes s
    else (memRead pa n s).andThen fun bytes s => hostWrite buf n bytes s

/-- The cursor after a chunk of `n` bytes (R295). -/
def advanceCursor (n : Word) (s : State) : State :=
  { s with pmcb := { s.pmcb with
      nextVaddress := s.pmcb.nextVaddress + n
      userBuffer := s.pmcb.userBuffer + n
      remainingCount := s.pmcb.remainingCount - n } }

/-- The end of a transfer (R297). -/
def completeTransfer (s : State) : State := { s with pmcb := { s.pmcb with operationState := .none } }

/-- One iteration of Execute's loop (R292 to R295). -/
def transferChunk (isWrite : Bool) (s : State) : Result Unit :=
  (toPhysical s.pmcb.nextVaddress isWrite s).andThen fun pa s =>
    let n := chunkSize s.pmcb.remainingCount s.pmcb.nextVaddress
    (moveChunk isWrite pa s.pmcb.userBuffer n s).andThen fun _ s => .ok () (advanceCursor n s)

/-- Execute's loop (R298). Every iteration moves at least one byte, so a `fuel` of remaining_count iterations is enough (log 10). -/
def executeLoop (isWrite : Bool) (fuel : Nat) (s : State) : Result Unit :=
  match fuel with
  | 0 => .ok () (completeTransfer s)
  | fuel + 1 =>
    if s.pmcb.remainingCount = 0#32 then .ok () (completeTransfer s)
    else (transferChunk isWrite s).andThen fun _ s => executeLoop isWrite fuel s

/-- `Execute()` (R291, R298). -/
def execute (s : State) : Result Unit :=
  match s.pmcb.operationState with
  | .none =>
    if s.pmcb.remainingCount ≠ 0#32 ∧ s.cfg.nonePendingIsError = true then .raised .invalidOperation s
    else .ok () s
  | .reserved => .raised .invalidOperation s
  | .read => executeLoop false s.pmcb.remainingCount.toNat s
  | .write => executeLoop true s.pmcb.remainingCount.toNat s

/-- A transfer command loads the PMCB's transfer fields, whatever they held (R299, R304). -/
def startTransfer (op : OperationState) (vaddr count buf : Word) (s : State) : State :=
  { s with pmcb := { s.pmcb with
      operationState := op
      nextVaddress := vaddr
      remainingCount := count
      userBuffer := buf } }

/-- GET_BYTES (R299). -/
def execGetBytes (s : State) : Host.Outcome State Fault Refusal :=
  finishPlain (execute (startTransfer .read (readArg s 0) (readArg s 1) (readArg s 2) s))

/-- GET_BYTE (R300): as GET_BYTES with a count of 1. -/
def execGetByte (s : State) : Host.Outcome State Fault Refusal :=
  finishPlain (execute (startTransfer .read (readArg s 0) 1#32 (readArg s 2) s))

/-- PUT_BYTES (R301). -/
def execPutBytes (s : State) : Host.Outcome State Fault Refusal :=
  finishPlain (execute (startTransfer .write (readArg s 0) (readArg s 1) (readArg s 2) s))

/-- PUT_BYTE (R302): as PUT_BYTES with a count of 1. -/
def execPutByte (s : State) : Host.Outcome State Fault Refusal :=
  finishPlain (execute (startTransfer .write (readArg s 0) 1#32 (readArg s 2) s))

end Sys2Proof.Machine
end

