-- ==== Sys2Proof/Machine/PmcbAccess.lean ====
section
/-! DEFINITION. The PMCB accessor commands (42_pmcb.md R230 to R234). -/

namespace Sys2Proof.Machine

/-- GET_PMCB (R232). -/
def execGetPmcb (s : State) : Host.Outcome State Fault Refusal :=
  .next (succeed (writeImage s.pmcb.encodeImage s))

/-- Execute runs only when bytes remain (R233). -/
def resumePending (s : State) : Result Unit :=
  if s.pmcb.remainingCount = 0#32 then .ok () s else execute s

/-- SET_PMCB (R233): the image is stored before Execute runs, so it stays stored when Execute faults. -/
def execSetPmcb (s : State) : Host.Outcome State Fault Refusal :=
  finishPlain (resumePending (restorePmcb (readImage s) s))

end Sys2Proof.Machine
end

