-- ==== Sys2Proof/Machine/Dispatch.lean ====
section
/-! DEFINITION. One command: each constructor of `Instr` runs its meaning. -/

namespace Sys2Proof.Machine

def exec (i : Instr) (s : State) : Host.Outcome State Fault Refusal :=
  match i with
  | .getByte => Sys2Proof.Machine.execGetByte s
  | .getBytes => Sys2Proof.Machine.execGetBytes s
  | .putByte => Sys2Proof.Machine.execPutByte s
  | .putBytes => Sys2Proof.Machine.execPutBytes s
  | .getPmcb => Sys2Proof.Machine.execGetPmcb s
  | .setPmcb => Sys2Proof.Machine.execSetPmcb s
  | .toPhysical wr => Sys2Proof.Machine.execToPhysical wr s
  | .flushTlb => Sys2Proof.Machine.execFlushTlb s
  | .getTlbStats => Sys2Proof.Machine.execGetTlbStats s
  | .getFrameCount => Sys2Proof.Machine.execGetFrameCount s
  | .getByteCount => Sys2Proof.Machine.execGetByteCount s
  | .pmGetBytes => Sys2Proof.Machine.execPmGetBytes s
  | .pmPutBytes => Sys2Proof.Machine.execPmPutBytes s
  | .pmGet32 => Sys2Proof.Machine.execPmGet32 s
  | .tlbLookup => Sys2Proof.Machine.execTlbLookup s
  | .tlbCache => Sys2Proof.Machine.execTlbCache s

end Sys2Proof.Machine
end

