-- ==== Sys2Proof/Machine/Step.lean ====
section
/-! DEFINITION. One step of the block: the host's next action (00_scope.md R6, 10_state.md R53, R54, R64; log 6). -/

namespace Sys2Proof.Machine

/-- A write of CMD starts the command, which runs to completion (R53): the command the word decodes to, or a refusal by name for
a word that matches no row (R127). -/
def runCommand (w : Word) (s : State) : Host.Outcome State Fault Refusal :=
  match decode w with
  | .ok i => exec i (writeCmd w s)
  | .error e => .refused (rejection e)

/-- One step: the host's next action. With none the block is idle and keeps all its state (R352, R372). -/
def step (s : State) : Host.Outcome State Fault Refusal :=
  match s.pending with
  | [] => idle s
  | .writeArg n v :: _ => .next (writeArg n v (popAction s))
  | .writeHostMem i bytes :: _ => hostStore i bytes (popAction s)
  | .writeCmd w :: _ => runCommand w (popAction s)

/-- The state in which the host's next action is to write a command word to CMD. Nothing else changes. -/
def State.withFetchWord (s : State) (nbits w : Nat) : State := pushAction (.writeCmd (tableWord nbits w)) s

end Sys2Proof.Machine
end

