-- ==== Sys2Proof/Machine/Assembly.lean ====
section
/-! DEFINITION. The written forms of 30_encoding.md R130 to R132 as data: commands with their operands, host directives and
pseudo-commands, each as the host actions it stands for. Text is not parsed (00_scope.md R4: "parsing and CLI"). -/

namespace Sys2Proof.Machine

/-- A command line of R130, a directive of R131 or a pseudo-command of R132. -/
inductive AsmLine where
  | getByte (vaddr buf : Word)
  | getBytes (vaddr count buf : Word)
  | putByte (vaddr buf : Word)
  | putBytes (vaddr count buf : Word)
  | getPmcb
  /-- `set_pmcb <vm>, <base>, <state>, <next>, <remaining>, <buf>`. -/
  | setPmcb (p : Pmcb)
  | setPmcbRaw (w0 w1 w2 w3 w4 : Word)
  | toPhysical (vaddr : Word)
  | toPhysicalW (vaddr : Word)
  | flushTlb
  | getTlbStats
  | getFrameCount
  | getByteCount
  | pmGetBytes (paddr count buf : Word)
  | pmPutBytes (paddr count buf : Word)
  | pmGet32 (paddr : Word)
  | tlbLookup (vaddr : Word)
  | tlbCache (vaddr pte : Word)
  /-- `.host <index>: <b0> <b1> ...`. -/
  | host (index : Word) (bytes : List Byte)
  /-- `.hostword <index>: <u32>`, low byte first. -/
  | hostWord (index v : Word)
  /-- `.expect <what> = <value>`: no effect. -/
  | expect
  | enableVm (base : Word)
  /-- `disable_vm [<base>]`; the base defaults to 0. -/
  | disableVm (base : Word)
  | putWord (addr v buf : Word)
  | checkpoint
  /-- `resume`, with the words the host kept at the last `checkpoint` (log 12). -/
  | resume (kept : PmcbImage)
  /-- `abandon`, with the words its `get_pmcb` returned in RES0 and RES1 (log 12). -/
  | abandon (res0 res1 : Word)
deriving DecidableEq, Repr

/-- Write the named ARG registers, then CMD (R54, R133). -/
def issue (i : Instr) (operands : List (Fin 5 × Word)) : List HostAction :=
  operands.map (fun o => HostAction.writeArg o.1 o.2) ++ [HostAction.writeCmd (encode i)]

/-- SET_PMCB with an image in ARG0 to ARG4 (R123, R130). -/
def issueImage (w : PmcbImage) : List HostAction :=
  issue .setPmcb [(0, w.w0), (1, w.w1), (2, w.w2), (3, w.w3), (4, w.w4)]

/-- A PMCB with no transfer in flight. -/
def idlePmcb (vm : Bool) (base : Word) : Pmcb where
  vmEnable := vm
  pageTableBase := base
  operationState := .none
  nextVaddress := 0
  remainingCount := 0
  userBuffer := 0

/-- The host actions a line stands for (R130 to R132). -/
def AsmLine.actions : AsmLine → List HostAction
  | .getByte vaddr buf => issue .getByte [(0, vaddr), (2, buf)]
  | .getBytes vaddr count buf => issue .getBytes [(0, vaddr), (1, count), (2, buf)]
  | .putByte vaddr buf => issue .putByte [(0, vaddr), (2, buf)]
  | .putBytes vaddr count buf => issue .putBytes [(0, vaddr), (1, count), (2, buf)]
  | .getPmcb => issue .getPmcb []
  | .setPmcb p => issueImage p.encodeImage
  | .setPmcbRaw w0 w1 w2 w3 w4 => issueImage ⟨w0, w1, w2, w3, w4⟩
  | .toPhysical vaddr => issue (.toPhysical false) [(0, vaddr)]
  | .toPhysicalW vaddr => issue (.toPhysical true) [(0, vaddr)]
  | .flushTlb => issue .flushTlb []
  | .getTlbStats => issue .getTlbStats []
  | .getFrameCount => issue .getFrameCount []
  | .getByteCount => issue .getByteCount []
  | .pmGetBytes paddr count buf => issue .pmGetBytes [(0, paddr), (1, count), (2, buf)]
  | .pmPutBytes paddr count buf => issue .pmPutBytes [(0, paddr), (1, count), (2, buf)]
  | .pmGet32 paddr => issue .pmGet32 [(0, paddr)]
  | .tlbLookup vaddr => issue .tlbLookup [(0, vaddr)]
  | .tlbCache vaddr pte => issue .tlbCache [(0, vaddr), (1, pte)]
  | .host index bytes => [.writeHostMem index bytes]
  | .hostWord index v => [.writeHostMem index (bytesOfWord v)]
  | .expect => []
  | .enableVm base => issueImage (idlePmcb true base).encodeImage
  | .disableVm base => issueImage (idlePmcb false base).encodeImage
  | .putWord addr v buf =>
    .writeHostMem buf (bytesOfWord v) :: issue .putBytes [(0, addr), (1, 4#32), (2, buf)]
  | .checkpoint => issue .getPmcb []
  | .resume kept => issueImage kept
  | .abandon res0 res1 =>
    issue .getPmcb [] ++ issueImage (idlePmcb (res0.getLsbD 0) res1).encodeImage

/-- The host issues the lines of a listing, in order, after what it has still to do (R31, R384). -/
def hostIssues (lines : List AsmLine) (s : State) : State :=
  { s with pending := s.pending ++ lines.flatMap AsmLine.actions }

end Sys2Proof.Machine
end

