-- ==== Sys2Proof/Machine/Reset.lean ====
section
/-! DEFINITION. Construction, which is the block's only reset (70_reset_and_hazards.md R370, R371; 10_state.md R65). -/

namespace Sys2Proof.Machine

/-- What R65 leaves unspecified: arbitrary PM bytes, CMD, ARG and RES registers, and the host's own HostMem. -/
structure ResetDraw where
  pm : Memory
  cmd : Word
  args : Vector Word 5
  res : Vector Word 12
  hostMem : Memory
deriving DecidableEq, Repr

/-- The draw of `State.reset`: DESIGN CHOICE, all zero (log 3, 4, 5). -/
def ResetDraw.zero : ResetDraw where
  pm := []
  cmd := 0
  args := Vector.replicate 5 0
  res := Vector.replicate 12 0
  hostMem := []

/-- A draw that fills a block of configuration `c`: canonical memories that lie inside PhysicalMemory and HostMem. -/
def ResetDraw.fits (c : Config) (d : ResetDraw) : Bool :=
  d.pm.wf && d.pm.below c.size && d.hostMem.wf && d.hostMem.below c.hostMemSize

/-- The state after construction (R65). -/
def State.afterConstruction (c : Config) (d : ResetDraw) : State where
  cfg := c
  pmcb := Pmcb.reset
  pm := d.pm
  byteCount := 0
  tlb := Tlb.reset
  cmd := d.cmd
  args := d.args
  res := d.res
  status := 0
  faultAddr := 0
  hostMem := d.hostMem
  pending := []

/-- Construction (R370): InvalidOperation for a TLB of capacity 0 (R371); a FRAME_COUNT outside R9's range, to which the spec
gives no meaning, is refused. -/
def State.construct (c : Config) (d : ResetDraw) : Host.Outcome State Fault Refusal :=
  if !c.capacityLegal then .fault .constructionInvalidOperation
  else if !c.frameCountLegal then .refused .illegalConfiguration
  else .next (State.afterConstruction c d)

end Sys2Proof.Machine
end

