-- ==== Sys2Proof/Safety.lean ====
section
/-! DEFINITION. The terms in which claims about the block are stated: the invariant of its states, the page-table words a walk of a
virtual address reads and leaves (43_translate.md R253 to R258), when a TLB entry is stale (R264), and the state a command leaves
apart from one field. -/

namespace Sys2Proof.Machine

/-! ### The invariant -/

/-- The keys of the TLB entries rise strictly, so they are unique (10_state.md R49). -/
def keysRising (es : List TlbEntry) : Bool :=
  match es with
  | [] => true
  | e :: rest => rest.all (fun f => decide (e.key < f.key)) && keysRising rest

/-- Every key is page-aligned (R49). -/
def keysAligned (es : List TlbEntry) : Bool := es.all (fun e => e.key == pageKey e.key)

/-- A legal TranslationCache: unique page-aligned keys, at most TLB_CAPACITY of them (R49), and maximum sizes that bound the
present size and stay within the capacity (41_tlb.md R196). Without a TLB nothing has changed since reset (R48). -/
def Tlb.wf (c : Config) (t : Tlb) : Bool :=
  if c.tlbPresent then
    keysRising t.entries && keysAligned t.entries && decide (t.entries.length ≤ c.tlbCapacity)
      && decide (tlbSize t.entries ≤ t.recentMaxSize) && decide (t.recentMaxSize ≤ t.totalMaxSize)
      && decide (t.totalMaxSize.toNat ≤ c.tlbCapacity)
  else decide (t = Tlb.reset)

/-- The invariant: a legal configuration (00_scope.md R9), canonical memories inside [0, SIZE) and [0, HOST_MEM_SIZE)
(R46, R62), and a legal TranslationCache. -/
def State.inv (s : State) : Bool :=
  s.cfg.legal && s.pm.wf && s.pm.below s.cfg.size && s.hostMem.wf && s.hostMem.below s.cfg.hostMemSize && s.tlb.wf s.cfg

/-! ### What a walk of `va` reads and leaves -/

/-- The 32-bit little-endian word at a physical address (20_memory.md R92). -/
def pmWord (m : Memory) (a : Word) : Word := wordOfBytes (m.readBytes a.toNat 4)

/-- PhysicalMemory with a word stored at a physical address (R92). -/
def pmPutWord (m : Memory) (a v : Word) : Memory := m.writeBytes a.toNat (bytesOfWord v)

/-- The address of the L1 entry of `va` (R89). -/
def l1Address (s : State) (va : Word) : Word := entryAddress s.pmcb.pageTableBase (l1Index va)

/-- The L1 entry of `va` (R89). -/
def l1Word (s : State) (va : Word) : Word := pmWord s.pm (l1Address s va)

/-- PhysicalMemory after step 3c (R255): A, and M for a write, added to an L1 entry whose A is clear. -/
def pmMarkedL1 (s : State) (va : Word) (w : Bool) : Memory :=
  if pteA (l1Word s va) then s.pm else pmPutWord s.pm (l1Address s va) (pteMark (l1Word s va) w)

/-- The address of the L2 entry of `va` (R90). -/
def l2Address (s : State) (va : Word) : Word := entryAddress (pteFrame (l1Word s va)) (l2Index va)

/-- The L2 entry a walk of `va` reads, after the L1 write-back (R256, R384). -/
def l2Word (s : State) (va : Word) (w : Bool) : Word := pmWord (pmMarkedL1 s va w) (l2Address s va)

/-- PhysicalMemory after step 5 (R258): A, and M for a write, added to the L2 entry. -/
def pmMarkedL2 (s : State) (va : Word) (w : Bool) : Memory :=
  if pteMark (l2Word s va w) w = l2Word s va w then pmMarkedL1 s va w
  else pmPutWord (pmMarkedL1 s va w) (l2Address s va) (pteMark (l2Word s va w) w)

/-- The L1 entry of `va` lies inside PhysicalMemory (R254). -/
def l1InBounds (s : State) (va : Word) : Prop := (l1Address s va).toNat + 4 ≤ s.cfg.size

/-- The L2 entry of `va` lies inside PhysicalMemory (R256). -/
def l2InBounds (s : State) (va : Word) : Prop := (l2Address s va).toNat + 4 ≤ s.cfg.size

/-- The bytes the L1 part of a walk adds to BYTE_COUNT: the read, and the write-back where A was clear (40_physical_memory.md R166). -/
def l1Bytes (s : State) (va : Word) : Count := if pteA (l1Word s va) then 4 else 8

/-- The bytes the L2 part of a walk adds to BYTE_COUNT: the read, and the write-back where the entry changes (R166, R258). -/
def l2Bytes (s : State) (va : Word) (w : Bool) : Count :=
  if pteMark (l2Word s va w) w = l2Word s va w then 4 else 8

/-! ### The TLB seen by a translation -/

/-- The entry of the TLB for the page of `va` (R191). -/
def tlbEntryOf (s : State) (va : Word) : Option TlbEntry :=
  if s.cfg.tlbPresent then findEntry s.tlb.entries (pageKey va) else none

/-- The cached PTE a translation of `va` uses directly: present, and for a write modified (R252). -/
def usableEntry (s : State) (va : Word) (w : Bool) : Option TlbEntry :=
  (tlbEntryOf s va).filter (fun e => pteP e.ptEntry && (!w || pteM e.ptEntry))

/-- The TLB after the Lookup of a translation of `va` (R192, R252); unchanged where there is no TLB. -/
def tlbAfterLookup (s : State) (va : Word) : Tlb :=
  if s.cfg.tlbPresent then (tlbLookup va s.tlb).2 else s.tlb

/-- The TLB after a walk that succeeded (R258). -/
def tlbAfterWalk (s : State) (va : Word) (w : Bool) : Tlb :=
  if s.cfg.tlbPresent then tlbInsert s.cfg.tlbCapacity va (pteMark (l2Word s va w) w) (tlbAfterLookup s va) else s.tlb

/-- A cached PTE of `va` is stale when a walk of the current page table would not end at that value: it would fault at L1, or read
a different L2 word (R264). -/
def staleEntry (s : State) (va : Word) (w : Bool) (e : TlbEntry) : Prop :=
  ¬ (pteP (l1Word s va) = true ∧ l2Word s va w = e.ptEntry)

/-! ### Outcomes -/

/-- An outcome with its next state changed. -/
def mapNext (g : State → State) (o : Host.Outcome State Fault Refusal) : Host.Outcome State Fault Refusal :=
  match o with
  | .next s => .next (g s)
  | .fault f => .fault f
  | .refused r => .refused r

/-- A result of part of a command with its state changed. -/
def Result.mapState {α : Type} (g : State → State) (r : Result α) : Result α :=
  match r with
  | .ok a s => .ok a (g s)
  | .raised f s => .raised f (g s)
  | .refuse x => .refuse x

/-- The ARG registers the row of each command names, the only ones it reads (10_state.md R54, 30_encoding.md R123). -/
def argsRead (i : Instr) : List (Fin 5) :=
  match i with
  | .getByte | .putByte => [0, 2]
  | .getBytes | .putBytes | .pmGetBytes | .pmPutBytes => [0, 1, 2]
  | .setPmcb => [0, 1, 2, 3, 4]
  | .toPhysical _ | .pmGet32 | .tlbLookup => [0]
  | .tlbCache => [0, 1]
  | .getPmcb | .flushTlb | .getTlbStats | .getFrameCount | .getByteCount => []

/-- The bytes a transfer command asks for: ARG1, or 1 for GET_BYTE and PUT_BYTE (44_transfer.md R299 to R302). -/
def transferCount (i : Instr) (s : State) : Word :=
  match i with
  | .getByte | .putByte => 1#32
  | .getBytes | .putBytes => readArg s 1
  | .getPmcb | .setPmcb | .toPhysical _ | .flushTlb | .getTlbStats | .getFrameCount | .getByteCount
  | .pmGetBytes | .pmPutBytes | .pmGet32 | .tlbLookup | .tlbCache => 0#32

/-- The two commands that read memory into the host buffer. -/
def isGet (i : Instr) : Bool := i = .getByte || i = .getBytes

/-- The two commands that write the host buffer to memory. -/
def isPut (i : Instr) : Bool := i = .putByte || i = .putBytes

/-- The state Execute starts from in a transfer command: the PMCB's transfer fields loaded (R299, R304). -/
def loadedState (i : Instr) (s : State) : State :=
  startTransfer (if isPut i then .write else .read) (readArg s 0) (transferCount i s) (readArg s 2) s

end Sys2Proof.Machine
end

