-- ==== Sys2Proof/Certificates/Slice0/Obligations.lean ====
section
/-! DEFINITION. The statements for the provers. Each docstring names the rules of the spec it rests on. `readArg s n` is ARGn;
`s.inv` is the invariant of Safety.lean, which `StepKeepsInvariant` states of every step. -/

open Sys2Proof Sys2Proof.Machine

/-! ### Decoding and steps -/

/-- The decode vectors DC1 to DC8 of 95_test_vectors.md, and a word of every family written out from 30_encoding.md R126. -/
def Obligations.SpecCommandWordsDecode : Prop :=
  decode 0x00000004#32 = .ok .putBytes ∧ decode 0x00000020#32 = .ok (.toPhysical false) ∧
  decode 0x00000120#32 = .ok (.toPhysical true) ∧ decode 0x00000104#32 = .error .writeFlagNotAllowed ∧
  decode 0x00000220#32 = .error .reservedBits ∧ decode 0x00000005#32 = .error .unassignedOpcode ∧
  decode 0x000000FF#32 = .error .unassignedOpcode ∧ decode 0x00000091#32 = .ok .tlbCache ∧
  decode 0x00000011#32 = .ok .setPmcb ∧ decode 0x00000030#32 = .ok .flushTlb ∧
  decode 0x00000040#32 = .ok .getFrameCount ∧ decode 0x00000082#32 = .ok .pmGet32

/-- R126: the opcode map. A word whose masked bits equal a row's match is that row's command; WR of TO_PHYSICAL is CMD[8]. -/
def Obligations.OpcodeMapSelectsByMask : Prop :=
  ∀ w : Word,
    (w &&& 0xFFFFFFFF#32 = 0x00000001#32 → decode w = .ok .getByte) ∧
    (w &&& 0xFFFFFFFF#32 = 0x00000002#32 → decode w = .ok .getBytes) ∧
    (w &&& 0xFFFFFFFF#32 = 0x00000003#32 → decode w = .ok .putByte) ∧
    (w &&& 0xFFFFFFFF#32 = 0x00000004#32 → decode w = .ok .putBytes) ∧
    (w &&& 0xFFFFFFFF#32 = 0x00000010#32 → decode w = .ok .getPmcb) ∧
    (w &&& 0xFFFFFFFF#32 = 0x00000011#32 → decode w = .ok .setPmcb) ∧
    (w &&& 0xFFFFFEFF#32 = 0x00000020#32 → decode w = .ok (.toPhysical (w.getLsbD 8))) ∧
    (w &&& 0xFFFFFFFF#32 = 0x00000030#32 → decode w = .ok .flushTlb) ∧
    (w &&& 0xFFFFFFFF#32 = 0x00000031#32 → decode w = .ok .getTlbStats) ∧
    (w &&& 0xFFFFFFFF#32 = 0x00000040#32 → decode w = .ok .getFrameCount) ∧
    (w &&& 0xFFFFFFFF#32 = 0x00000041#32 → decode w = .ok .getByteCount) ∧
    (w &&& 0xFFFFFFFF#32 = 0x00000080#32 → decode w = .ok .pmGetBytes) ∧
    (w &&& 0xFFFFFFFF#32 = 0x00000081#32 → decode w = .ok .pmPutBytes) ∧
    (w &&& 0xFFFFFFFF#32 = 0x00000082#32 → decode w = .ok .pmGet32) ∧
    (w &&& 0xFFFFFFFF#32 = 0x00000090#32 → decode w = .ok .tlbLookup) ∧
    (w &&& 0xFFFFFFFF#32 = 0x00000091#32 → decode w = .ok .tlbCache)

/-- R121, R126, R127: each command has exactly one word, and a word decodes to a command only if it is that word: no bit of the
encoding is dropped. -/
def Obligations.DecodeIsExactlyInverseOfEncode : Prop :=
  ∀ (w : Word) (i : Instr), decode w = .ok i ↔ w = encode i

/-- R127, R122: a word is refused by `step` exactly when its OPC is unassigned, its RSV is not 0, or its WR is 1 on an opcode other
than 0x20. -/
def Obligations.WordsOutsideTheMapAreRefused : Prop :=
  ∀ (s : State) (w : Word) (rest : List HostAction), s.pending = .writeCmd w :: rest →
    ((w.extractLsb' 0 8 ∉ [0x01#8, 0x02#8, 0x03#8, 0x04#8, 0x10#8, 0x11#8, 0x20#8, 0x30#8, 0x31#8, 0x40#8, 0x41#8,
        0x80#8, 0x81#8, 0x82#8, 0x90#8, 0x91#8] ∨
      w.extractLsb' 9 23 ≠ 0#23 ∨ (w.getLsbD 8 = true ∧ w.extractLsb' 0 8 ≠ 0x20#8)) ↔
    ∃ r, r ∈ [Refusal.reservedBits, Refusal.unassignedOpcode, Refusal.writeFlagNotAllowed] ∧ step s = .refused r)

/-- R53: a write of CMD runs the command its word decodes to, as one step; CMD holds the word, and the host's next action is the one
after it. -/
def Obligations.StepRunsDecodedCommand : Prop :=
  ∀ (s : State) (w : Word) (rest : List HostAction) (i : Instr),
    s.pending = .writeCmd w :: rest → decode w = .ok i → step s = exec i { s with cmd := w, pending := rest }

/-- R54, R62, R64, R131, R352 and the model's queue of host actions (log 6): with no action the block keeps all its state; a write of ARGn
writes that register; a host write to HostMem writes its bytes and nothing else. That a host write past HOST_MEM_SIZE is refused is the
model's choice (log 16): the spec does not say. -/
def Obligations.HostActionsBetweenCommands : Prop :=
  ∀ s : State,
    (s.pending = [] → step s = .next s) ∧
    (∀ n v rest, s.pending = .writeArg n v :: rest →
      step s = .next { s with args := s.args.set n v, pending := rest }) ∧
    (∀ (i : Word) (bytes : List Byte) rest, s.pending = .writeHostMem i bytes :: rest → s.hostMem.wf = true →
      (i.toNat + bytes.length ≤ s.cfg.hostMemSize →
        ∃ m : Memory, step s = .next { s with hostMem := m, pending := rest } ∧ m.wf = true ∧
          ∀ a, m.read a =
            if i.toNat ≤ a ∧ a < i.toNat + bytes.length then bytes.getD (a - i.toNat) 0 else s.hostMem.read a) ∧
      (s.cfg.hostMemSize < i.toNat + bytes.length → step s = .refused .hostBufferRange))

/-! ### Construction and the invariant -/

/-- R65: the state after construction, for every legal configuration and every content of what R65 leaves unspecified. -/
def Obligations.ConstructionState : Prop :=
  ∀ (c : Config) (d : ResetDraw), c.legal = true →
    ∃ t, State.construct c d = .next t ∧ t.cfg = c ∧
      t.pmcb.vmEnable = false ∧ t.pmcb.pageTableBase = 0 ∧ t.pmcb.operationState = .none ∧
      t.pmcb.nextVaddress = 0 ∧ t.pmcb.remainingCount = 0 ∧ t.pmcb.userBuffer = 0 ∧
      t.pm = d.pm ∧ t.byteCount = 0 ∧
      t.tlb.entries = [] ∧ t.tlb.seq = 0 ∧ t.tlb.recentHits = 0 ∧ t.tlb.totalHits = 0 ∧ t.tlb.recentMisses = 0 ∧
      t.tlb.totalMisses = 0 ∧ t.tlb.recentMaxSize = 0 ∧ t.tlb.totalMaxSize = 0 ∧
      t.cmd = d.cmd ∧ t.args = d.args ∧ t.res = d.res ∧ t.status = 0 ∧ t.faultAddr = 0 ∧ t.hostMem = d.hostMem

/-- R371: building a block with a TLB of capacity 0 fails with InvalidOperation, and no block exists. -/
def Obligations.ConstructionNeedsTlbCapacity : Prop :=
  ∀ (c : Config) (d : ResetDraw), c.tlbPresent = true → c.tlbCapacity = 0 →
    State.construct c d = .fault .constructionInvalidOperation

/-- Every constructed block meets the invariant, and so does `State.reset`, whose configuration and contents are the model's choice
(log 2, 3, 4, 5). -/
def Obligations.ConstructionSatisfiesInvariant : Prop :=
  (∀ (c : Config) (d : ResetDraw) (t : State), c.legal = true → d.fits c = true → State.construct c d = .next t →
    t.inv = true) ∧ State.reset.inv = true

/-- The invariant is kept by every step from every state that meets it: canonical memories that lie inside [0, SIZE) and
[0, HOST_MEM_SIZE), and a TLB of at most TLB_CAPACITY unique page-aligned keys whose maximum sizes bound it (R46, R49, R62, R193,
R196). No step changes the configuration (R33). -/
def Obligations.StepKeepsInvariant : Prop :=
  ∀ s t : State, s.inv = true → step s = .next t → t.inv = true ∧ t.cfg = s.cfg

/-! ### PhysicalMemory -/

/-- R161: `Valid(addr, n)` holds iff n ≥ 1 and addr + n ≤ SIZE as true integers; a failed validation raises
PhysicalMemoryBounds(addr). -/
def Obligations.RangeValidation : Prop :=
  ∀ (s : State) (addr n : Word) (bytes : List Byte), s.cfg.legal = true →
    (validRange s.cfg.size addr n = true ↔ 1 ≤ n.toNat ∧ addr.toNat + n.toNat ≤ s.cfg.size) ∧
    (validRange s.cfg.size addr n = false →
      memRead addr n s = .raised (.physicalMemoryBounds addr) s ∧
      memWrite addr n bytes s = .raised (.physicalMemoryBounds addr) s)

/-- R172: MemWrite then MemRead of the same range returns the data; outside a valid range both raise PhysicalMemoryBounds(addr) and
change nothing. -/
def Obligations.RoundTripAndBoundsAtomicity : Prop :=
  ∀ (s : State) (addr n : Word) (d : List Byte), s.cfg.legal = true → s.pm.wf = true → d.length = n.toNat →
    (1 ≤ n.toNat → addr.toNat + n.toNat ≤ s.cfg.size →
      ∃ t u, memWrite addr n d s = .ok () t ∧ memRead addr n t = .ok d u) ∧
    (validRange s.cfg.size addr n = false →
      memRead addr n s = .raised (.physicalMemoryBounds addr) s ∧
      memWrite addr n d s = .raised (.physicalMemoryBounds addr) s)

/-- R167: PM_GET_BYTES, word 0x80. Refused when the host range passes HOST_MEM_SIZE; PhysicalMemoryBounds(ARG0) with nothing else changed when the
physical range is not valid (length 0 included); otherwise it fills HostMem[ARG2 ..] from PM[ARG0 ..] and adds ARG1 to BYTE_COUNT. -/
def Obligations.PmGetBytesCommand : Prop :=
  decode 0x00000080#32 = .ok .pmGetBytes ∧ ∀ s : State, s.inv = true →
    (s.cfg.hostMemSize < (readArg s 2).toNat + (readArg s 1).toNat → exec .pmGetBytes s = .refused .hostBufferRange) ∧
    ((readArg s 2).toNat + (readArg s 1).toNat ≤ s.cfg.hostMemSize →
      ((readArg s 1).toNat = 0 ∨ s.cfg.size < (readArg s 0).toNat + (readArg s 1).toNat →
        exec .pmGetBytes s = .next { s with status := 3#32, faultAddr := readArg s 0 }) ∧
      (1 ≤ (readArg s 1).toNat → (readArg s 0).toNat + (readArg s 1).toNat ≤ s.cfg.size →
        ∃ m : Memory,
          exec .pmGetBytes s =
            .next { s with hostMem := m, byteCount := s.byteCount + (readArg s 1).setWidth 64, status := 0#32 } ∧
          ∀ a, m.read a =
            if (readArg s 2).toNat ≤ a ∧ a < (readArg s 2).toNat + (readArg s 1).toNat then
              s.pm.read ((readArg s 0).toNat + (a - (readArg s 2).toNat))
            else s.hostMem.read a))

/-- R168: PM_PUT_BYTES, word 0x81, likewise: PM[ARG0 ..] from HostMem[ARG2 ..]. The TLB is unchanged, whatever entries the bytes overwrite. -/
def Obligations.PmPutBytesCommand : Prop :=
  decode 0x00000081#32 = .ok .pmPutBytes ∧ ∀ s : State, s.inv = true →
    (s.cfg.hostMemSize < (readArg s 2).toNat + (readArg s 1).toNat → exec .pmPutBytes s = .refused .hostBufferRange) ∧
    ((readArg s 2).toNat + (readArg s 1).toNat ≤ s.cfg.hostMemSize →
      ((readArg s 1).toNat = 0 ∨ s.cfg.size < (readArg s 0).toNat + (readArg s 1).toNat →
        exec .pmPutBytes s = .next { s with status := 3#32, faultAddr := readArg s 0 }) ∧
      (1 ≤ (readArg s 1).toNat → (readArg s 0).toNat + (readArg s 1).toNat ≤ s.cfg.size →
        ∃ m : Memory,
          exec .pmPutBytes s =
            .next { s with pm := m, byteCount := s.byteCount + (readArg s 1).setWidth 64, status := 0#32 } ∧
          ∀ a, m.read a =
            if (readArg s 0).toNat ≤ a ∧ a < (readArg s 0).toNat + (readArg s 1).toNat then
              s.hostMem.read ((readArg s 2).toNat + (a - (readArg s 0).toNat))
            else s.pm.read a))

/-- R169, R92: PM_GET_32, word 0x82, reads the four bytes at ARG0, aligned or not, as a little-endian word into RES0 and adds 4 to BYTE_COUNT;
PhysicalMemoryBounds(ARG0) when ARG0 + 4 passes SIZE. -/
def Obligations.PmGet32Command : Prop :=
  decode 0x00000082#32 = .ok .pmGet32 ∧ ∀ s : State, s.cfg.legal = true →
    ((readArg s 0).toNat + 4 ≤ s.cfg.size →
      exec .pmGet32 s = .next { s with
        res := s.res.set 0 (s.pm.read ((readArg s 0).toNat + 3) ++ s.pm.read ((readArg s 0).toNat + 2)
          ++ s.pm.read ((readArg s 0).toNat + 1) ++ s.pm.read (readArg s 0).toNat)
        byteCount := s.byteCount + 4
        status := 0#32 }) ∧
    (s.cfg.size < (readArg s 0).toNat + 4 →
      exec .pmGet32 s = .next { s with status := 3#32, faultAddr := readArg s 0 })

/-- R170, R171: GET_FRAME_COUNT (word 0x40) puts FRAME_COUNT in RES0; GET_BYTE_COUNT (word 0x41) puts BYTE_COUNT in RES0 (low word) and RES1 (high word).
Nothing but STATUS changes besides. -/
def Obligations.CounterQueries : Prop :=
  decode 0x00000040#32 = .ok .getFrameCount ∧ decode 0x00000041#32 = .ok .getByteCount ∧ ∀ s : State,
    (∃ r : Vector Word 12, exec .getFrameCount s = .next { s with res := r, status := 0#32 } ∧
      (s.cfg.legal = true → r[0].toNat = s.cfg.frameCount) ∧ ∀ k : Fin 12, 1 ≤ k.val → r[k] = s.res[k]) ∧
    (∃ r : Vector Word 12, exec .getByteCount s = .next { s with res := r, status := 0#32 } ∧
      r[0].toNat + 2 ^ 32 * r[1].toNat = s.byteCount.toNat ∧ ∀ k : Fin 12, 2 ≤ k.val → r[k] = s.res[k])

/-! ### The TranslationCache -/

/-- R197, R192: TLB_LOOKUP, word 0x90. A hit returns the cached PTE, counts one hit in both counters, increments TLB.seq and stamps the entry with it;
a miss returns 0 and counts one miss; without a TLB it is InvalidOperation(0). Nothing else changes. -/
def Obligations.TlbLookupCommand : Prop :=
  decode 0x00000090#32 = .ok .tlbLookup ∧ ∀ s : State,
    (s.cfg.tlbPresent = false → exec .tlbLookup s = .next { s with status := 4#32, faultAddr := 0#32 }) ∧
    (s.cfg.tlbPresent = true →
      (∀ e, findEntry s.tlb.entries (readArg s 0 &&& 0xFFFFF000#32) = some e →
        ∃ es : List TlbEntry,
          exec .tlbLookup s = .next { s with
            tlb := { s.tlb with
              entries := es
              seq := s.tlb.seq + 1
              recentHits := s.tlb.recentHits + 1
              totalHits := s.tlb.totalHits + 1 }
            res := s.res.set 0 e.ptEntry
            status := 0#32 } ∧
          ∀ k, findEntry es k =
            if k = readArg s 0 &&& 0xFFFFF000#32 then some { e with lastRefSeq := s.tlb.seq + 1 }
            else findEntry s.tlb.entries k) ∧
      (findEntry s.tlb.entries (readArg s 0 &&& 0xFFFFF000#32) = none →
        exec .tlbLookup s = .next { s with
          tlb := { s.tlb with
            recentMisses := s.tlb.recentMisses + 1
            totalMisses := s.tlb.totalMisses + 1 }
          res := s.res.set 0 0#32
          status := 0#32 }))

/-- R198, R193, R194, R196: TLB_CACHE, word 0x91, files ARG1 under the page of ARG0 with a fresh stamp. The entries of other keys stay, but for the
victim when a new key meets a full cache: the entry with the smallest stamp, and of tied entries the one with the smaller key. Both maximum
sizes take in the new size. Without a TLB it is InvalidOperation(0). -/
def Obligations.TlbCacheCommand : Prop :=
  decode 0x00000091#32 = .ok .tlbCache ∧ ∀ s : State, s.inv = true →
    (s.cfg.tlbPresent = false → exec .tlbCache s = .next { s with status := 4#32, faultAddr := 0#32 }) ∧
    (s.cfg.tlbPresent = true →
      ∃ es : List TlbEntry,
        exec .tlbCache s = .next { s with
          tlb := { s.tlb with
            entries := es
            seq := s.tlb.seq + 1
            recentMaxSize := maxCount s.tlb.recentMaxSize (BitVec.ofNat 64 es.length)
            totalMaxSize := maxCount s.tlb.totalMaxSize (BitVec.ofNat 64 es.length) }
          status := 0#32 } ∧
        es.length ≤ s.cfg.tlbCapacity ∧
        findEntry es (readArg s 0 &&& 0xFFFFF000#32) =
          some ⟨readArg s 0 &&& 0xFFFFF000#32, s.tlb.seq + 1, readArg s 1⟩ ∧
        ((∃ e, findEntry s.tlb.entries (readArg s 0 &&& 0xFFFFF000#32) = some e) ∨
            s.tlb.entries.length < s.cfg.tlbCapacity →
          ∀ k, k ≠ readArg s 0 &&& 0xFFFFF000#32 → findEntry es k = findEntry s.tlb.entries k) ∧
        (findEntry s.tlb.entries (readArg s 0 &&& 0xFFFFF000#32) = none →
          s.tlb.entries.length = s.cfg.tlbCapacity →
          ∃ v ∈ s.tlb.entries,
            (∀ e ∈ s.tlb.entries, e ≠ v →
              v.lastRefSeq < e.lastRefSeq ∨ (v.lastRefSeq = e.lastRefSeq ∧ v.key < e.key)) ∧
            ∀ k, k ≠ readArg s 0 &&& 0xFFFFF000#32 →
              findEntry es k = if k = v.key then none else findEntry s.tlb.entries k))

/-- R199, R195: FLUSH_TLB, word 0x30, empties the entries and zeroes the recent statistics, and keeps TLB.seq and the totals; without a TLB it changes
nothing but STATUS. It never faults. -/
def Obligations.FlushTlbCommand : Prop :=
  decode 0x00000030#32 = .ok .flushTlb ∧ ∀ s : State,
    (s.cfg.tlbPresent = true → exec .flushTlb s = .next { s with
      tlb := { s.tlb with entries := [], recentHits := 0, recentMisses := 0, recentMaxSize := 0 }
      status := 0#32 }) ∧
    (s.cfg.tlbPresent = false → exec .flushTlb s = .next { s with status := 0#32 })

/-- R200, R124: GET_TLB_STATS, word 0x31, puts the six statistics in RES0 to RES11, each low word then high word; without a TLB it is
InvalidOperation(0). Reading them changes no state. -/
def Obligations.GetTlbStatsCommand : Prop :=
  decode 0x00000031#32 = .ok .getTlbStats ∧ ∀ s : State,
    (s.cfg.tlbPresent = false → exec .getTlbStats s = .next { s with status := 4#32, faultAddr := 0#32 }) ∧
    (s.cfg.tlbPresent = true →
      ∃ r : Vector Word 12, exec .getTlbStats s = .next { s with res := r, status := 0#32 } ∧
        r[1] ++ r[0] = s.tlb.recentHits ∧ r[3] ++ r[2] = s.tlb.totalHits ∧
        r[5] ++ r[4] = s.tlb.recentMisses ∧ r[7] ++ r[6] = s.tlb.totalMisses ∧
        r[9] ++ r[8] = s.tlb.recentMaxSize ∧ r[11] ++ r[10] = s.tlb.totalMaxSize)

/-- R201 law 1, R191: after TLB_CACHE of an address, TLB_LOOKUP of any address in the same page returns the PTE cached. -/
def Obligations.CacheThenLookup : Prop :=
  ∀ (s t u : State) (v : Word), s.cfg.tlbPresent = true →
    v &&& 0xFFFFF000#32 = readArg s 0 &&& 0xFFFFF000#32 → exec .tlbCache s = .next t →
    exec .tlbLookup { t with args := t.args.set 0 v } = .next u → u.status = 0#32 ∧ u.res[0] = readArg s 1

/-- R194: before TLB.seq wraps, stamps are distinct and none exceeds TLB.seq; a Lookup and a Cache keep that. So the victim is the one entry
with the smallest stamp. -/
def Obligations.LruStampsStayDistinct : Prop :=
  ∀ (cap : Nat) (va pte : Word) (t : Tlb),
    keysRising t.entries = true →
    (∀ e ∈ t.entries, e.lastRefSeq ≤ t.seq) →
    (∀ e ∈ t.entries, ∀ f ∈ t.entries, e.lastRefSeq = f.lastRefSeq → e = f) →
    t.seq ≠ BitVec.allOnes 64 →
    ∀ u, u = (tlbLookup va t).2 ∨ u = tlbInsert cap va pte t →
      (∀ e ∈ u.entries, e.lastRefSeq ≤ u.seq) ∧
      ∀ e ∈ u.entries, ∀ f ∈ u.entries, e.lastRefSeq = f.lastRefSeq → e = f

/-! ### The PMCB -/

/-- R231, R44, R38: the image functions are inverse to each other, bits [31:3] of W0 apart, and W0 holds vm_enable in bit 0 and
operation_state (None 0, Read 1, Write 2, reserved 3) in bits [2:1]. -/
def Obligations.PmcbImageRoundTrip : Prop :=
  (∀ p : Pmcb, Pmcb.decodeImage p.encodeImage = p ∧
    p.encodeImage.w0.getLsbD 0 = p.vmEnable ∧ p.encodeImage.w0.extractLsb' 3 29 = 0#29 ∧
    p.encodeImage.w0.extractLsb' 1 2 =
      (if p.operationState = .none then 0#2 else if p.operationState = .read then 1#2
        else if p.operationState = .write then 2#2 else 3#2) ∧
    p.encodeImage.w1 = p.pageTableBase ∧ p.encodeImage.w2 = p.nextVaddress ∧
    p.encodeImage.w3 = p.remainingCount ∧ p.encodeImage.w4 = p.userBuffer) ∧
  ∀ w : PmcbImage, (Pmcb.decodeImage w).encodeImage = { w with w0 := w.w0 &&& 7#32 }

/-- R232: GET_PMCB, word 0x10, puts the image of the active PMCB in RES0 to RES4 and changes nothing else but STATUS. -/
def Obligations.GetPmcbCommand : Prop :=
  decode 0x00000010#32 = .ok .getPmcb ∧ ∀ s : State,
  ∃ r : Vector Word 12, exec .getPmcb s = .next { s with res := r, status := 0#32 } ∧
    r[0] = s.pmcb.encodeImage.w0 ∧ r[1] = s.pmcb.pageTableBase ∧ r[2] = s.pmcb.nextVaddress ∧
    r[3] = s.pmcb.remainingCount ∧ r[4] = s.pmcb.userBuffer ∧ ∀ k : Fin 12, 5 ≤ k.val → r[k] = s.res[k]

/-- R233, R234: SET_PMCB with remaining_count = 0 stores the image as given, whatever its other fields, and transfers nothing: the TLB,
PhysicalMemory and HostMem are unchanged. -/
def Obligations.SetPmcbStoresWithoutTransfer : Prop :=
  ∀ s : State, readArg s 3 = 0#32 →
    exec .setPmcb s = .next { s with
      pmcb :=
        { vmEnable := (readArg s 0).getLsbD 0
          operationState := .ofBits ((readArg s 0).extractLsb' 1 2)
          pageTableBase := readArg s 1
          nextVaddress := readArg s 2
          remainingCount := 0#32
          userBuffer := readArg s 4 }
      status := 0#32 }

/-- R233, R291: SET_PMCB with bytes remaining and operation_state None is InvalidOperation(0) under NONE_PENDING_IS_ERROR and succeeds without
effect otherwise; with operation_state 3 it is InvalidOperation(0). The image is stored either way, and no byte moves. -/
def Obligations.SetPmcbWithoutTransferState : Prop :=
  ∀ s : State, readArg s 3 ≠ 0#32 →
    ∀ p : Pmcb, p =
        { vmEnable := (readArg s 0).getLsbD 0
          operationState := .ofBits ((readArg s 0).extractLsb' 1 2)
          pageTableBase := readArg s 1
          nextVaddress := readArg s 2
          remainingCount := readArg s 3
          userBuffer := readArg s 4 } →
      ((readArg s 0).extractLsb' 1 2 = 0#2 → s.cfg.nonePendingIsError = true →
        exec .setPmcb s = .next { s with pmcb := p, status := 4#32, faultAddr := 0#32 }) ∧
      ((readArg s 0).extractLsb' 1 2 = 0#2 → s.cfg.nonePendingIsError = false →
        exec .setPmcb s = .next { s with pmcb := p, status := 0#32 }) ∧
      ((readArg s 0).extractLsb' 1 2 = 3#2 →
        exec .setPmcb s = .next { s with pmcb := p, status := 4#32, faultAddr := 0#32 })

/-- R233, R343: SET_PMCB with bytes remaining and operation_state Read or Write continues the transfer it holds: it does what GET_BYTES or
PUT_BYTES does from the image's next_vaddress, remaining_count and user_buffer, under the image's vm_enable and page_table_base. (The two
commands find their operands in different ARG registers, so ARG is compared as SET_PMCB leaves it.) -/
def Obligations.SetPmcbResumesLikeATransfer : Prop :=
  ∀ s : State, readArg s 3 ≠ 0#32 →
    ∀ u : State, u = { s with
        pmcb := { s.pmcb with vmEnable := (readArg s 0).getLsbD 0, pageTableBase := readArg s 1 }
        args := #v[readArg s 2, readArg s 3, readArg s 4, readArg s 3, readArg s 4] } →
      ((readArg s 0).extractLsb' 1 2 = 1#2 →
        exec .setPmcb s = mapNext (fun t => { t with args := s.args }) (exec .getBytes u)) ∧
      ((readArg s 0).extractLsb' 1 2 = 2#2 →
        exec .setPmcb s = mapNext (fun t => { t with args := s.args }) (exec .putBytes u))

/-- R36, R45: vm_enable and page_table_base are written by SET_PMCB only, and the whole PMCB only by SET_PMCB and the transfer
commands. -/
def Obligations.OnlySetPmcbChangesTheMode : Prop :=
  ∀ (i : Instr) (s t : State), exec i s = .next t → i ≠ .setPmcb →
    t.pmcb.vmEnable = s.pmcb.vmEnable ∧ t.pmcb.pageTableBase = s.pmcb.pageTableBase ∧
    (isGet i = false → isPut i = false → t.pmcb = s.pmcb)

/-! ### Translation -/

/-- R251, R263: in physical mode ToPhysical returns the address unchanged, checks nothing and touches nothing; TO_PHYSICAL puts ARG0 in
RES0. -/
def Obligations.TranslateInPhysicalMode : Prop :=
  ∀ (s : State) (va : Word) (w : Bool), s.pmcb.vmEnable = false →
    toPhysical va w s = .ok va s ∧
    exec (.toPhysical w) s = .next { s with res := s.res.set 0 (readArg s 0), status := 0#32 }

/-- R252, R257, R259: a cached entry with P = 1, and for a write M = 1, is used without a walk, whatever the page-table base: the command
returns its frame joined with the page offset, or WritePermissionFault where a write finds W = 0. The TLB alone changes, by the
Lookup. -/
def Obligations.TranslateFromTlb : Prop :=
  ∀ (s : State) (w : Bool) (e : TlbEntry),
    s.pmcb.vmEnable = true → s.cfg.tlbPresent = true →
    findEntry s.tlb.entries (readArg s 0 &&& 0xFFFFF000#32) = some e →
    e.ptEntry.getLsbD 0 = true → (w = true → e.ptEntry.getLsbD 6 = true) →
    ((w = true → e.ptEntry.getLsbD 1 = true) →
      exec (.toPhysical w) s = .next { s with
        tlb := (tlbLookup (readArg s 0) s.tlb).2
        res := s.res.set 0 ((e.ptEntry &&& 0xFFFFF000#32) ||| (readArg s 0 &&& 0x00000FFF#32))
        status := 0#32 }) ∧
    (w = true → e.ptEntry.getLsbD 1 = false →
      exec (.toPhysical w) s = .next { s with
        tlb := (tlbLookup (readArg s 0) s.tlb).2
        status := 2#32
        faultAddr := readArg s 0 })

/-- R252 to R260, R263: a translation that walks (no usable cached entry), with an aligned base, both entries inside PhysicalMemory and
present, and for a write the L2 entry writable, completes. A, and M for a write, are added to the L2 entry, and to an L1 entry whose A was
clear; BYTE_COUNT counts each PTE read and write-back; the TLB takes the final L2 entry; every other byte of PhysicalMemory reads as
before. -/
def Obligations.TranslateByWalk : Prop :=
  ∀ (s : State) (w : Bool) (va : Word), va = readArg s 0 → s.inv = true → s.pmcb.vmEnable = true →
    usableEntry s va w = none → s.pmcb.pageTableBase.extractLsb' 0 12 = 0#12 →
    l1InBounds s va → (l1Word s va).getLsbD 0 = true →
    l2InBounds s va → (l2Word s va w).getLsbD 0 = true → (w = true → (l2Word s va w).getLsbD 1 = true) →
    exec (.toPhysical w) s = .next { s with
      pm := pmMarkedL2 s va w
      byteCount := s.byteCount + l1Bytes s va + l2Bytes s va w
      tlb := tlbAfterWalk s va w
      res := s.res.set 0 ((l2Word s va w &&& 0xFFFFF000#32) ||| (va &&& 0x00000FFF#32))
      status := 0#32 } ∧
    pmWord (pmMarkedL2 s va w) (l2Address s va) =
      l2Word s va w ||| 0x20#32 ||| (if w then 0x40#32 else 0#32) ∧
    (l1Address s va ≠ l2Address s va →
      pmWord (pmMarkedL2 s va w) (l1Address s va) =
        if (l1Word s va).getLsbD 5 then l1Word s va
        else l1Word s va ||| 0x20#32 ||| (if w then 0x40#32 else 0#32)) ∧
    ∀ a, (a < (l1Address s va).toNat ∨ (l1Address s va).toNat + 4 ≤ a) →
      (a < (l2Address s va).toNat ∨ (l2Address s va).toNat + 4 ≤ a) →
      (pmMarkedL2 s va w).read a = s.pm.read a

/-- R253 to R257, R340, R379: the faults of a walk and the state each leaves: the Lookup's effect on the TLB, the L1 write-back where the
fault came after it, and the bytes counted so far; no L2 write-back and no Cache. -/
def Obligations.WalkFaultEffects : Prop :=
  ∀ (s : State) (w : Bool) (va : Word), va = readArg s 0 → s.cfg.legal = true → s.pmcb.vmEnable = true →
    usableEntry s va w = none →
    (s.pmcb.pageTableBase.extractLsb' 0 12 ≠ 0#12 →
      exec (.toPhysical w) s =
        .next { s with tlb := tlbAfterLookup s va, status := 4#32, faultAddr := 0#32 }) ∧
    (s.pmcb.pageTableBase.extractLsb' 0 12 = 0#12 →
      (¬ l1InBounds s va →
        exec (.toPhysical w) s =
          .next { s with tlb := tlbAfterLookup s va, status := 3#32, faultAddr := l1Address s va }) ∧
      (l1InBounds s va →
        ((l1Word s va).getLsbD 0 = false →
          exec (.toPhysical w) s = .next { s with
            tlb := tlbAfterLookup s va
            byteCount := s.byteCount + 4
            status := 1#32
            faultAddr := va }) ∧
        ((l1Word s va).getLsbD 0 = true →
          (¬ l2InBounds s va →
            exec (.toPhysical w) s = .next { s with
              tlb := tlbAfterLookup s va
              pm := pmMarkedL1 s va w
              byteCount := s.byteCount + l1Bytes s va
              status := 3#32
              faultAddr := l2Address s va }) ∧
          (l2InBounds s va →
            ((l2Word s va w).getLsbD 0 = false →
              exec (.toPhysical w) s = .next { s with
                tlb := tlbAfterLookup s va
                pm := pmMarkedL1 s va w
                byteCount := s.byteCount + l1Bytes s va + 4
                status := 1#32
                faultAddr := va }) ∧
            ((l2Word s va w).getLsbD 0 = true → w = true → (l2Word s va w).getLsbD 1 = false →
              exec (.toPhysical w) s = .next { s with
                tlb := tlbAfterLookup s va
                pm := pmMarkedL1 s va w
                byteCount := s.byteCount + l1Bytes s va + 4
                status := 2#32
                faultAddr := va })))))

/-- R337, R330: the fault TO_PHYSICAL reports is the first that fails, in the order of R337: none in physical mode; on the cache path
WritePermissionFault only; on the walk path misaligned base, a1 out of bounds, L1 not present, a2 out of bounds, L2 not present, L2 not
writable. -/
def Obligations.TranslationFaultPriority : Prop :=
  ∀ (s : State) (w : Bool) (va : Word), va = readArg s 0 → s.cfg.legal = true →
    ∃ t, exec (.toPhysical w) s = .next t ∧
      (s.pmcb.vmEnable = false → t.status = 0#32) ∧
      (s.pmcb.vmEnable = true →
        (∀ e, usableEntry s va w = some e →
          (w = true ∧ e.ptEntry.getLsbD 1 = false → t.status = 2#32 ∧ t.faultAddr = va) ∧
          (¬ (w = true ∧ e.ptEntry.getLsbD 1 = false) → t.status = 0#32)) ∧
        (usableEntry s va w = none →
          if s.pmcb.pageTableBase.extractLsb' 0 12 ≠ 0#12 then t.status = 4#32 ∧ t.faultAddr = 0#32
          else if s.cfg.size < (l1Address s va).toNat + 4 then t.status = 3#32 ∧ t.faultAddr = l1Address s va
          else if (l1Word s va).getLsbD 0 = false then t.status = 1#32 ∧ t.faultAddr = va
          else if s.cfg.size < (l2Address s va).toNat + 4 then t.status = 3#32 ∧ t.faultAddr = l2Address s va
          else if (l2Word s va w).getLsbD 0 = false then t.status = 1#32 ∧ t.faultAddr = va
          else if w = true ∧ (l2Word s va w).getLsbD 1 = false then t.status = 2#32 ∧ t.faultAddr = va
          else t.status = 0#32))

/-- R264: fault discrimination where no TLB entry of the page is stale: PageFault iff P = 0 in the L1 or the L2 entry, and otherwise
WritePermissionFault iff the translation is for a write and W = 0 in the L2 entry. -/
def Obligations.FaultDiscrimination : Prop :=
  ∀ (s : State) (w : Bool) (va : Word), va = readArg s 0 → s.inv = true → s.pmcb.vmEnable = true →
    s.pmcb.pageTableBase.extractLsb' 0 12 = 0#12 →
    (∀ e, tlbEntryOf s va = some e → ¬ staleEntry s va w e) →
    l1InBounds s va → ((l1Word s va).getLsbD 0 = true → l2InBounds s va) →
    ∃ t, exec (.toPhysical w) s = .next t ∧
      (t.status = 1#32 ↔ (l1Word s va).getLsbD 0 = false ∨ (pmWord s.pm (l2Address s va)).getLsbD 0 = false) ∧
      (t.status = 2#32 ↔ (l1Word s va).getLsbD 0 = true ∧ (pmWord s.pm (l2Address s va)).getLsbD 0 = true ∧
        w = true ∧ (pmWord s.pm (l2Address s va)).getLsbD 1 = false)

/-- R262: a translation, whether it ends in an address or in a fault, changes nothing but PhysicalMemory, BYTE_COUNT and the TLB; and of
PhysicalMemory only bytes of the L1 and the L2 entry of the address. -/
def Obligations.TranslationTouchesOnlyTablesAndTlb : Prop :=
  ∀ (s t : State) (va pa : Word) (w : Bool) (f : MmuFault), s.inv = true →
    (toPhysical va w s = .ok pa t ∨ toPhysical va w s = .raised f t) →
    t = { s with pm := t.pm, byteCount := t.byteCount, tlb := t.tlb } ∧
    ∀ a, (a < (l1Address s va).toNat ∨ (l1Address s va).toNat + 4 ≤ a) →
      (a < (l2Address s va).toNat ∨ (l2Address s va).toNat + 4 ≤ a) → t.pm.read a = s.pm.read a

/-- R88, R255, R258, R261: a TO_PHYSICAL changes a byte of PhysicalMemory only by adding A (bit 5), and for a write A and M (bits 5 and 6),
so reserved bits and every other field of a PTE keep their values. -/
def Obligations.TranslationOnlyAddsAccessedAndModified : Prop :=
  ∀ (s t : State) (w : Bool), s.inv = true → exec (.toPhysical w) s = .next t →
    ∀ a, t.pm.read a = s.pm.read a ∨ t.pm.read a = s.pm.read a ||| (if w then 0x60#8 else 0x20#8)

/-! ### Transfers -/

/-- R293: a chunk is min(remaining_count, 4096 - offset) bytes: at least 1, at most 4096, never past the end of its page, and short of the
page's end only when it is the last. -/
def Obligations.ChunkStaysInPage : Prop :=
  ∀ rem va : Word,
    (chunkSize rem va).toNat = min rem.toNat (4096 - va.toNat % 4096) ∧
    (rem ≠ 0#32 → 1 ≤ (chunkSize rem va).toNat ∧ (chunkSize rem va).toNat ≤ 4096 ∧
      va.toNat % 4096 + (chunkSize rem va).toNat ≤ 4096 ∧
      (chunkSize rem va = rem ∨ (va.toNat + (chunkSize rem va).toNat) % 4096 = 0))

/-- R297, R299, R301: GET_BYTES and PUT_BYTES of 0 bytes move nothing, translate nothing, succeed, and leave operation_state None. -/
def Obligations.ZeroLengthTransfersComplete : Prop :=
  ∀ (s : State) (i : Instr), i = .getBytes ∨ i = .putBytes → readArg s 1 = 0#32 →
    exec i s = .next { s with
      pmcb := { s.pmcb with
        operationState := .none
        nextVaddress := readArg s 0
        remainingCount := 0#32
        userBuffer := readArg s 2 }
      status := 0#32 }

/-- R298, R291: Execute is its `while` loop, with no bound on the iterations: with operation_state Read or Write and bytes remaining it
is one chunk and then Execute again; with none remaining it sets None. -/
def Obligations.ExecuteIsItsLoop : Prop :=
  ∀ s : State, s.pmcb.operationState = .read ∨ s.pmcb.operationState = .write →
    (s.pmcb.remainingCount = 0#32 →
      execute s = .ok () { s with pmcb := { s.pmcb with operationState := .none } }) ∧
    (s.pmcb.remainingCount ≠ 0#32 →
      execute s = (transferChunk (decide (s.pmcb.operationState = .write)) s).andThen fun _ t => execute t)

/-- R304: a transfer command does the same whatever transfer fields the PMCB held. -/
def Obligations.TransferOverwritesCheckpoint : Prop :=
  ∀ (i : Instr) (s : State) (op : OperationState) (va n buf : Word), isGet i = true ∨ isPut i = true →
    exec i { s with pmcb := { s.pmcb with
      operationState := op
      nextVaddress := va
      remainingCount := n
      userBuffer := buf } } = exec i s

/-- R292 to R300: GET_BYTE, and GET_BYTES within one page, in either mode: when the translation of ARG0 succeeds with address `pa`, leaving
`u`, and the ranges lie inside PhysicalMemory and HostMem, the command completes. It copies PM[pa ..] to HostMem[ARG2 ..] and counts the
bytes; the cursor moves past them and operation_state is None; the rest is as the translation left it. -/
def Obligations.GetWithinOnePage : Prop :=
  ∀ (i : Instr) (s u : State) (pa n : Word), isGet i = true → s.inv = true → n = transferCount i s →
    1 ≤ n.toNat → (readArg s 0).toNat % 4096 + n.toNat ≤ 4096 →
    toPhysical (readArg s 0) false (loadedState i s) = .ok pa u →
    pa.toNat + n.toNat ≤ s.cfg.size → (readArg s 2).toNat + n.toNat ≤ s.cfg.hostMemSize →
    ∃ m : Memory,
      exec i s = .next { u with
        hostMem := m
        byteCount := u.byteCount + n.setWidth 64
        pmcb := { s.pmcb with
          operationState := .none
          nextVaddress := readArg s 0 + n
          remainingCount := 0#32
          userBuffer := readArg s 2 + n }
        status := 0#32 } ∧
      ∀ a, m.read a =
        if (readArg s 2).toNat ≤ a ∧ a < (readArg s 2).toNat + n.toNat then
          u.pm.read (pa.toNat + (a - (readArg s 2).toNat))
        else s.hostMem.read a

/-- R292 to R302: PUT_BYTE, and PUT_BYTES within one page, likewise: the store goes to the address `pa` that ToPhysical gives for a write of
ARG0, and every other byte of PhysicalMemory is as the translation left it. -/
def Obligations.PutWithinOnePage : Prop :=
  ∀ (i : Instr) (s u : State) (pa n : Word), isPut i = true → s.inv = true → n = transferCount i s →
    1 ≤ n.toNat → (readArg s 0).toNat % 4096 + n.toNat ≤ 4096 →
    toPhysical (readArg s 0) true (loadedState i s) = .ok pa u →
    pa.toNat + n.toNat ≤ s.cfg.size → (readArg s 2).toNat + n.toNat ≤ s.cfg.hostMemSize →
    ∃ m : Memory,
      exec i s = .next { u with
        pm := m
        byteCount := u.byteCount + n.setWidth 64
        pmcb := { s.pmcb with
          operationState := .none
          nextVaddress := readArg s 0 + n
          remainingCount := 0#32
          userBuffer := readArg s 2 + n }
        status := 0#32 } ∧
      ∀ a, m.read a =
        if pa.toNat ≤ a ∧ a < pa.toNat + n.toNat then s.hostMem.read ((readArg s 2).toNat + (a - pa.toNat))
        else u.pm.read a

/-- R292, R296, R338: when the first chunk of a transfer faults, in its translation or because its data passes SIZE, no byte moves and the
PMCB holds the transfer as it was loaded. -/
def Obligations.FirstChunkFaultLeavesLoadedCheckpoint : Prop :=
  ∀ (i : Instr) (s u : State), isGet i = true ∨ isPut i = true → s.cfg.legal = true → transferCount i s ≠ 0#32 →
    (∀ f, toPhysical (readArg s 0) (isPut i) (loadedState i s) = .raised f u →
      exec i s = .next { u with status := f.code, faultAddr := f.info } ∧
      u.pmcb = (loadedState i s).pmcb ∧ u.hostMem = s.hostMem) ∧
    (∀ pa, toPhysical (readArg s 0) (isPut i) (loadedState i s) = .ok pa u →
      (readArg s 2).toNat + (chunkSize (transferCount i s) (readArg s 0)).toNat ≤ s.cfg.hostMemSize →
      s.cfg.size < pa.toNat + (chunkSize (transferCount i s) (readArg s 0)).toNat →
      exec i s = .next { u with status := 3#32, faultAddr := pa } ∧
      u.pmcb = (loadedState i s).pmcb ∧ u.hostMem = s.hostMem)

/-- R294, R63: a chunk that passes HOST_MEM_SIZE is refused, the first or a later one: where the first `m` bytes of a transfer move (0, or
up to a page boundary) and the next chunk translates but its host range passes HOST_MEM_SIZE, Execute is refused. A refused Execute refuses
the command that runs it: a transfer command, or a SET_PMCB with bytes remaining. -/
def Obligations.HostBufferRangeRefused : Prop :=
  (∀ (s t u v : State) (m pa : Word), s.pmcb.operationState = .read ∨ s.pmcb.operationState = .write →
    m.toNat < s.pmcb.remainingCount.toNat → (m = 0#32 ∨ (s.pmcb.nextVaddress + m).toNat % 4096 = 0) →
    execute { s with pmcb := { s.pmcb with remainingCount := m } } = .ok () t →
    u = { t with pmcb := { t.pmcb with
      operationState := s.pmcb.operationState
      remainingCount := s.pmcb.remainingCount - m } } →
    toPhysical u.pmcb.nextVaddress (decide (s.pmcb.operationState = .write)) u = .ok pa v →
    s.cfg.hostMemSize < u.pmcb.userBuffer.toNat + (chunkSize u.pmcb.remainingCount u.pmcb.nextVaddress).toNat →
    execute s = .refuse .hostBufferRange) ∧
  (∀ (i : Instr) (s : State), isGet i = true ∨ isPut i = true →
    execute (loadedState i s) = .refuse .hostBufferRange → exec i s = .refused .hostBufferRange) ∧
  ∀ s : State, readArg s 3 ≠ 0#32 → execute (restorePmcb (readImage s) s) = .refuse .hostBufferRange →
    exec .setPmcb s = .refused .hostBufferRange

/-- R295, R297: a transfer command that succeeds leaves operation_state None, remaining_count 0, and next_vaddress and user_buffer past the
last byte, modulo 2^32. -/
def Obligations.TransferCompletionCursor : Prop :=
  ∀ (i : Instr) (s t : State), isGet i = true ∨ isPut i = true → exec i s = .next t → t.status = 0#32 →
    t.pmcb = { s.pmcb with
      operationState := .none
      nextVaddress := readArg s 0 + transferCount i s
      remainingCount := 0#32
      userBuffer := readArg s 2 + transferCount i s }

/-- R296, R330: a transfer command that faults leaves a checkpoint: for some number `m` of bytes moved, short of the count and ending at a page
boundary, the cursor is `m` bytes on and operation_state is still Read or Write. A PageFault or WritePermissionFault reports the checkpoint's
next_vaddress. -/
def Obligations.TransferFaultCheckpoint : Prop :=
  ∀ (i : Instr) (s t : State), isGet i = true ∨ isPut i = true → exec i s = .next t → t.status ≠ 0#32 →
    ∃ m : Word, m.toNat < (transferCount i s).toNat ∧ (m = 0#32 ∨ (readArg s 0 + m).toNat % 4096 = 0) ∧
      t.pmcb = { s.pmcb with
        operationState := if isPut i then .write else .read
        nextVaddress := readArg s 0 + m
        remainingCount := transferCount i s - m
        userBuffer := readArg s 2 + m } ∧
      (t.status = 1#32 ∨ t.status = 2#32 → t.faultAddr = readArg s 0 + m)

/-- R251, R299, R300: a get in physical mode whose ranges lie inside PhysicalMemory and HostMem completes, over any number of pages: HostMem
takes the bytes, BYTE_COUNT grows by their number, the cursor ends past them, and nothing else changes. -/
def Obligations.GetInPhysicalMode : Prop :=
  ∀ (i : Instr) (s : State) (n : Word), isGet i = true → s.inv = true → s.pmcb.vmEnable = false →
    n = transferCount i s → (readArg s 0).toNat + n.toNat ≤ s.cfg.size →
    (readArg s 2).toNat + n.toNat ≤ s.cfg.hostMemSize → (readArg s 2).toNat + n.toNat ≤ 2 ^ 32 →
    ∃ m : Memory,
      exec i s = .next { s with
        hostMem := m
        byteCount := s.byteCount + n.setWidth 64
        pmcb := { s.pmcb with
          operationState := .none
          nextVaddress := readArg s 0 + n
          remainingCount := 0#32
          userBuffer := readArg s 2 + n }
        status := 0#32 } ∧
      ∀ a, m.read a =
        if (readArg s 2).toNat ≤ a ∧ a < (readArg s 2).toNat + n.toNat then
          s.pm.read ((readArg s 0).toNat + (a - (readArg s 2).toNat))
        else s.hostMem.read a

/-- R251, R301, R302: a put in physical mode, likewise: PM[ARG0 ..] takes the bytes. -/
def Obligations.PutInPhysicalMode : Prop :=
  ∀ (i : Instr) (s : State) (n : Word), isPut i = true → s.inv = true → s.pmcb.vmEnable = false →
    n = transferCount i s → (readArg s 0).toNat + n.toNat ≤ s.cfg.size →
    (readArg s 2).toNat + n.toNat ≤ s.cfg.hostMemSize → (readArg s 2).toNat + n.toNat ≤ 2 ^ 32 →
    ∃ m : Memory,
      exec i s = .next { s with
        pm := m
        byteCount := s.byteCount + n.setWidth 64
        pmcb := { s.pmcb with
          operationState := .none
          nextVaddress := readArg s 0 + n
          remainingCount := 0#32
          userBuffer := readArg s 2 + n }
        status := 0#32 } ∧
      ∀ a, m.read a =
        if (readArg s 0).toNat ≤ a ∧ a < (readArg s 0).toNat + n.toNat then
          s.hostMem.read ((readArg s 2).toNat + (a - (readArg s 0).toNat))
        else s.pm.read a

/-- R299, W8: a get, completed or faulted, changes a byte of PhysicalMemory only by adding A (bit 5): it never sets M. -/
def Obligations.ReadsNeverSetModified : Prop :=
  ∀ (i : Instr) (s t : State), isGet i = true → s.inv = true → exec i s = .next t →
    ∀ a, t.pm.read a = s.pm.read a ∨ t.pm.read a = s.pm.read a ||| 0x20#8

/-- R295, R297, R303: a transfer cut at a page boundary and continued from there does exactly what the whole transfer does, in every field of
the state: execute the first `m` bytes, put the rest of the transfer back into the PMCB, and execute again. -/
def Obligations.SplitTransferEqualsWhole : Prop :=
  ∀ (s t : State) (m : Word), s.pmcb.operationState = .read ∨ s.pmcb.operationState = .write →
    m.toNat ≤ s.pmcb.remainingCount.toNat →
    (m = s.pmcb.remainingCount ∨ (s.pmcb.nextVaddress + m).toNat % 4096 = 0) →
    execute { s with pmcb := { s.pmcb with remainingCount := m } } = .ok () t →
    execute s = execute { t with pmcb := { t.pmcb with
      operationState := s.pmcb.operationState
      remainingCount := s.pmcb.remainingCount - m } }

/-- R296, R303, R340: what a transfer that faults has moved is a whole transfer of its first `m` bytes: that shorter transfer completes, the
cursor of the checkpoint is where it ends, HostMem is the same, and PhysicalMemory differs from it only by the A and M bits the
faulting translation added. -/
def Obligations.FaultedTransferIsACompletedPrefix : Prop :=
  ∀ (s u : State) (f : MmuFault), s.inv = true →
    s.pmcb.operationState = .read ∨ s.pmcb.operationState = .write → execute s = .raised f u →
    ∃ (m : Word) (t : State), m.toNat < s.pmcb.remainingCount.toNat ∧
      execute { s with pmcb := { s.pmcb with remainingCount := m } } = .ok () t ∧
      u.pmcb = { s.pmcb with
        nextVaddress := t.pmcb.nextVaddress
        userBuffer := t.pmcb.userBuffer
        remainingCount := s.pmcb.remainingCount - m } ∧
      u.hostMem = t.hostMem ∧
      ∀ a, u.pm.read a = t.pm.read a ∨ u.pm.read a = t.pm.read a ||| 0x20#8 ∨ u.pm.read a = t.pm.read a ||| 0x60#8

/-- R299, R300, R62: a get, completed or faulted, writes HostMem only inside its buffer, HostMem[ARG2 .. ARG2 + count). -/
def Obligations.GetFillsOnlyItsBuffer : Prop :=
  ∀ (i : Instr) (s t : State), isGet i = true → s.inv = true →
    (readArg s 2).toNat + (transferCount i s).toNat ≤ 2 ^ 32 → exec i s = .next t →
    ∀ a, (a < (readArg s 2).toNat ∨ (readArg s 2).toNat + (transferCount i s).toNat ≤ a) →
      t.hostMem.read a = s.hostMem.read a

/-! ### Rules over all commands -/

/-- R47: BYTE_COUNT has no effect on any other behaviour: with another value in it, every command but GET_BYTE_COUNT ends the same way and
leaves the same state, BYTE_COUNT apart, and BYTE_COUNT grows by the same amount. -/
def Obligations.ByteCountIsAuditOnly : Prop :=
  ∀ (i : Instr) (s : State) (d : Count), i ≠ .getByteCount →
    exec i { s with byteCount := s.byteCount + d } =
      mapNext (fun t => { t with byteCount := t.byteCount + d }) (exec i s)

/-- R54, R123: a command reads only the ARG registers its row names: with any other contents in the rest, every command ends the same way
and leaves the same state, ARG apart. -/
def Obligations.CommandsReadOnlyTheirArgs : Prop :=
  ∀ (i : Instr) (s : State) (v : Vector Word 5), (∀ k ∈ argsRead i, v[k] = s.args[k]) →
    exec i { s with args := v } = mapNext (fun t => { t with args := v }) (exec i s)

/-- R54 to R57: a command leaves the configuration, CMD, ARG and the host's actions as they are; it sets STATUS to 0 and keeps FAULT_ADDR, or
sets STATUS to a fault code 1 to 4 and writes no RES register. -/
def Obligations.StatusAndResultDiscipline : Prop :=
  ∀ (i : Instr) (s t : State), exec i s = .next t →
    t.cfg = s.cfg ∧ t.cmd = s.cmd ∧ t.args = s.args ∧ t.pending = s.pending ∧
    ((t.status = 0#32 ∧ t.faultAddr = s.faultAddr) ∨ (1 ≤ t.status.toNat ∧ t.status.toNat ≤ 4 ∧ t.res = s.res))

/-- R124: the RES registers a command does not name are left unchanged. -/
def Obligations.ResultRegistersPerCommand : Prop :=
  ∀ (i : Instr) (s t : State), exec i s = .next t →
    ((i = .getPmcb → ∀ k : Fin 12, 5 ≤ k.val → t.res[k] = s.res[k]) ∧
    (i = .getByteCount → ∀ k : Fin 12, 2 ≤ k.val → t.res[k] = s.res[k]) ∧
    ((∃ w, i = .toPhysical w) ∨ i ∈ [.getFrameCount, .pmGet32, .tlbLookup] →
      ∀ k : Fin 12, 1 ≤ k.val → t.res[k] = s.res[k]) ∧
    (i ∈ [.getByte, .getBytes, .putByte, .putBytes, .setPmcb, .flushTlb, .pmGetBytes, .pmPutBytes, .tlbCache] →
      t.res = s.res))

/-- R331 to R335: the STATUS codes each command can end with. -/
def Obligations.FaultCodesPerCommand : Prop :=
  ∀ (i : Instr) (s t : State), exec i s = .next t →
    (t.status = 1#32 → (i ∈ [.getByte, .getBytes, .putByte, .putBytes, .setPmcb] ∨ ∃ w, i = .toPhysical w) ∧
      (i ≠ .setPmcb → s.pmcb.vmEnable = true)) ∧
    (t.status = 2#32 → i ∈ [.putByte, .putBytes, .setPmcb, .toPhysical true]) ∧
    (t.status = 3#32 → i ∈ [.getByte, .getBytes, .putByte, .putBytes, .setPmcb, .pmGetBytes, .pmPutBytes, .pmGet32] ∨
      ∃ w, i = .toPhysical w) ∧
    (t.status = 4#32 → (i ∈ [.getByte, .getBytes, .putByte, .putBytes, .setPmcb, .getTlbStats, .tlbLookup, .tlbCache] ∨
      ∃ w, i = .toPhysical w) ∧ t.faultAddr = 0#32)

/-- R58: a command completes, faults with a next state, or is refused; it never stops the block. The only refusal of a decoded command is the
host buffer range (R63), and only a command that reads or writes HostMem meets it. -/
def Obligations.NoCommandStopsTheBlock : Prop :=
  (∀ (i : Instr) (s : State), (∃ t, exec i s = .next t) ∨
    (exec i s = .refused .hostBufferRange ∧
      i ∈ [.getByte, .getBytes, .putByte, .putBytes, .setPmcb, .pmGetBytes, .pmPutBytes])) ∧
  ∀ (s : State) (f : Fault), step s ≠ .fault f

/-- R251, R378, R52: while vm_enable is 0 no command but the TLB's own touches the TLB, whatever it writes to PhysicalMemory; a SET_PMCB
that sets vm_enable to 0 neither. -/
def Obligations.TlbUntouchedInPhysicalMode : Prop :=
  ∀ (i : Instr) (s t : State), exec i s = .next t → i ∉ [.flushTlb, .tlbLookup, .tlbCache] →
    (if i = .setPmcb then (readArg s 0).getLsbD 0 = false else s.pmcb.vmEnable = false) → t.tlb = s.tlb

/-- R62, R101, R166, R170, R171, R190, R232, R233: PhysicalMemory and BYTE_COUNT are unchanged by GET_PMCB, the TLB commands, the queries, and
a SET_PMCB that has no Read or Write transfer to resume; PhysicalMemory by PM_GET_BYTES and PM_GET_32 too. HostMem is written only by a
get, by PM_GET_BYTES, and by a SET_PMCB that resumes a Read. -/
def Obligations.MemoriesChangeOnlyByTheirCommands : Prop :=
  ∀ (i : Instr) (s t : State), exec i s = .next t →
    (i ∈ [.getPmcb, .flushTlb, .getTlbStats, .getFrameCount, .getByteCount, .tlbLookup, .tlbCache] →
      t.pm = s.pm ∧ t.byteCount = s.byteCount) ∧
    (i = .setPmcb → readArg s 3 = 0#32 ∨ (readArg s 0).extractLsb' 1 2 ∉ [1#2, 2#2] →
      t.pm = s.pm ∧ t.byteCount = s.byteCount) ∧
    (i ∈ [.pmGetBytes, .pmGet32] → t.pm = s.pm) ∧
    (i ∉ [.getByte, .getBytes, .pmGetBytes, .setPmcb] ∨
        (i = .setPmcb ∧ (readArg s 3 = 0#32 ∨ (readArg s 0).extractLsb' 1 2 ≠ 1#2)) →
      t.hostMem = s.hostMem)
end

