-- ==== Sys2Proof/Laws/State.lean ====
section
/-! SUPPORT. The named updates of the state, field by field: one lemma for each field of each update, true by `rfl`, so that no proof
unfolds a record update. -/

namespace Sys2Proof.Machine

/-! ### takeFault -/

@[simp] theorem takeFault_cfg (f : MmuFault) (s : State) : (takeFault f s).cfg = s.cfg := rfl
@[simp] theorem takeFault_pmcb (f : MmuFault) (s : State) : (takeFault f s).pmcb = s.pmcb := rfl
@[simp] theorem takeFault_pm (f : MmuFault) (s : State) : (takeFault f s).pm = s.pm := rfl
@[simp] theorem takeFault_byteCount (f : MmuFault) (s : State) : (takeFault f s).byteCount = s.byteCount := rfl
@[simp] theorem takeFault_tlb (f : MmuFault) (s : State) : (takeFault f s).tlb = s.tlb := rfl
@[simp] theorem takeFault_cmd (f : MmuFault) (s : State) : (takeFault f s).cmd = s.cmd := rfl
@[simp] theorem takeFault_args (f : MmuFault) (s : State) : (takeFault f s).args = s.args := rfl
@[simp] theorem takeFault_res (f : MmuFault) (s : State) : (takeFault f s).res = s.res := rfl
@[simp] theorem takeFault_status (f : MmuFault) (s : State) : (takeFault f s).status = f.code := rfl
@[simp] theorem takeFault_faultAddr (f : MmuFault) (s : State) : (takeFault f s).faultAddr = f.info := rfl
@[simp] theorem takeFault_hostMem (f : MmuFault) (s : State) : (takeFault f s).hostMem = s.hostMem := rfl
@[simp] theorem takeFault_pending (f : MmuFault) (s : State) : (takeFault f s).pending = s.pending := rfl

/-! ### succeed -/

@[simp] theorem succeed_cfg (s : State) : (succeed s).cfg = s.cfg := rfl
@[simp] theorem succeed_pmcb (s : State) : (succeed s).pmcb = s.pmcb := rfl
@[simp] theorem succeed_pm (s : State) : (succeed s).pm = s.pm := rfl
@[simp] theorem succeed_byteCount (s : State) : (succeed s).byteCount = s.byteCount := rfl
@[simp] theorem succeed_tlb (s : State) : (succeed s).tlb = s.tlb := rfl
@[simp] theorem succeed_cmd (s : State) : (succeed s).cmd = s.cmd := rfl
@[simp] theorem succeed_args (s : State) : (succeed s).args = s.args := rfl
@[simp] theorem succeed_res (s : State) : (succeed s).res = s.res := rfl
@[simp] theorem succeed_status (s : State) : (succeed s).status = statusOk := rfl
@[simp] theorem succeed_faultAddr (s : State) : (succeed s).faultAddr = s.faultAddr := rfl
@[simp] theorem succeed_hostMem (s : State) : (succeed s).hostMem = s.hostMem := rfl
@[simp] theorem succeed_pending (s : State) : (succeed s).pending = s.pending := rfl

/-! ### restorePmcb -/

@[simp] theorem restorePmcb_cfg (w : PmcbImage) (s : State) : (restorePmcb w s).cfg = s.cfg := rfl
@[simp] theorem restorePmcb_pmcb (w : PmcbImage) (s : State) : (restorePmcb w s).pmcb = Pmcb.decodeImage w := rfl
@[simp] theorem restorePmcb_pm (w : PmcbImage) (s : State) : (restorePmcb w s).pm = s.pm := rfl
@[simp] theorem restorePmcb_byteCount (w : PmcbImage) (s : State) : (restorePmcb w s).byteCount = s.byteCount := rfl
@[simp] theorem restorePmcb_tlb (w : PmcbImage) (s : State) : (restorePmcb w s).tlb = s.tlb := rfl
@[simp] theorem restorePmcb_cmd (w : PmcbImage) (s : State) : (restorePmcb w s).cmd = s.cmd := rfl
@[simp] theorem restorePmcb_args (w : PmcbImage) (s : State) : (restorePmcb w s).args = s.args := rfl
@[simp] theorem restorePmcb_res (w : PmcbImage) (s : State) : (restorePmcb w s).res = s.res := rfl
@[simp] theorem restorePmcb_status (w : PmcbImage) (s : State) : (restorePmcb w s).status = s.status := rfl
@[simp] theorem restorePmcb_faultAddr (w : PmcbImage) (s : State) : (restorePmcb w s).faultAddr = s.faultAddr := rfl
@[simp] theorem restorePmcb_hostMem (w : PmcbImage) (s : State) : (restorePmcb w s).hostMem = s.hostMem := rfl
@[simp] theorem restorePmcb_pending (w : PmcbImage) (s : State) : (restorePmcb w s).pending = s.pending := rfl

/-! ### countBytes -/

@[simp] theorem countBytes_cfg (n : Word) (s : State) : (countBytes n s).cfg = s.cfg := rfl
@[simp] theorem countBytes_pmcb (n : Word) (s : State) : (countBytes n s).pmcb = s.pmcb := rfl
@[simp] theorem countBytes_pm (n : Word) (s : State) : (countBytes n s).pm = s.pm := rfl
@[simp] theorem countBytes_byteCount (n : Word) (s : State) : (countBytes n s).byteCount = s.byteCount + n.setWidth 64 := rfl
@[simp] theorem countBytes_tlb (n : Word) (s : State) : (countBytes n s).tlb = s.tlb := rfl
@[simp] theorem countBytes_cmd (n : Word) (s : State) : (countBytes n s).cmd = s.cmd := rfl
@[simp] theorem countBytes_args (n : Word) (s : State) : (countBytes n s).args = s.args := rfl
@[simp] theorem countBytes_res (n : Word) (s : State) : (countBytes n s).res = s.res := rfl
@[simp] theorem countBytes_status (n : Word) (s : State) : (countBytes n s).status = s.status := rfl
@[simp] theorem countBytes_faultAddr (n : Word) (s : State) : (countBytes n s).faultAddr = s.faultAddr := rfl
@[simp] theorem countBytes_hostMem (n : Word) (s : State) : (countBytes n s).hostMem = s.hostMem := rfl
@[simp] theorem countBytes_pending (n : Word) (s : State) : (countBytes n s).pending = s.pending := rfl

/-! ### writeArg -/

@[simp] theorem writeArg_cfg (n : Fin 5) (v : Word) (s : State) : (writeArg n v s).cfg = s.cfg := rfl
@[simp] theorem writeArg_pmcb (n : Fin 5) (v : Word) (s : State) : (writeArg n v s).pmcb = s.pmcb := rfl
@[simp] theorem writeArg_pm (n : Fin 5) (v : Word) (s : State) : (writeArg n v s).pm = s.pm := rfl
@[simp] theorem writeArg_byteCount (n : Fin 5) (v : Word) (s : State) : (writeArg n v s).byteCount = s.byteCount := rfl
@[simp] theorem writeArg_tlb (n : Fin 5) (v : Word) (s : State) : (writeArg n v s).tlb = s.tlb := rfl
@[simp] theorem writeArg_cmd (n : Fin 5) (v : Word) (s : State) : (writeArg n v s).cmd = s.cmd := rfl
@[simp] theorem writeArg_args (n : Fin 5) (v : Word) (s : State) : (writeArg n v s).args = s.args.set n v := rfl
@[simp] theorem writeArg_res (n : Fin 5) (v : Word) (s : State) : (writeArg n v s).res = s.res := rfl
@[simp] theorem writeArg_status (n : Fin 5) (v : Word) (s : State) : (writeArg n v s).status = s.status := rfl
@[simp] theorem writeArg_faultAddr (n : Fin 5) (v : Word) (s : State) : (writeArg n v s).faultAddr = s.faultAddr := rfl
@[simp] theorem writeArg_hostMem (n : Fin 5) (v : Word) (s : State) : (writeArg n v s).hostMem = s.hostMem := rfl
@[simp] theorem writeArg_pending (n : Fin 5) (v : Word) (s : State) : (writeArg n v s).pending = s.pending := rfl

/-! ### writeCmd -/

@[simp] theorem writeCmd_cfg (w : Word) (s : State) : (writeCmd w s).cfg = s.cfg := rfl
@[simp] theorem writeCmd_pmcb (w : Word) (s : State) : (writeCmd w s).pmcb = s.pmcb := rfl
@[simp] theorem writeCmd_pm (w : Word) (s : State) : (writeCmd w s).pm = s.pm := rfl
@[simp] theorem writeCmd_byteCount (w : Word) (s : State) : (writeCmd w s).byteCount = s.byteCount := rfl
@[simp] theorem writeCmd_tlb (w : Word) (s : State) : (writeCmd w s).tlb = s.tlb := rfl
@[simp] theorem writeCmd_cmd (w : Word) (s : State) : (writeCmd w s).cmd = w := rfl
@[simp] theorem writeCmd_args (w : Word) (s : State) : (writeCmd w s).args = s.args := rfl
@[simp] theorem writeCmd_res (w : Word) (s : State) : (writeCmd w s).res = s.res := rfl
@[simp] theorem writeCmd_status (w : Word) (s : State) : (writeCmd w s).status = s.status := rfl
@[simp] theorem writeCmd_faultAddr (w : Word) (s : State) : (writeCmd w s).faultAddr = s.faultAddr := rfl
@[simp] theorem writeCmd_hostMem (w : Word) (s : State) : (writeCmd w s).hostMem = s.hostMem := rfl
@[simp] theorem writeCmd_pending (w : Word) (s : State) : (writeCmd w s).pending = s.pending := rfl

/-! ### writeRes -/

@[simp] theorem writeRes_cfg (n : Fin 12) (v : Word) (s : State) : (writeRes n v s).cfg = s.cfg := rfl
@[simp] theorem writeRes_pmcb (n : Fin 12) (v : Word) (s : State) : (writeRes n v s).pmcb = s.pmcb := rfl
@[simp] theorem writeRes_pm (n : Fin 12) (v : Word) (s : State) : (writeRes n v s).pm = s.pm := rfl
@[simp] theorem writeRes_byteCount (n : Fin 12) (v : Word) (s : State) : (writeRes n v s).byteCount = s.byteCount := rfl
@[simp] theorem writeRes_tlb (n : Fin 12) (v : Word) (s : State) : (writeRes n v s).tlb = s.tlb := rfl
@[simp] theorem writeRes_cmd (n : Fin 12) (v : Word) (s : State) : (writeRes n v s).cmd = s.cmd := rfl
@[simp] theorem writeRes_args (n : Fin 12) (v : Word) (s : State) : (writeRes n v s).args = s.args := rfl
@[simp] theorem writeRes_res (n : Fin 12) (v : Word) (s : State) : (writeRes n v s).res = s.res.set n v := rfl
@[simp] theorem writeRes_status (n : Fin 12) (v : Word) (s : State) : (writeRes n v s).status = s.status := rfl
@[simp] theorem writeRes_faultAddr (n : Fin 12) (v : Word) (s : State) : (writeRes n v s).faultAddr = s.faultAddr := rfl
@[simp] theorem writeRes_hostMem (n : Fin 12) (v : Word) (s : State) : (writeRes n v s).hostMem = s.hostMem := rfl
@[simp] theorem writeRes_pending (n : Fin 12) (v : Word) (s : State) : (writeRes n v s).pending = s.pending := rfl

/-! ### popAction -/

@[simp] theorem popAction_cfg (s : State) : (popAction s).cfg = s.cfg := rfl
@[simp] theorem popAction_pmcb (s : State) : (popAction s).pmcb = s.pmcb := rfl
@[simp] theorem popAction_pm (s : State) : (popAction s).pm = s.pm := rfl
@[simp] theorem popAction_byteCount (s : State) : (popAction s).byteCount = s.byteCount := rfl
@[simp] theorem popAction_tlb (s : State) : (popAction s).tlb = s.tlb := rfl
@[simp] theorem popAction_cmd (s : State) : (popAction s).cmd = s.cmd := rfl
@[simp] theorem popAction_args (s : State) : (popAction s).args = s.args := rfl
@[simp] theorem popAction_res (s : State) : (popAction s).res = s.res := rfl
@[simp] theorem popAction_status (s : State) : (popAction s).status = s.status := rfl
@[simp] theorem popAction_faultAddr (s : State) : (popAction s).faultAddr = s.faultAddr := rfl
@[simp] theorem popAction_hostMem (s : State) : (popAction s).hostMem = s.hostMem := rfl
@[simp] theorem popAction_pending (s : State) : (popAction s).pending = s.pending.tail := rfl

/-! ### pushAction -/

@[simp] theorem pushAction_cfg (a : HostAction) (s : State) : (pushAction a s).cfg = s.cfg := rfl
@[simp] theorem pushAction_pmcb (a : HostAction) (s : State) : (pushAction a s).pmcb = s.pmcb := rfl
@[simp] theorem pushAction_pm (a : HostAction) (s : State) : (pushAction a s).pm = s.pm := rfl
@[simp] theorem pushAction_byteCount (a : HostAction) (s : State) : (pushAction a s).byteCount = s.byteCount := rfl
@[simp] theorem pushAction_tlb (a : HostAction) (s : State) : (pushAction a s).tlb = s.tlb := rfl
@[simp] theorem pushAction_cmd (a : HostAction) (s : State) : (pushAction a s).cmd = s.cmd := rfl
@[simp] theorem pushAction_args (a : HostAction) (s : State) : (pushAction a s).args = s.args := rfl
@[simp] theorem pushAction_res (a : HostAction) (s : State) : (pushAction a s).res = s.res := rfl
@[simp] theorem pushAction_status (a : HostAction) (s : State) : (pushAction a s).status = s.status := rfl
@[simp] theorem pushAction_faultAddr (a : HostAction) (s : State) : (pushAction a s).faultAddr = s.faultAddr := rfl
@[simp] theorem pushAction_hostMem (a : HostAction) (s : State) : (pushAction a s).hostMem = s.hostMem := rfl
@[simp] theorem pushAction_pending (a : HostAction) (s : State) : (pushAction a s).pending = a :: s.pending := rfl

/-! ### advanceCursor -/

@[simp] theorem advanceCursor_cfg (n : Word) (s : State) : (advanceCursor n s).cfg = s.cfg := rfl
@[simp] theorem advanceCursor_pmcb_vmEnable (n : Word) (s : State) : (advanceCursor n s).pmcb.vmEnable = s.pmcb.vmEnable := rfl
@[simp] theorem advanceCursor_pmcb_pageTableBase (n : Word) (s : State) : (advanceCursor n s).pmcb.pageTableBase = s.pmcb.pageTableBase := rfl
@[simp] theorem advanceCursor_pmcb_operationState (n : Word) (s : State) : (advanceCursor n s).pmcb.operationState = s.pmcb.operationState := rfl
@[simp] theorem advanceCursor_pmcb_nextVaddress (n : Word) (s : State) : (advanceCursor n s).pmcb.nextVaddress = s.pmcb.nextVaddress + n := rfl
@[simp] theorem advanceCursor_pmcb_remainingCount (n : Word) (s : State) : (advanceCursor n s).pmcb.remainingCount = s.pmcb.remainingCount - n := rfl
@[simp] theorem advanceCursor_pmcb_userBuffer (n : Word) (s : State) : (advanceCursor n s).pmcb.userBuffer = s.pmcb.userBuffer + n := rfl
@[simp] theorem advanceCursor_pm (n : Word) (s : State) : (advanceCursor n s).pm = s.pm := rfl
@[simp] theorem advanceCursor_byteCount (n : Word) (s : State) : (advanceCursor n s).byteCount = s.byteCount := rfl
@[simp] theorem advanceCursor_tlb (n : Word) (s : State) : (advanceCursor n s).tlb = s.tlb := rfl
@[simp] theorem advanceCursor_cmd (n : Word) (s : State) : (advanceCursor n s).cmd = s.cmd := rfl
@[simp] theorem advanceCursor_args (n : Word) (s : State) : (advanceCursor n s).args = s.args := rfl
@[simp] theorem advanceCursor_res (n : Word) (s : State) : (advanceCursor n s).res = s.res := rfl
@[simp] theorem advanceCursor_status (n : Word) (s : State) : (advanceCursor n s).status = s.status := rfl
@[simp] theorem advanceCursor_faultAddr (n : Word) (s : State) : (advanceCursor n s).faultAddr = s.faultAddr := rfl
@[simp] theorem advanceCursor_hostMem (n : Word) (s : State) : (advanceCursor n s).hostMem = s.hostMem := rfl
@[simp] theorem advanceCursor_pending (n : Word) (s : State) : (advanceCursor n s).pending = s.pending := rfl

/-! ### completeTransfer -/

@[simp] theorem completeTransfer_cfg (s : State) : (completeTransfer s).cfg = s.cfg := rfl
@[simp] theorem completeTransfer_pmcb_vmEnable (s : State) : (completeTransfer s).pmcb.vmEnable = s.pmcb.vmEnable := rfl
@[simp] theorem completeTransfer_pmcb_pageTableBase (s : State) : (completeTransfer s).pmcb.pageTableBase = s.pmcb.pageTableBase := rfl
@[simp] theorem completeTransfer_pmcb_operationState (s : State) : (completeTransfer s).pmcb.operationState = .none := rfl
@[simp] theorem completeTransfer_pmcb_nextVaddress (s : State) : (completeTransfer s).pmcb.nextVaddress = s.pmcb.nextVaddress := rfl
@[simp] theorem completeTransfer_pmcb_remainingCount (s : State) : (completeTransfer s).pmcb.remainingCount = s.pmcb.remainingCount := rfl
@[simp] theorem completeTransfer_pmcb_userBuffer (s : State) : (completeTransfer s).pmcb.userBuffer = s.pmcb.userBuffer := rfl
@[simp] theorem completeTransfer_pm (s : State) : (completeTransfer s).pm = s.pm := rfl
@[simp] theorem completeTransfer_byteCount (s : State) : (completeTransfer s).byteCount = s.byteCount := rfl
@[simp] theorem completeTransfer_tlb (s : State) : (completeTransfer s).tlb = s.tlb := rfl
@[simp] theorem completeTransfer_cmd (s : State) : (completeTransfer s).cmd = s.cmd := rfl
@[simp] theorem completeTransfer_args (s : State) : (completeTransfer s).args = s.args := rfl
@[simp] theorem completeTransfer_res (s : State) : (completeTransfer s).res = s.res := rfl
@[simp] theorem completeTransfer_status (s : State) : (completeTransfer s).status = s.status := rfl
@[simp] theorem completeTransfer_faultAddr (s : State) : (completeTransfer s).faultAddr = s.faultAddr := rfl
@[simp] theorem completeTransfer_hostMem (s : State) : (completeTransfer s).hostMem = s.hostMem := rfl
@[simp] theorem completeTransfer_pending (s : State) : (completeTransfer s).pending = s.pending := rfl

/-! ### startTransfer -/

@[simp] theorem startTransfer_cfg (op : OperationState) (va n buf : Word) (s : State) : (startTransfer op va n buf s).cfg = s.cfg := rfl
@[simp] theorem startTransfer_pmcb_vmEnable (op : OperationState) (va n buf : Word) (s : State) : (startTransfer op va n buf s).pmcb.vmEnable = s.pmcb.vmEnable := rfl
@[simp] theorem startTransfer_pmcb_pageTableBase (op : OperationState) (va n buf : Word) (s : State) : (startTransfer op va n buf s).pmcb.pageTableBase = s.pmcb.pageTableBase := rfl
@[simp] theorem startTransfer_pmcb_operationState (op : OperationState) (va n buf : Word) (s : State) : (startTransfer op va n buf s).pmcb.operationState = op := rfl
@[simp] theorem startTransfer_pmcb_nextVaddress (op : OperationState) (va n buf : Word) (s : State) : (startTransfer op va n buf s).pmcb.nextVaddress = va := rfl
@[simp] theorem startTransfer_pmcb_remainingCount (op : OperationState) (va n buf : Word) (s : State) : (startTransfer op va n buf s).pmcb.remainingCount = n := rfl
@[simp] theorem startTransfer_pmcb_userBuffer (op : OperationState) (va n buf : Word) (s : State) : (startTransfer op va n buf s).pmcb.userBuffer = buf := rfl
@[simp] theorem startTransfer_pm (op : OperationState) (va n buf : Word) (s : State) : (startTransfer op va n buf s).pm = s.pm := rfl
@[simp] theorem startTransfer_byteCount (op : OperationState) (va n buf : Word) (s : State) : (startTransfer op va n buf s).byteCount = s.byteCount := rfl
@[simp] theorem startTransfer_tlb (op : OperationState) (va n buf : Word) (s : State) : (startTransfer op va n buf s).tlb = s.tlb := rfl
@[simp] theorem startTransfer_cmd (op : OperationState) (va n buf : Word) (s : State) : (startTransfer op va n buf s).cmd = s.cmd := rfl
@[simp] theorem startTransfer_args (op : OperationState) (va n buf : Word) (s : State) : (startTransfer op va n buf s).args = s.args := rfl
@[simp] theorem startTransfer_res (op : OperationState) (va n buf : Word) (s : State) : (startTransfer op va n buf s).res = s.res := rfl
@[simp] theorem startTransfer_status (op : OperationState) (va n buf : Word) (s : State) : (startTransfer op va n buf s).status = s.status := rfl
@[simp] theorem startTransfer_faultAddr (op : OperationState) (va n buf : Word) (s : State) : (startTransfer op va n buf s).faultAddr = s.faultAddr := rfl
@[simp] theorem startTransfer_hostMem (op : OperationState) (va n buf : Word) (s : State) : (startTransfer op va n buf s).hostMem = s.hostMem := rfl
@[simp] theorem startTransfer_pending (op : OperationState) (va n buf : Word) (s : State) : (startTransfer op va n buf s).pending = s.pending := rfl

/-! ### lookupTlb -/

@[simp] theorem lookupTlb_cfg (va : Word) (s : State) : ((lookupTlb va s).2).cfg = s.cfg := rfl
@[simp] theorem lookupTlb_pmcb (va : Word) (s : State) : ((lookupTlb va s).2).pmcb = s.pmcb := rfl
@[simp] theorem lookupTlb_pm (va : Word) (s : State) : ((lookupTlb va s).2).pm = s.pm := rfl
@[simp] theorem lookupTlb_byteCount (va : Word) (s : State) : ((lookupTlb va s).2).byteCount = s.byteCount := rfl
@[simp] theorem lookupTlb_tlb (va : Word) (s : State) : ((lookupTlb va s).2).tlb = (tlbLookup va s.tlb).2 := rfl
@[simp] theorem lookupTlb_cmd (va : Word) (s : State) : ((lookupTlb va s).2).cmd = s.cmd := rfl
@[simp] theorem lookupTlb_args (va : Word) (s : State) : ((lookupTlb va s).2).args = s.args := rfl
@[simp] theorem lookupTlb_res (va : Word) (s : State) : ((lookupTlb va s).2).res = s.res := rfl
@[simp] theorem lookupTlb_status (va : Word) (s : State) : ((lookupTlb va s).2).status = s.status := rfl
@[simp] theorem lookupTlb_faultAddr (va : Word) (s : State) : ((lookupTlb va s).2).faultAddr = s.faultAddr := rfl
@[simp] theorem lookupTlb_hostMem (va : Word) (s : State) : ((lookupTlb va s).2).hostMem = s.hostMem := rfl
@[simp] theorem lookupTlb_pending (va : Word) (s : State) : ((lookupTlb va s).2).pending = s.pending := rfl

/-! ### cacheTlb -/

@[simp] theorem cacheTlb_cfg (va pte : Word) (s : State) : (cacheTlb va pte s).cfg = s.cfg := rfl
@[simp] theorem cacheTlb_pmcb (va pte : Word) (s : State) : (cacheTlb va pte s).pmcb = s.pmcb := rfl
@[simp] theorem cacheTlb_pm (va pte : Word) (s : State) : (cacheTlb va pte s).pm = s.pm := rfl
@[simp] theorem cacheTlb_byteCount (va pte : Word) (s : State) : (cacheTlb va pte s).byteCount = s.byteCount := rfl
@[simp] theorem cacheTlb_tlb (va pte : Word) (s : State) : (cacheTlb va pte s).tlb = tlbInsert s.cfg.tlbCapacity va pte s.tlb := rfl
@[simp] theorem cacheTlb_cmd (va pte : Word) (s : State) : (cacheTlb va pte s).cmd = s.cmd := rfl
@[simp] theorem cacheTlb_args (va pte : Word) (s : State) : (cacheTlb va pte s).args = s.args := rfl
@[simp] theorem cacheTlb_res (va pte : Word) (s : State) : (cacheTlb va pte s).res = s.res := rfl
@[simp] theorem cacheTlb_status (va pte : Word) (s : State) : (cacheTlb va pte s).status = s.status := rfl
@[simp] theorem cacheTlb_faultAddr (va pte : Word) (s : State) : (cacheTlb va pte s).faultAddr = s.faultAddr := rfl
@[simp] theorem cacheTlb_hostMem (va pte : Word) (s : State) : (cacheTlb va pte s).hostMem = s.hostMem := rfl
@[simp] theorem cacheTlb_pending (va pte : Word) (s : State) : (cacheTlb va pte s).pending = s.pending := rfl

/-! ### writeResPair writes RES only -/

@[simp] theorem writeResPair_cfg (lo hi : Fin 12) (c : Count) (s : State) : (writeResPair lo hi c s).cfg = s.cfg := by simp [writeResPair]
@[simp] theorem writeResPair_pmcb (lo hi : Fin 12) (c : Count) (s : State) : (writeResPair lo hi c s).pmcb = s.pmcb := by simp [writeResPair]
@[simp] theorem writeResPair_pm (lo hi : Fin 12) (c : Count) (s : State) : (writeResPair lo hi c s).pm = s.pm := by simp [writeResPair]
@[simp] theorem writeResPair_byteCount (lo hi : Fin 12) (c : Count) (s : State) : (writeResPair lo hi c s).byteCount = s.byteCount := by simp [writeResPair]
@[simp] theorem writeResPair_tlb (lo hi : Fin 12) (c : Count) (s : State) : (writeResPair lo hi c s).tlb = s.tlb := by simp [writeResPair]
@[simp] theorem writeResPair_cmd (lo hi : Fin 12) (c : Count) (s : State) : (writeResPair lo hi c s).cmd = s.cmd := by simp [writeResPair]
@[simp] theorem writeResPair_args (lo hi : Fin 12) (c : Count) (s : State) : (writeResPair lo hi c s).args = s.args := by simp [writeResPair]
@[simp] theorem writeResPair_status (lo hi : Fin 12) (c : Count) (s : State) : (writeResPair lo hi c s).status = s.status := by simp [writeResPair]
@[simp] theorem writeResPair_faultAddr (lo hi : Fin 12) (c : Count) (s : State) : (writeResPair lo hi c s).faultAddr = s.faultAddr := by simp [writeResPair]
@[simp] theorem writeResPair_hostMem (lo hi : Fin 12) (c : Count) (s : State) : (writeResPair lo hi c s).hostMem = s.hostMem := by simp [writeResPair]
@[simp] theorem writeResPair_pending (lo hi : Fin 12) (c : Count) (s : State) : (writeResPair lo hi c s).pending = s.pending := by simp [writeResPair]

theorem writeResPair_eq (lo hi : Fin 12) (c : Count) (s : State) : writeResPair lo hi c s = { s with res := (writeResPair lo hi c s).res } := by
 simp only [writeResPair, writeRes]

/-! ### writeImage writes RES only -/

@[simp] theorem writeImage_cfg (w : PmcbImage) (s : State) : (writeImage w s).cfg = s.cfg := by simp [writeImage]
@[simp] theorem writeImage_pmcb (w : PmcbImage) (s : State) : (writeImage w s).pmcb = s.pmcb := by simp [writeImage]
@[simp] theorem writeImage_pm (w : PmcbImage) (s : State) : (writeImage w s).pm = s.pm := by simp [writeImage]
@[simp] theorem writeImage_byteCount (w : PmcbImage) (s : State) : (writeImage w s).byteCount = s.byteCount := by simp [writeImage]
@[simp] theorem writeImage_tlb (w : PmcbImage) (s : State) : (writeImage w s).tlb = s.tlb := by simp [writeImage]
@[simp] theorem writeImage_cmd (w : PmcbImage) (s : State) : (writeImage w s).cmd = s.cmd := by simp [writeImage]
@[simp] theorem writeImage_args (w : PmcbImage) (s : State) : (writeImage w s).args = s.args := by simp [writeImage]
@[simp] theorem writeImage_status (w : PmcbImage) (s : State) : (writeImage w s).status = s.status := by simp [writeImage]
@[simp] theorem writeImage_faultAddr (w : PmcbImage) (s : State) : (writeImage w s).faultAddr = s.faultAddr := by simp [writeImage]
@[simp] theorem writeImage_hostMem (w : PmcbImage) (s : State) : (writeImage w s).hostMem = s.hostMem := by simp [writeImage]
@[simp] theorem writeImage_pending (w : PmcbImage) (s : State) : (writeImage w s).pending = s.pending := by simp [writeImage]

theorem writeImage_eq (w : PmcbImage) (s : State) : writeImage w s = { s with res := (writeImage w s).res } := by
 simp only [writeImage, writeRes]

/-! ### writeStats writes RES only -/

@[simp] theorem writeStats_cfg (t : Tlb) (s : State) : (writeStats t s).cfg = s.cfg := by simp [writeStats]
@[simp] theorem writeStats_pmcb (t : Tlb) (s : State) : (writeStats t s).pmcb = s.pmcb := by simp [writeStats]
@[simp] theorem writeStats_pm (t : Tlb) (s : State) : (writeStats t s).pm = s.pm := by simp [writeStats]
@[simp] theorem writeStats_byteCount (t : Tlb) (s : State) : (writeStats t s).byteCount = s.byteCount := by simp [writeStats]
@[simp] theorem writeStats_tlb (t : Tlb) (s : State) : (writeStats t s).tlb = s.tlb := by simp [writeStats]
@[simp] theorem writeStats_cmd (t : Tlb) (s : State) : (writeStats t s).cmd = s.cmd := by simp [writeStats]
@[simp] theorem writeStats_args (t : Tlb) (s : State) : (writeStats t s).args = s.args := by simp [writeStats]
@[simp] theorem writeStats_status (t : Tlb) (s : State) : (writeStats t s).status = s.status := by simp [writeStats]
@[simp] theorem writeStats_faultAddr (t : Tlb) (s : State) : (writeStats t s).faultAddr = s.faultAddr := by simp [writeStats]
@[simp] theorem writeStats_hostMem (t : Tlb) (s : State) : (writeStats t s).hostMem = s.hostMem := by simp [writeStats]
@[simp] theorem writeStats_pending (t : Tlb) (s : State) : (writeStats t s).pending = s.pending := by simp [writeStats]

theorem writeStats_eq (t : Tlb) (s : State) : writeStats t s = { s with res := (writeStats t s).res } := by
 simp only [writeStats, writeResPair, writeRes]

end Sys2Proof.Machine
end

