-- ==== Sys2Proof/Laws/Ops.lean ====
section
/-! SUPPORT. The shared operations, each said once: the combinators of a command, range validation (40_physical_memory.md R161), the
PhysicalMemory primitives (R162 to R165) and the host buffer accesses (10_state.md R63). -/

namespace Sys2Proof.Machine

/-! ### Results -/

@[simp] theorem andThen_ok {α β : Type} (a : α) (s : State) (k : α → State → Result β) :
    (Result.ok a s).andThen k = k a s := rfl

@[simp] theorem andThen_raised {α β : Type} (f : MmuFault) (s : State) (k : α → State → Result β) :
    (Result.raised f s : Result α).andThen k = .raised f s := rfl

@[simp] theorem andThen_refuse {α β : Type} (x : Refusal) (k : α → State → Result β) :
    (Result.refuse x : Result α).andThen k = .refuse x := rfl

theorem andThen_assoc {α β γ : Type} (r : Result α) (k : α → State → Result β) (l : β → State → Result γ) :
    (r.andThen k).andThen l = r.andThen fun a s => (k a s).andThen l := by
  cases r <;> rfl

@[simp] theorem finish_ok {α : Type} (a : α) (s : State) (g : α → State → State) :
    finish (.ok a s) g = .next (succeed (g a s)) := rfl

@[simp] theorem finish_raised {α : Type} (f : MmuFault) (s : State) (g : α → State → State) :
    finish (.raised f s) g = .next (takeFault f s) := rfl

@[simp] theorem finish_refuse {α : Type} (x : Refusal) (g : α → State → State) :
    finish (.refuse x : Result α) g = .refused x := rfl

/-- A command ends in a next state after a result that is not a refusal. -/
theorem finish_next {α : Type} {r : Result α} {g : α → State → State} {t : State} (h : finish r g = .next t) :
    (∃ a s, r = .ok a s ∧ t = succeed (g a s)) ∨ (∃ f s, r = .raised f s ∧ t = takeFault f s) := by
  cases r with
  | ok a s => exact .inl ⟨a, s, rfl, by simpa using h.symm⟩
  | raised f s => exact .inr ⟨f, s, rfl, by simpa using h.symm⟩
  | refuse x => simp at h

/-- Every state a result carries satisfies `P`. -/
def Result.All {α : Type} (P : State → Prop) (r : Result α) : Prop :=
  match r with
  | .ok _ s => P s
  | .raised _ s => P s
  | .refuse _ => True

@[simp] theorem all_ok {α : Type} (P : State → Prop) (a : α) (s : State) : (Result.ok a s).All P ↔ P s := Iff.rfl

@[simp] theorem all_raised {α : Type} (P : State → Prop) (f : MmuFault) (s : State) :
    (Result.raised f s : Result α).All P ↔ P s := Iff.rfl

@[simp] theorem all_refuse {α : Type} (P : State → Prop) (x : Refusal) : (Result.refuse x : Result α).All P := trivial

/-- `P` holds of a sequence's states when it holds of the first part's, and each continuation keeps it. -/
theorem all_andThen {α β : Type} {P : State → Prop} {r : Result α} {k : α → State → Result β} (hr : r.All P)
    (hk : ∀ a s, r = .ok a s → (k a s).All P) : (r.andThen k).All P := by
  cases r with
  | ok a s => exact hk a s rfl
  | raised f s => exact hr
  | refuse x => trivial

/-- A command's next state satisfies what its result's states do, where ending the command keeps it. -/
theorem finish_all {α : Type} {P : State → Prop} {r : Result α} {g : α → State → State} {t : State} (hr : r.All P)
    (hok : ∀ a s, P s → P (succeed (g a s))) (hf : ∀ f s, P s → P (takeFault f s)) (h : finish r g = .next t) : P t := by
  rcases finish_next h with ⟨a, s, rfl, rfl⟩ | ⟨f, s, rfl, rfl⟩
  · exact hok a s hr
  · exact hf f s hr

/-- No command answers `Outcome.fault`. -/
theorem finish_ne_fault {α : Type} (r : Result α) (g : α → State → State) (f : Fault) : finish r g ≠ .fault f := by
  cases r <;> simp

/-! ### Range validation (R161) -/

/-- `Valid(addr, n)` on true integers, for a SIZE below 2^32 (R161). -/
theorem validRange_iff {size : Nat} (hsize : size < 2 ^ 32) (addr n : Word) :
    validRange size addr n = true ↔ 1 ≤ n.toNat ∧ addr.toNat + n.toNat ≤ size := by
  have h1 := addr.isLt
  have h2 := n.isLt
  unfold validRange
  simp only [BitVec.le_def, BitVec.toNat_add]
  split
  · simp only [Bool.false_eq_true, false_iff]
    omega
  · split
    · simp only [Bool.false_eq_true, false_iff]
      omega
    · simp only [true_iff]
      omega

theorem Config.size_lt {c : Config} (h : c.legal = true) : c.size < 2 ^ 32 := by
  simp only [Config.legal, Config.frameCountLegal, Bool.and_eq_true, decide_eq_true_eq] at h
  unfold Config.size pageSize
  omega

theorem Config.size_pos {c : Config} (h : c.legal = true) : 1 ≤ c.size := by
  simp only [Config.legal, Config.frameCountLegal, Bool.and_eq_true, decide_eq_true_eq] at h
  unfold Config.size pageSize
  omega

/-! ### The PhysicalMemory primitives -/

theorem memRead_valid {addr n : Word} {s : State} (h : validRange s.cfg.size addr n = true) :
    memRead addr n s = .ok (s.pm.readBytes addr.toNat n.toNat) (countBytes n s) := if_pos h

theorem memRead_invalid {addr n : Word} {s : State} (h : validRange s.cfg.size addr n = false) :
    memRead addr n s = .raised (.physicalMemoryBounds addr) s := by simp [memRead, h]

theorem memWrite_valid {addr n : Word} {bytes : List Byte} {s : State} (h : validRange s.cfg.size addr n = true)
    (hl : bytes.length = n.toNat) :
    memWrite addr n bytes s = .ok () (countBytes n { s with pm := s.pm.writeBytes addr.toNat bytes }) := by
  rw [memWrite, if_pos h, ← hl, List.take_length]

theorem memWrite_invalid {addr n : Word} {bytes : List Byte} {s : State} (h : validRange s.cfg.size addr n = false) :
    memWrite addr n bytes s = .raised (.physicalMemoryBounds addr) s := by simp [memWrite, h]

theorem memRead32_valid {addr : Word} {s : State} (h : validRange s.cfg.size addr 4#32 = true) :
    memRead32 addr s = .ok (pmWord s.pm addr) (countBytes 4#32 s) := by
  rw [memRead32, memRead_valid h]
  rfl

theorem memRead32_invalid {addr : Word} {s : State} (h : validRange s.cfg.size addr 4#32 = false) :
    memRead32 addr s = .raised (.physicalMemoryBounds addr) s := by
  rw [memRead32, memRead_invalid h]
  rfl

theorem memWrite32_valid {addr v : Word} {s : State} (h : validRange s.cfg.size addr 4#32 = true) :
    memWrite32 addr v s = .ok () (countBytes 4#32 { s with pm := pmPutWord s.pm addr v }) :=
  memWrite_valid h rfl

/-! ### Words in memory (20_memory.md R92) -/

@[simp] theorem length_bytesOfWord (v : Word) : (bytesOfWord v).length = 4 := rfl

theorem wordOfBytes_bytesOfWord (v : Word) : wordOfBytes (bytesOfWord v) = v := by
  simp only [wordOfBytes, bytesOfWord]
  ext i hi
  simp only [BitVec.getElem_append, BitVec.getElem_extractLsb']
  split
  · simp [BitVec.getElem_eq_testBit_toNat, BitVec.getLsbD]
  · split
    · rename_i h1 h2
      rw [show 8 + (i - 8) = i by omega]
      simp [BitVec.getElem_eq_testBit_toNat, BitVec.getLsbD]
    · split
      · rename_i h1 h2 h3
        rw [show 16 + (i - 8 - 8) = i by omega]
        simp [BitVec.getElem_eq_testBit_toNat, BitVec.getLsbD]
      · rename_i h1 h2 h3
        rw [show 24 + (i - 8 - 8 - 8) = i by omega]
        simp [BitVec.getElem_eq_testBit_toNat, BitVec.getLsbD]

theorem bytesOfWord_append (b3 b2 b1 b0 : Byte) : bytesOfWord (b3 ++ b2 ++ b1 ++ b0) = [b0, b1, b2, b3] := by
  have key : ∀ (i : Nat) (b : Byte), (∀ j < 8, (b3 ++ b2 ++ b1 ++ b0 : BitVec 32).getLsbD (i + j) = b.getLsbD j) →
      (b3 ++ b2 ++ b1 ++ b0 : BitVec 32).extractLsb' i 8 = b := by
    intro i b h
    ext j hj
    rw [BitVec.getElem_extractLsb', h j hj, BitVec.getLsbD_eq_getElem hj]
  unfold bytesOfWord
  congr 1
  · refine key 0 b0 fun j hj => ?_
    simp only [BitVec.getLsbD_append]
    simp [hj]
  congr 1
  · refine key 8 b1 fun j hj => ?_
    simp only [BitVec.getLsbD_append]
    simp [hj]
  congr 1
  · refine key 16 b2 fun j hj => ?_
    simp only [BitVec.getLsbD_append]
    rw [if_neg (by omega), if_neg (by omega), if_pos (by omega)]
    congr 1
    omega
  congr 1
  · refine key 24 b3 fun j hj => ?_
    simp only [BitVec.getLsbD_append]
    rw [if_neg (by omega), if_neg (by omega), if_neg (by omega)]
    congr 1
    omega

theorem pmWord_eq (m : Memory) (a : Word) :
    pmWord m a = m.read (a.toNat + 3) ++ m.read (a.toNat + 2) ++ m.read (a.toNat + 1) ++ m.read a.toNat := rfl

theorem bytesOfWord_pmWord (m : Memory) (a : Word) : bytesOfWord (pmWord m a) = m.readBytes a.toNat 4 := by
  rw [pmWord_eq, bytesOfWord_append]
  rfl

theorem pmPutWord_wf {m : Memory} (h : m.wf = true) (a v : Word) : (pmPutWord m a v).wf = true :=
  Memory.wf_writeBytes h _ _

theorem pmWord_pmPutWord {m : Memory} (h : m.wf = true) (a v : Word) : pmWord (pmPutWord m a v) a = v := by
  unfold pmWord pmPutWord
  have := Memory.readBytes_writeBytes h a.toNat (bytesOfWord v)
  rw [length_bytesOfWord] at this
  rw [this, wordOfBytes_bytesOfWord]

/-- Outside the four bytes of a stored word memory reads as before. -/
theorem read_pmPutWord_outside {m : Memory} (h : m.wf = true) (a v : Word) {x : Nat}
    (hx : x < a.toNat ∨ a.toNat + 4 ≤ x) : (pmPutWord m a v).read x = m.read x :=
  Memory.read_writeBytes_outside h _ _ (by simpa using hx)

/-- A word that does not overlap the stored one reads as before. -/
theorem pmWord_pmPutWord_outside {m : Memory} (h : m.wf = true) {a b : Word} (v : Word)
    (hx : b.toNat + 4 ≤ a.toNat ∨ a.toNat + 4 ≤ b.toNat) : pmWord (pmPutWord m a v) b = pmWord m b := by
  unfold pmWord
  rw [Memory.readBytes_congr fun x h1 h2 => read_pmPutWord_outside h a v (by omega)]

/-! ### Operands (30_encoding.md R123): no operation but the host's own writes ARG -/

@[simp] theorem readArg_countBytes (n : Word) (k : Fin 5) (s : State) : readArg (countBytes n s) k = readArg s k := rfl

@[simp] theorem readArg_startTransfer (op : OperationState) (va n buf : Word) (k : Fin 5) (s : State) :
    readArg (startTransfer op va n buf s) k = readArg s k := rfl

@[simp] theorem readArg_restorePmcb (w : PmcbImage) (k : Fin 5) (s : State) : readArg (restorePmcb w s) k = readArg s k := rfl

/-! ### The host buffer -/

theorem hostRead_inRange {i n : Word} {s : State} (h : hostInRange s i n = true) :
    hostRead i n s = .ok (s.hostMem.readBytes i.toNat n.toNat) s := if_pos h

theorem hostWrite_inRange {i n : Word} {bytes : List Byte} {s : State} (h : hostInRange s i n = true)
    (hl : bytes.length = n.toNat) :
    hostWrite i n bytes s = .ok () { s with hostMem := s.hostMem.writeBytes i.toNat bytes } := by
  rw [hostWrite, if_pos h, ← hl, List.take_length]

theorem requireHostRange_inRange {i n : Word} {s : State} (h : hostInRange s i n = true) :
    requireHostRange i n s = .ok () s := if_pos h

theorem requireHostRange_outside {i n : Word} {s : State} (h : hostInRange s i n = false) :
    requireHostRange i n s = .refuse .hostBufferRange := by simp [requireHostRange, h]

@[simp] theorem hostInRange_countBytes (i n k : Word) (s : State) : hostInRange (countBytes k s) i n = hostInRange s i n := rfl

end Sys2Proof.Machine
end

