-- ==== Sys2Proof/Laws/TranslationCache.lean ====
section
/-! SUPPORT. The TranslationCache as a finite map (41_tlb.md R190 to R196): what Lookup, Cache and Flush do to the entry of each key,
who the victim is (R194), and that each keeps `Tlb.wf`. -/

namespace Sys2Proof.Machine

@[simp] theorem findEntry_nil (k : Word) : findEntry [] k = none := rfl

theorem findEntry_cons (e : TlbEntry) (es : List TlbEntry) (k : Word) :
    findEntry (e :: es) k = if e.key = k then some e else findEntry es k := by
  unfold findEntry
  rw [List.find?_cons]
  by_cases h : e.key = k
  · simp [h]
  · rw [if_neg h, show (e.key == k) = false by simpa using h]

theorem findEntry_some {es : List TlbEntry} {k : Word} {e : TlbEntry} (h : findEntry es k = some e) :
    e ∈ es ∧ e.key = k := ⟨List.mem_of_find?_eq_some h, by simpa using List.find?_some h⟩

theorem findEntry_none {es : List TlbEntry} {k : Word} (h : findEntry es k = none) : ∀ e ∈ es, e.key ≠ k := by
  intro e he
  simpa using List.find?_eq_none.mp h e he

/-- Stamping changes the stamp of the key's entry and nothing else. -/
theorem findEntry_stampEntry (es : List TlbEntry) (k : Word) (seq : Count) (k' : Word) :
    findEntry (stampEntry es k seq) k' =
      if k' = k then (findEntry es k).map (fun e => { e with lastRefSeq := seq }) else findEntry es k' := by
  induction es with
  | nil => simp [stampEntry]
  | cons e es ih =>
    rw [stampEntry, List.map_cons, findEntry_cons, findEntry_cons, findEntry_cons]
    change _ at ih
    unfold stampEntry at ih
    rw [ih]
    by_cases hk : e.key = k
    · by_cases hk' : k' = k
      · simp [hk, hk']
      · have : ¬ e.key = k' := fun h => hk' (h ▸ hk)
        simp [hk, hk', Ne.symm hk']
    · by_cases hk' : k' = k
      · subst hk'
        simp [hk]
      · simp [hk, hk']

/-- Putting an entry files it under its key and leaves the other keys alone. -/
theorem findEntry_putEntry (es : List TlbEntry) (new : TlbEntry) (k : Word) :
    findEntry (putEntry es new) k = if k = new.key then some new else findEntry es k := by
  induction es with
  | nil =>
    rw [putEntry, findEntry_cons]
    by_cases h : k = new.key <;> simp [h, eq_comm]
  | cons e es ih =>
    rw [putEntry]
    split
    · rw [findEntry_cons]
      by_cases h : k = new.key
      · simp [h]
      · simp [h, Ne.symm h]
    · split
      · rename_i heq
        rw [findEntry_cons, findEntry_cons]
        by_cases h : k = new.key
        · simp [h]
        · simp [h, Ne.symm h, heq ▸ Ne.symm h]
      · rename_i hne
        rw [findEntry_cons, findEntry_cons, ih]
        by_cases h : k = new.key
        · subst h
          simp [Ne.symm hne]
        · simp [h]

/-- Removing a key removes its entry and no other. -/
theorem findEntry_removeEntry (es : List TlbEntry) (k k' : Word) :
    findEntry (removeEntry es k) k' = if k' = k then none else findEntry es k' := by
  induction es with
  | nil => simp [removeEntry]
  | cons e es ih =>
    unfold removeEntry at ih ⊢
    rw [List.filter_cons]
    by_cases hk : e.key = k
    · rw [if_neg (by simp [hk]), ih, findEntry_cons]
      by_cases hk' : k' = k
      · simp [hk']
      · simp [hk', hk, Ne.symm hk']
    · rw [if_pos (by simp [hk]), findEntry_cons, findEntry_cons, ih]
      by_cases hk' : k' = k
      · subst hk'
        simp [hk]
      · simp [hk']

/-! ### The victim (R194) -/

theorem evictsBefore_iff (a b : TlbEntry) :
    evictsBefore a b = true ↔ a.lastRefSeq < b.lastRefSeq ∨ (a.lastRefSeq = b.lastRefSeq ∧ a.key < b.key) := by
  simp [evictsBefore]

theorem evictsBefore_trans {a b c : TlbEntry} (h : evictsBefore a b = true) (h' : evictsBefore b c = true) :
    evictsBefore a c = true := by
  rw [evictsBefore_iff] at *
  bv_omega

theorem evictsBefore_of_not {a b : TlbEntry} (h : ¬ evictsBefore a b = true) (hk : a.key ≠ b.key) :
    evictsBefore b a = true := by
  rw [evictsBefore_iff] at *
  bv_omega

theorem victim_isSome {es : List TlbEntry} (h : es ≠ []) : ∃ v, victim es = some v := by
  cases es with
  | nil => exact absurd rfl h
  | cons e rest =>
    rw [victim]
    split
    · exact ⟨e, rfl⟩
    · split
      · exact ⟨_, rfl⟩
      · exact ⟨e, rfl⟩

theorem keysRising_cons {e : TlbEntry} {es : List TlbEntry} :
    keysRising (e :: es) = true ↔ (∀ f ∈ es, e.key < f.key) ∧ keysRising es = true := by
  simp [keysRising]

/-- The victim is an entry, and it is evicted before every other. -/
theorem victim_spec {es : List TlbEntry} (hr : keysRising es = true) {v : TlbEntry} (h : victim es = some v) :
    v ∈ es ∧ ∀ e ∈ es, e ≠ v → evictsBefore v e = true := by
  induction es generalizing v with
  | nil => simp [victim] at h
  | cons e rest ih =>
    rw [keysRising_cons] at hr
    rw [victim] at h
    split at h
    · rename_i hn
      have hrest : rest = [] := by
        by_contra hne
        obtain ⟨x, hx⟩ := victim_isSome hne
        rw [hx] at hn
        exact absurd hn (by simp)
      subst hrest
      obtain rfl : e = v := by simpa using h
      exact ⟨by simp, by simp⟩
    · rename_i u hu
      obtain ⟨hmem, hmin⟩ := ih hr.2 hu
      have hkey : u.key ≠ e.key := by
        have := hr.1 u hmem
        bv_omega
      split at h
      · rename_i hb
        obtain rfl : u = v := by simpa using h
        refine ⟨List.mem_cons_of_mem _ hmem, ?_⟩
        intro f hf hne
        rcases List.mem_cons.mp hf with rfl | hf
        · exact hb
        · exact hmin f hf hne
      · rename_i hb
        obtain rfl : e = v := by simpa using h
        have heu := evictsBefore_of_not hb hkey
        refine ⟨by simp, ?_⟩
        intro f hf hne
        rcases List.mem_cons.mp hf with rfl | hf
        · exact absurd rfl hne
        · by_cases hfu : f = u
          · rw [hfu]; exact heu
          · exact evictsBefore_trans heu (hmin f hf hfu)

/-! ### The list of entries stays a map of page-aligned keys -/

theorem keysAligned_iff (es : List TlbEntry) : keysAligned es = true ↔ ∀ e ∈ es, e.key = pageKey e.key := by
  simp [keysAligned]

theorem pageKey_pageKey (va : Word) : pageKey (pageKey va) = pageKey va := by
  unfold pageKey
  rw [BitVec.and_assoc, BitVec.and_self]

theorem mem_stampEntry {es : List TlbEntry} {k : Word} {seq : Count} {f : TlbEntry} (h : f ∈ stampEntry es k seq) :
    ∃ e ∈ es, f.key = e.key ∧ f.ptEntry = e.ptEntry := by
  obtain ⟨e, he, rfl⟩ := List.mem_map.mp h
  refine ⟨e, he, ?_⟩
  split <;> exact ⟨rfl, rfl⟩

theorem keysRising_stampEntry {es : List TlbEntry} (h : keysRising es = true) (k : Word) (seq : Count) :
    keysRising (stampEntry es k seq) = true := by
  induction es with
  | nil => rfl
  | cons e es ih =>
    rw [keysRising_cons] at h
    rw [stampEntry, List.map_cons, keysRising_cons]
    refine ⟨fun f hf => ?_, ih h.2⟩
    obtain ⟨g, hg, hkey, -⟩ := mem_stampEntry (k := k) (seq := seq) hf
    rw [hkey]
    split <;> exact h.1 g hg

theorem mem_putEntry {es : List TlbEntry} {new f : TlbEntry} (h : f ∈ putEntry es new) : f = new ∨ f ∈ es := by
  induction es with
  | nil => simpa [putEntry] using h
  | cons e es ih =>
    rw [putEntry] at h
    split at h
    · simpa using h
    · split at h
      · rcases List.mem_cons.mp h with rfl | h
        · exact .inl rfl
        · exact .inr (List.mem_cons_of_mem _ h)
      · rcases List.mem_cons.mp h with rfl | h
        · exact .inr (by simp)
        · rcases ih h with h | h
          · exact .inl h
          · exact .inr (List.mem_cons_of_mem _ h)

theorem keysRising_putEntry {es : List TlbEntry} (h : keysRising es = true) (new : TlbEntry) :
    keysRising (putEntry es new) = true := by
  induction es with
  | nil => rfl
  | cons e es ih =>
    have h0 := h
    rw [keysRising_cons] at h
    rw [putEntry]
    split
    · rename_i hlt
      rw [keysRising_cons]
      refine ⟨fun f hf => ?_, h0⟩
      rcases List.mem_cons.mp hf with rfl | hf
      · exact hlt
      · have := h.1 f hf
        bv_omega
    · split
      · rename_i heq
        rw [keysRising_cons, heq]
        exact h
      · rename_i hlt hne
        rw [keysRising_cons]
        refine ⟨fun f hf => ?_, ih h.2⟩
        rcases mem_putEntry hf with rfl | hf
        · bv_omega
        · exact h.1 f hf

theorem length_putEntry_of_some {es : List TlbEntry} (h : keysRising es = true) {new : TlbEntry}
    (hf : (findEntry es new.key).isSome) : (putEntry es new).length = es.length := by
  induction es with
  | nil => simp at hf
  | cons e es ih =>
    rw [keysRising_cons] at h
    rw [findEntry_cons] at hf
    rw [putEntry]
    split
    · rename_i hlt
      exfalso
      rw [if_neg (by bv_omega)] at hf
      obtain ⟨x, hx⟩ := Option.isSome_iff_exists.mp hf
      obtain ⟨hm, hk⟩ := findEntry_some hx
      have := h.1 x hm
      bv_omega
    · split
      · simp
      · rename_i hne
        rw [if_neg (Ne.symm hne)] at hf
        simp [ih h.2 hf]

theorem length_putEntry_le (es : List TlbEntry) (new : TlbEntry) : (putEntry es new).length ≤ es.length + 1 := by
  induction es with
  | nil => simp [putEntry]
  | cons e es ih =>
    rw [putEntry]
    split
    · simp
    · split
      · simp
      · simp only [List.length_cons]
        omega

theorem keysRising_filter {es : List TlbEntry} (h : keysRising es = true) (p : TlbEntry → Bool) :
    keysRising (es.filter p) = true := by
  induction es with
  | nil => rfl
  | cons e es ih =>
    rw [keysRising_cons] at h
    rw [List.filter_cons]
    split
    · rw [keysRising_cons]
      exact ⟨fun f hf => h.1 f (List.mem_of_mem_filter hf), ih h.2⟩
    · exact ih h.2

theorem length_removeEntry_lt {es : List TlbEntry} {e : TlbEntry} (h : e ∈ es) :
    (removeEntry es e.key).length < es.length := by
  unfold removeEntry
  refine List.length_filter_lt_length_iff_exists.mpr ⟨e, h, ?_⟩
  simp

/-- What `makeRoom` leaves (R193): all entries, or all but the victim when a new key meets a full cache. -/
theorem makeRoom_cases (cap : Nat) (k : Word) (es : List TlbEntry) :
    (makeRoom cap k es = es ∧ ((findEntry es k).isSome ∨ es.length ≠ cap ∨ es = [])) ∨
    (∃ v, victim es = some v ∧ findEntry es k = none ∧ es.length = cap ∧ makeRoom cap k es = removeEntry es v.key) := by
  unfold makeRoom
  split
  · rename_i h
    exact .inl ⟨rfl, .inl h⟩
  · rename_i h
    split
    · rename_i hl
      split
      · rename_i v hv
        exact .inr ⟨v, hv, by simpa using h, hl, rfl⟩
      · rename_i hn
        refine .inl ⟨rfl, .inr (.inr ?_)⟩
        by_contra hne
        obtain ⟨v, hv⟩ := victim_isSome hne
        rw [hv] at hn
        exact absurd hn (by simp)
    · rename_i hl
      exact .inl ⟨rfl, .inr (.inl hl)⟩

theorem keysRising_makeRoom {es : List TlbEntry} (h : keysRising es = true) (cap : Nat) (k : Word) :
    keysRising (makeRoom cap k es) = true := by
  rcases makeRoom_cases cap k es with ⟨he, -⟩ | ⟨v, -, -, -, he⟩
  · rw [he]; exact h
  · rw [he]; exact keysRising_filter h _

theorem mem_makeRoom {es : List TlbEntry} {cap : Nat} {k : Word} {f : TlbEntry} (h : f ∈ makeRoom cap k es) : f ∈ es := by
  rcases makeRoom_cases cap k es with ⟨he, -⟩ | ⟨v, -, -, -, he⟩
  · rwa [he] at h
  · rw [he] at h
    exact List.mem_of_mem_filter h

/-- The cache never grows past its capacity (R49, R193). -/
theorem length_cached_le {es : List TlbEntry} {cap : Nat} (h : keysRising es = true) (hcap : 1 ≤ cap)
    (hl : es.length ≤ cap) (new : TlbEntry) : (putEntry (makeRoom cap new.key es) new).length ≤ cap := by
  rcases makeRoom_cases cap new.key es with ⟨he, hs⟩ | ⟨v, hv, hn, hfull, he⟩
  · rw [he]
    rcases hs with hs | hs | hs
    · rw [length_putEntry_of_some h hs]
      exact hl
    · have := length_putEntry_le es new
      omega
    · subst hs
      simpa [putEntry] using hcap
  · rw [he]
    have := length_removeEntry_lt (victim_spec h hv).1
    have := length_putEntry_le (removeEntry es v.key) new
    omega

/-! ### Lookup, Cache and Flush keep a legal cache -/

theorem Tlb.wf_present {c : Config} {t : Tlb} (hp : c.tlbPresent = true) :
    t.wf c = true ↔ keysRising t.entries = true ∧ keysAligned t.entries = true ∧ t.entries.length ≤ c.tlbCapacity ∧
      tlbSize t.entries ≤ t.recentMaxSize ∧ t.recentMaxSize ≤ t.totalMaxSize ∧ t.totalMaxSize.toNat ≤ c.tlbCapacity := by
  simp [Tlb.wf, hp, and_assoc]

theorem tlbLookup_hit {va : Word} {t : Tlb} {e : TlbEntry} (h : findEntry t.entries (pageKey va) = some e) :
    tlbLookup va t = (e.ptEntry,
      { t with
        recentHits := t.recentHits + 1
        totalHits := t.totalHits + 1
        seq := t.seq + 1
        entries := stampEntry t.entries (pageKey va) (t.seq + 1) }) := by
  simp [tlbLookup, h]

theorem tlbLookup_miss {va : Word} {t : Tlb} (h : findEntry t.entries (pageKey va) = none) :
    tlbLookup va t = (0#32, { t with recentMisses := t.recentMisses + 1, totalMisses := t.totalMisses + 1 }) := by
  simp [tlbLookup, h]

theorem tlbLookup_keeps_wf {c : Config} {t : Tlb} (hp : c.tlbPresent = true) (h : t.wf c = true) (va : Word) :
    (tlbLookup va t).2.wf c = true := by
  rw [Tlb.wf_present hp] at *
  obtain ⟨h1, h2, h3, h4, h5, h6⟩ := h
  cases hf : findEntry t.entries (pageKey va) with
  | none =>
    rw [tlbLookup_miss hf]
    exact ⟨h1, h2, h3, h4, h5, h6⟩
  | some e =>
    rw [tlbLookup_hit hf]
    refine ⟨keysRising_stampEntry h1 _ _, ?_, by simpa [stampEntry] using h3, ?_, h5, h6⟩
    · rw [keysAligned_iff] at h2 ⊢
      intro f hf
      obtain ⟨g, hg, hk, -⟩ := mem_stampEntry hf
      rw [hk]
      exact h2 g hg
    · simpa [tlbSize, stampEntry] using h4

theorem le_maxCount_left (a b : Count) : a ≤ maxCount a b := by
  unfold maxCount
  split
  · assumption
  · bv_omega

theorem le_maxCount_right (a b : Count) : b ≤ maxCount a b := by
  unfold maxCount
  split
  · bv_omega
  · bv_omega

theorem maxCount_mono {a b c : Count} (h : a ≤ b) : maxCount a c ≤ maxCount b c := by
  unfold maxCount
  split <;> split <;> bv_omega

theorem maxCount_toNat_le {a b : Count} {n : Nat} (ha : a.toNat ≤ n) (hb : b.toNat ≤ n) : (maxCount a b).toNat ≤ n := by
  unfold maxCount
  split <;> assumption

theorem tlbSize_toNat_le (es : List TlbEntry) : (tlbSize es).toNat ≤ es.length := by
  unfold tlbSize
  rw [BitVec.toNat_ofNat]
  exact Nat.mod_le _ _

theorem tlbInsert_keeps_wf {c : Config} {t : Tlb} (hp : c.tlbPresent = true) (hc : 1 ≤ c.tlbCapacity)
    (h : t.wf c = true) (va pte : Word) : (tlbInsert c.tlbCapacity va pte t).wf c = true := by
  rw [Tlb.wf_present hp] at *
  obtain ⟨h1, h2, h3, h4, h5, h6⟩ := h
  have hlen := length_cached_le h1 hc h3 { key := pageKey va, lastRefSeq := t.seq + 1, ptEntry := pte }
  unfold tlbInsert updateMaxSize
  refine ⟨keysRising_putEntry (keysRising_makeRoom h1 _ _) _, ?_, hlen, le_maxCount_right _ _, maxCount_mono h5, ?_⟩
  · rw [keysAligned_iff] at h2 ⊢
    intro f hf
    rcases mem_putEntry hf with rfl | hf
    · exact (pageKey_pageKey va).symm
    · exact h2 f (mem_makeRoom hf)
  · exact maxCount_toNat_le h6 (Nat.le_trans (tlbSize_toNat_le _) hlen)

theorem tlbFlush_keeps_wf {c : Config} {t : Tlb} (hp : c.tlbPresent = true) (h : t.wf c = true) :
    (tlbFlush t).wf c = true := by
  rw [Tlb.wf_present hp] at *
  obtain ⟨h1, h2, h3, h4, h5, h6⟩ := h
  refine ⟨rfl, rfl, Nat.zero_le _, ?_, ?_, h6⟩
  · simp [tlbFlush, tlbSize]
  · show (0#64 : Count) ≤ t.totalMaxSize
    bv_omega

/-- The entry of each key after a Cache (R193): the new entry under its key; under another key nothing changes, but for the victim of
a full cache. -/
theorem findEntry_tlbInsert (cap : Nat) (va pte : Word) (t : Tlb) (k : Word) :
    findEntry (tlbInsert cap va pte t).entries k =
      if k = pageKey va then some { key := pageKey va, lastRefSeq := t.seq + 1, ptEntry := pte }
      else findEntry (makeRoom cap (pageKey va) t.entries) k := by
  show findEntry (putEntry _ _) k = _
  rw [findEntry_putEntry]

end Sys2Proof.Machine
end

