-- ==== Sys2Proof/Laws/Translation.lean ====
section
/-! SUPPORT. ToPhysical said once (43_translate.md R250 to R262): its outcome in every case, in the terms of Safety.lean, and one lemma
that carries any reflexive and transitive relation across it. -/

namespace Sys2Proof.Machine

/-! ### Entry addresses (20_memory.md R89, R90) -/

theorem pteFrame_mod (pte : Word) : (pteFrame pte).toNat % 4096 = 0 := by
  have h : (pteFrame pte).extractLsb' 0 12 = 0#12 := by
    unfold pteFrame
    ext i hi
    simp only [BitVec.getElem_extractLsb', BitVec.getLsbD_and]
    interval_cases i <;> simp
  simpa using congrArg BitVec.toNat h

theorem pageAligned_mod {base : Word} (h : pageAligned base = true) : base.toNat % 4096 = 0 := by
  have h : base.extractLsb' 0 12 = 0#12 := by simpa [pageAligned] using h
  simpa using congrArg BitVec.toNat h

/-- An entry of an aligned table lies inside the table's page, at a multiple of 4. -/
theorem entryAddress_toNat {base : Word} (h : base.toNat % 4096 = 0) (i : BitVec 10) :
    (entryAddress base i).toNat = base.toNat + 4 * i.toNat := by
  have hi := i.isLt
  have hb := base.isLt
  have e : (i.setWidth 32 <<< 2 : Word).toNat = 4 * i.toNat := by
    simp [BitVec.toNat_shiftLeft, Nat.shiftLeft_eq]
    omega
  unfold entryAddress
  rw [BitVec.toNat_add, e]
  omega

theorem l2Address_mod (s : State) (va : Word) : (l2Address s va).toNat % 4 = 0 := by
  have h := pteFrame_mod (l1Word s va)
  unfold l2Address
  rw [entryAddress_toNat h]
  omega

theorem l1Address_mod {s : State} (h : pageAligned s.pmcb.pageTableBase = true) (va : Word) :
    (l1Address s va).toNat % 4 = 0 := by
  have h := pageAligned_mod h
  unfold l1Address
  rw [entryAddress_toNat h]
  omega

/-! ### The cache consulted (R252) -/

theorem consultTlb_state (va : Word) (w : Bool) (s : State) :
    (consultTlb va w s).2 = { s with tlb := tlbAfterLookup s va } := by
  unfold consultTlb tlbAfterLookup
  split <;> rfl

theorem consultTlb_entry (va : Word) (w : Bool) (s : State) :
    (consultTlb va w s).1 = (usableEntry s va w).map (·.ptEntry) := by
  unfold consultTlb usableEntry tlbEntryOf lookupTlb
  by_cases hp : s.cfg.tlbPresent = true
  · simp only [hp, if_true]
    cases hf : findEntry s.tlb.entries (pageKey va) with
    | none =>
      rw [tlbLookup_miss hf]
      simp [pteP]
    | some e =>
      rw [tlbLookup_hit hf]
      simp only [Option.filter_some]
      split <;> simp_all
  · simp [hp]

/-! ### The walk (R253 to R256) -/

theorem walk_misaligned {va : Word} {w : Bool} {s : State} (h : pageAligned s.pmcb.pageTableBase = false) :
    walk va w s = .raised .invalidOperation s := by
  simp [walk, h]

theorem walk_l1Outside {va : Word} {w : Bool} {s : State} (h : pageAligned s.pmcb.pageTableBase = true)
    (h1 : validRange s.cfg.size (l1Address s va) 4#32 = false) :
    walk va w s = .raised (.physicalMemoryBounds (l1Address s va)) s := by
  unfold l1Address at *
  simp [walk, h, memRead32_invalid h1]

theorem walk_l1Absent {va : Word} {w : Bool} {s : State} (h : pageAligned s.pmcb.pageTableBase = true)
    (h1 : validRange s.cfg.size (l1Address s va) 4#32 = true) (hp : pteP (l1Word s va) = false) :
    walk va w s = .raised (.pageFault va) { s with byteCount := s.byteCount + 4 } := by
  unfold l1Word at hp
  unfold l1Address at *
  simp only [walk, h, if_true, memRead32_valid h1, andThen_ok, hp]
  rfl

/-- The L1 write-back of a walk (R255), on a state that differs from `s` in BYTE_COUNT only. -/
theorem markL1_spec {va : Word} {w : Bool} {s : State} (h1 : validRange s.cfg.size (l1Address s va) 4#32 = true) :
    markL1 (l1Address s va) (l1Word s va) w (countBytes 4#32 s) =
      .ok () { s with pm := pmMarkedL1 s va w, byteCount := s.byteCount + l1Bytes s va } := by
  unfold markL1 pmMarkedL1 l1Bytes
  split
  · rfl
  · rw [memWrite32_valid (by simpa using h1)]
    simp only [countBytes, BitVec.add_assoc]
    rfl

theorem walk_reachesL2 {va : Word} {w : Bool} {s : State} (h : pageAligned s.pmcb.pageTableBase = true)
    (h1 : validRange s.cfg.size (l1Address s va) 4#32 = true) (hp : pteP (l1Word s va) = true) :
    walk va w s =
      (memRead32 (l2Address s va) { s with pm := pmMarkedL1 s va w, byteCount := s.byteCount + l1Bytes s va }).andThen
        fun pte s' => .ok (l2Address s va, pte) s' := by
  have hm := markL1_spec (w := w) h1
  unfold l2Address
  unfold l1Word at *
  unfold l1Address at *
  simp only [walk, h, if_true, memRead32_valid h1, andThen_ok, hp, hm]

theorem walk_l2Outside {va : Word} {w : Bool} {s : State} (h : pageAligned s.pmcb.pageTableBase = true)
    (h1 : validRange s.cfg.size (l1Address s va) 4#32 = true) (hp : pteP (l1Word s va) = true)
    (h2 : validRange s.cfg.size (l2Address s va) 4#32 = false) :
    walk va w s = .raised (.physicalMemoryBounds (l2Address s va))
      { s with pm := pmMarkedL1 s va w, byteCount := s.byteCount + l1Bytes s va } := by
  rw [walk_reachesL2 h h1 hp, memRead32_invalid (by exact h2)]
  rfl

theorem walk_ends {va : Word} {w : Bool} {s : State} (h : pageAligned s.pmcb.pageTableBase = true)
    (h1 : validRange s.cfg.size (l1Address s va) 4#32 = true) (hp : pteP (l1Word s va) = true)
    (h2 : validRange s.cfg.size (l2Address s va) 4#32 = true) :
    walk va w s = .ok (l2Address s va, l2Word s va w)
      { s with pm := pmMarkedL1 s va w, byteCount := s.byteCount + l1Bytes s va + 4 } := by
  rw [walk_reachesL2 h h1 hp, memRead32_valid (by exact h2)]
  rfl

/-! ### The walk path (R253 to R259) -/

theorem translateByWalk_misaligned {va : Word} {w : Bool} {s : State} (h : pageAligned s.pmcb.pageTableBase = false) :
    translateByWalk va w s = .raised .invalidOperation s := by
  rw [translateByWalk, walk_misaligned h]
  rfl

theorem translateByWalk_l1Outside {va : Word} {w : Bool} {s : State} (h : pageAligned s.pmcb.pageTableBase = true)
    (h1 : validRange s.cfg.size (l1Address s va) 4#32 = false) :
    translateByWalk va w s = .raised (.physicalMemoryBounds (l1Address s va)) s := by
  rw [translateByWalk, walk_l1Outside h h1]
  rfl

theorem translateByWalk_l1Absent {va : Word} {w : Bool} {s : State} (h : pageAligned s.pmcb.pageTableBase = true)
    (h1 : validRange s.cfg.size (l1Address s va) 4#32 = true) (hp : pteP (l1Word s va) = false) :
    translateByWalk va w s = .raised (.pageFault va) { s with byteCount := s.byteCount + 4 } := by
  rw [translateByWalk, walk_l1Absent h h1 hp]
  rfl

theorem translateByWalk_l2Outside {va : Word} {w : Bool} {s : State} (h : pageAligned s.pmcb.pageTableBase = true)
    (h1 : validRange s.cfg.size (l1Address s va) 4#32 = true) (hp : pteP (l1Word s va) = true)
    (h2 : validRange s.cfg.size (l2Address s va) 4#32 = false) :
    translateByWalk va w s = .raised (.physicalMemoryBounds (l2Address s va))
      { s with pm := pmMarkedL1 s va w, byteCount := s.byteCount + l1Bytes s va } := by
  rw [translateByWalk, walk_l2Outside h h1 hp h2]
  rfl

theorem translateByWalk_l2Absent {va : Word} {w : Bool} {s : State} (h : pageAligned s.pmcb.pageTableBase = true)
    (h1 : validRange s.cfg.size (l1Address s va) 4#32 = true) (hp : pteP (l1Word s va) = true)
    (h2 : validRange s.cfg.size (l2Address s va) 4#32 = true) (hp2 : pteP (l2Word s va w) = false) :
    translateByWalk va w s = .raised (.pageFault va)
      { s with pm := pmMarkedL1 s va w, byteCount := s.byteCount + l1Bytes s va + 4 } := by
  rw [translateByWalk, walk_ends h h1 hp h2]
  simp [permit, hp2]

theorem translateByWalk_readOnly {va : Word} {s : State} (h : pageAligned s.pmcb.pageTableBase = true)
    (h1 : validRange s.cfg.size (l1Address s va) 4#32 = true) (hp : pteP (l1Word s va) = true)
    (h2 : validRange s.cfg.size (l2Address s va) 4#32 = true) (hp2 : pteP (l2Word s va true) = true)
    (hw : pteW (l2Word s va true) = false) :
    translateByWalk va true s = .raised (.writePermissionFault va)
      { s with pm := pmMarkedL1 s va true, byteCount := s.byteCount + l1Bytes s va + 4 } := by
  rw [translateByWalk, walk_ends h h1 hp h2]
  simp [permit, hp2, hw]

theorem translateByWalk_ok {va : Word} {w : Bool} {s : State} (h : pageAligned s.pmcb.pageTableBase = true)
    (h1 : validRange s.cfg.size (l1Address s va) 4#32 = true) (hp : pteP (l1Word s va) = true)
    (h2 : validRange s.cfg.size (l2Address s va) 4#32 = true) (hp2 : pteP (l2Word s va w) = true)
    (hw : w = true → pteW (l2Word s va w) = true) :
    translateByWalk va w s = .ok (physicalAddress (pteFrame (l2Word s va w)) va)
      (fillTlb va (pteMark (l2Word s va w) w)
        { s with pm := pmMarkedL2 s va w, byteCount := s.byteCount + l1Bytes s va + l2Bytes s va w }) := by
  have hperm : (w && !pteW (l2Word s va w)) = false := by
    cases w
    · rfl
    · simp [hw rfl]
  rw [translateByWalk, walk_ends h h1 hp h2]
  simp only [andThen_ok, permit, hp2, hperm, Bool.not_true, Bool.false_eq_true, if_false]
  unfold markL2 pmMarkedL2 l2Bytes
  split
  · rfl
  · rw [memWrite32_valid (by exact h2)]
    simp only [andThen_ok, countBytes, BitVec.add_assoc]
    rfl

/-! ### ToPhysical (R260) -/

theorem toPhysical_physicalMode {va : Word} {w : Bool} {s : State} (h : s.pmcb.vmEnable = false) :
    toPhysical va w s = .ok va s := by
  simp [toPhysical, h]

theorem toPhysical_cached {va : Word} {w : Bool} {s : State} {e : TlbEntry} (h : s.pmcb.vmEnable = true)
    (he : usableEntry s va w = some e) :
    toPhysical va w s =
      if w && !pteW e.ptEntry then .raised (.writePermissionFault va) { s with tlb := tlbAfterLookup s va }
      else .ok (physicalAddress (pteFrame e.ptEntry) va) { s with tlb := tlbAfterLookup s va } := by
  have hP : pteP e.ptEntry = true := by
    have := Option.filter_eq_some_iff.mp he
    simp only [Bool.and_eq_true] at this
    exact this.2.1
  rw [toPhysical, if_pos h, consultTlb_entry, consultTlb_state, he]
  simp only [Option.map_some, translateCached, permit, hP, Bool.not_true, Bool.false_eq_true, if_false]
  split <;> rfl

theorem toPhysical_walks {va : Word} {w : Bool} {s : State} (h : s.pmcb.vmEnable = true)
    (he : usableEntry s va w = none) :
    toPhysical va w s = translateByWalk va w { s with tlb := tlbAfterLookup s va } := by
  rw [toPhysical, if_pos h, consultTlb_entry, consultTlb_state, he]
  rfl

theorem fillTlb_spec (s : State) (va : Word) (w : Bool) (m : Memory) (c : Count) :
    fillTlb va (pteMark (l2Word s va w) w) { s with tlb := tlbAfterLookup s va, pm := m, byteCount := c } =
      { s with tlb := tlbAfterWalk s va w, pm := m, byteCount := c } := by
  by_cases hp : s.cfg.tlbPresent = true
  · simp only [fillTlb, tlbAfterWalk, cacheTlb, hp, if_true]
  · simp [fillTlb, tlbAfterWalk, tlbAfterLookup, hp]

/-! ### The walk path of ToPhysical, on the state before the Lookup -/

section WalkPath

variable {va : Word} {w : Bool} {s : State} (hvm : s.pmcb.vmEnable = true) (hu : usableEntry s va w = none)
include hvm hu

theorem toPhysical_misaligned (h : pageAligned s.pmcb.pageTableBase = false) :
    toPhysical va w s = .raised .invalidOperation { s with tlb := tlbAfterLookup s va } := by
  rw [toPhysical_walks hvm hu]
  exact translateByWalk_misaligned h

variable (ha : pageAligned s.pmcb.pageTableBase = true)
include ha

theorem toPhysical_l1Outside (h1 : validRange s.cfg.size (l1Address s va) 4#32 = false) :
    toPhysical va w s = .raised (.physicalMemoryBounds (l1Address s va)) { s with tlb := tlbAfterLookup s va } := by
  rw [toPhysical_walks hvm hu]
  exact translateByWalk_l1Outside (s := { s with tlb := tlbAfterLookup s va }) ha h1

variable (h1 : validRange s.cfg.size (l1Address s va) 4#32 = true)
include h1

theorem toPhysical_l1Absent (hp : pteP (l1Word s va) = false) :
    toPhysical va w s =
      .raised (.pageFault va) { s with tlb := tlbAfterLookup s va, byteCount := s.byteCount + 4 } := by
  rw [toPhysical_walks hvm hu]
  exact translateByWalk_l1Absent (s := { s with tlb := tlbAfterLookup s va }) ha h1 hp

variable (hp : pteP (l1Word s va) = true)
include hp

theorem toPhysical_l2Outside (h2 : validRange s.cfg.size (l2Address s va) 4#32 = false) :
    toPhysical va w s = .raised (.physicalMemoryBounds (l2Address s va))
      { s with
        tlb := tlbAfterLookup s va
        pm := pmMarkedL1 s va w
        byteCount := s.byteCount + l1Bytes s va } := by
  rw [toPhysical_walks hvm hu]
  exact translateByWalk_l2Outside (s := { s with tlb := tlbAfterLookup s va }) ha h1 hp h2

variable (h2 : validRange s.cfg.size (l2Address s va) 4#32 = true)
include h2

theorem toPhysical_l2Absent (hp2 : pteP (l2Word s va w) = false) :
    toPhysical va w s = .raised (.pageFault va)
      { s with
        tlb := tlbAfterLookup s va
        pm := pmMarkedL1 s va w
        byteCount := s.byteCount + l1Bytes s va + 4 } := by
  rw [toPhysical_walks hvm hu]
  exact translateByWalk_l2Absent (s := { s with tlb := tlbAfterLookup s va }) ha h1 hp h2 hp2

variable (hp2 : pteP (l2Word s va w) = true)
include hp2

theorem toPhysical_readOnly (hw : w = true) (hro : pteW (l2Word s va w) = false) :
    toPhysical va w s = .raised (.writePermissionFault va)
      { s with
        tlb := tlbAfterLookup s va
        pm := pmMarkedL1 s va w
        byteCount := s.byteCount + l1Bytes s va + 4 } := by
  subst hw
  rw [toPhysical_walks hvm hu]
  exact translateByWalk_readOnly (s := { s with tlb := tlbAfterLookup s va }) ha h1 hp h2 hp2 hro

theorem toPhysical_walked (hw : w = true → pteW (l2Word s va w) = true) :
    toPhysical va w s = .ok (physicalAddress (pteFrame (l2Word s va w)) va)
      { s with
        tlb := tlbAfterWalk s va w
        pm := pmMarkedL2 s va w
        byteCount := s.byteCount + l1Bytes s va + l2Bytes s va w } := by
  rw [toPhysical_walks hvm hu]
  exact (translateByWalk_ok (s := { s with tlb := tlbAfterLookup s va }) ha h1 hp h2 hp2 hw).trans
    (congrArg (Result.ok _) (fillTlb_spec s va w _ _))

end WalkPath

/-! ### What every translation keeps (R262) -/

/-- A relation between states that each effect of a translation respects: the Lookup, the Cache, a counted PTE read, and a counted
write-back of the word last read with A, or A and M, added. -/
structure TranslationRel (w : Bool) (R : State → State → Prop) : Prop where
  refl : ∀ s, R s s
  trans : ∀ s t u, R s t → R t u → R s u
  lookup : ∀ va s, s.cfg.tlbPresent = true → R s (lookupTlb va s).2
  cache : ∀ va pte s, s.cfg.tlbPresent = true → R s (cacheTlb va pte s)
  read : ∀ s, R s (countBytes 4#32 s)
  mark : ∀ a s, validRange s.cfg.size a 4#32 = true →
    R s (countBytes 4#32 { s with pm := pmPutWord s.pm a (pteMark (pmWord s.pm a) w) })

theorem memRead32_rel {w : Bool} {R : State → State → Prop} (hR : TranslationRel w R) (a : Word) (s : State) :
    (memRead32 a s).All (R s) := by
  cases hv : validRange s.cfg.size a 4#32 with
  | true =>
    rw [memRead32_valid hv]
    exact hR.read s
  | false =>
    rw [memRead32_invalid hv]
    exact hR.refl s

/-- What a successful PTE read gives: the word, and only BYTE_COUNT changed. -/
theorem memRead32_ok {a v : Word} {s t : State} (h : memRead32 a s = .ok v t) :
    validRange s.cfg.size a 4#32 = true ∧ v = pmWord s.pm a ∧ t = countBytes 4#32 s := by
  cases hv : validRange s.cfg.size a 4#32 with
  | true =>
    rw [memRead32_valid hv] at h
    injection h with h1 h2
    exact ⟨rfl, h1.symm, h2.symm⟩
  | false =>
    rw [memRead32_invalid hv] at h
    cases h

theorem all_trans {α : Type} {R : State → State → Prop} (ht : ∀ s t u, R s t → R t u → R s u) {r : Result α} {s t : State}
    (hst : R s t) (h : r.All (R t)) : r.All (R s) := by
  cases r with
  | ok a u => exact ht _ _ _ hst h
  | raised f u => exact ht _ _ _ hst h
  | refuse x => trivial

theorem mark_rel {w : Bool} {R : State → State → Prop} (hR : TranslationRel w R) {a v : Word} {s : State}
    (hv : validRange s.cfg.size a 4#32 = true) (hw : v = pmWord s.pm a) :
    (memWrite32 a (pteMark v w) s).All (R s) := by
  rw [memWrite32_valid hv, hw]
  exact hR.mark a s hv

theorem walk_rel {w : Bool} {R : State → State → Prop} (hR : TranslationRel w R) (va : Word) (s : State) :
    (walk va w s).All (R s) := by
  unfold walk
  split
  · refine all_andThen (memRead32_rel hR _ s) fun l1 s1 h1 => ?_
    obtain ⟨hv, rfl, rfl⟩ := memRead32_ok h1
    refine all_trans hR.trans (hR.read s) ?_
    split
    · have hm : (markL1 (entryAddress s.pmcb.pageTableBase (l1Index va))
          (pmWord s.pm (entryAddress s.pmcb.pageTableBase (l1Index va))) w (countBytes 4#32 s)).All (R (countBytes 4#32 s)) := by
        unfold markL1
        split
        · exact hR.refl _
        · exact mark_rel hR hv rfl
      refine all_andThen hm fun _ s2 h2 => ?_
      have h2' : R (countBytes 4#32 s) s2 := by
        rw [h2] at hm
        exact hm
      refine all_trans hR.trans h2' ?_
      refine all_andThen (memRead32_rel hR _ s2) fun pte s3 h3 => ?_
      obtain ⟨-, -, rfl⟩ := memRead32_ok h3
      exact hR.read s2
    · exact hR.refl _
  · exact hR.refl s

/-- A walk that ends leaves the L2 word it read in memory, at an address inside PhysicalMemory. -/
theorem walk_ok {va : Word} {w : Bool} {s t : State} {e : Word × Word} (h : walk va w s = .ok e t) :
    validRange t.cfg.size e.1 4#32 = true ∧ e.2 = pmWord t.pm e.1 := by
  unfold walk at h
  split at h
  · cases h1 : memRead32 (entryAddress s.pmcb.pageTableBase (l1Index va)) s with
    | ok l1 s1 =>
      simp only [h1, andThen_ok] at h
      split at h
      · cases h2 : markL1 (entryAddress s.pmcb.pageTableBase (l1Index va)) l1 w s1 with
        | ok x s2 =>
          simp only [h2, andThen_ok] at h
          cases h3 : memRead32 (entryAddress (pteFrame l1) (l2Index va)) s2 with
          | ok pte s3 =>
            simp only [h3, andThen_ok] at h
            obtain ⟨hv, hpte, hs3⟩ := memRead32_ok h3
            injection h with he ht
            subst he
            subst ht
            subst hs3
            exact ⟨hv, hpte⟩
          | raised f u => simp [h3] at h
          | refuse x => simp [h3] at h
        | raised f u => simp [h2] at h
        | refuse x => simp [h2] at h
      · cases h
    | raised f u => simp [h1] at h
    | refuse x => simp [h1] at h
  · cases h

theorem permit_rel {R : State → State → Prop} (hrefl : ∀ s, R s s) (va : Word) (w : Bool) (pte : Word) (s : State) :
    (permit va w pte s).All (R s) := by
  unfold permit
  split
  · exact hrefl s
  · split <;> exact hrefl s

theorem permit_ok {va : Word} {w : Bool} {pte : Word} {s t : State} {u : Unit} (h : permit va w pte s = .ok u t) : t = s := by
  unfold permit at h
  split at h
  · cases h
  · split at h
    · cases h
    · injection h with _ h
      exact h.symm

/-- A translation leaves a related state, whether it ends in an address or in a fault. -/
theorem toPhysical_rel {w : Bool} {R : State → State → Prop} (hR : TranslationRel w R) (va : Word) (s : State) :
    (toPhysical va w s).All (R s) := by
  have hlook : R s { s with tlb := tlbAfterLookup s va } := by
    unfold tlbAfterLookup
    split
    · rename_i hp
      exact hR.lookup va s hp
    · exact hR.refl s
  cases hvm : s.pmcb.vmEnable with
  | false =>
    rw [toPhysical_physicalMode hvm]
    exact hR.refl s
  | true =>
    cases he : usableEntry s va w with
    | some e =>
      rw [toPhysical_cached hvm he]
      split <;> exact hlook
    | none =>
      rw [toPhysical_walks hvm he]
      refine all_trans hR.trans hlook ?_
      generalize ({ s with tlb := tlbAfterLookup s va } : State) = s0
      unfold translateByWalk
      have hw := walk_rel hR va s0
      refine all_andThen hw fun e1 s1 h1 => ?_
      have hs1 : R s0 s1 := by
        rw [h1] at hw
        exact hw
      obtain ⟨hv, hpte⟩ := walk_ok h1
      refine all_trans hR.trans hs1 ?_
      refine all_andThen (permit_rel hR.refl va w e1.2 s1) fun _ s2 h2 => ?_
      obtain rfl := permit_ok h2
      have hm : (markL2 e1.1 e1.2 w s2).All (R s2) := by
        unfold markL2
        split
        · exact hR.refl _
        · exact mark_rel hR hv hpte
      refine all_andThen hm fun _ s3 h3 => ?_
      have hs3 : R s2 s3 := by
        rw [h3] at hm
        exact hm
      refine hR.trans _ _ _ hs3 ?_
      unfold fillTlb
      split
      · rename_i hp
        exact hR.cache va _ s3 hp
      · exact hR.refl s3

/-- The fields no translation touches (R262): all but PhysicalMemory, BYTE_COUNT and the TLB. -/
structure TranslationFrame (s t : State) : Prop where
  cfg : t.cfg = s.cfg
  pmcb : t.pmcb = s.pmcb
  cmd : t.cmd = s.cmd
  args : t.args = s.args
  res : t.res = s.res
  status : t.status = s.status
  faultAddr : t.faultAddr = s.faultAddr
  hostMem : t.hostMem = s.hostMem
  pending : t.pending = s.pending

theorem translationFrame_rel (w : Bool) : TranslationRel w TranslationFrame where
  refl _ := ⟨rfl, rfl, rfl, rfl, rfl, rfl, rfl, rfl, rfl⟩
  trans _ _ _ h h' :=
    ⟨h'.cfg.trans h.cfg, h'.pmcb.trans h.pmcb, h'.cmd.trans h.cmd, h'.args.trans h.args, h'.res.trans h.res,
      h'.status.trans h.status, h'.faultAddr.trans h.faultAddr, h'.hostMem.trans h.hostMem, h'.pending.trans h.pending⟩
  lookup _ _ _ := ⟨rfl, rfl, rfl, rfl, rfl, rfl, rfl, rfl, rfl⟩
  cache _ _ _ _ := ⟨rfl, rfl, rfl, rfl, rfl, rfl, rfl, rfl, rfl⟩
  read _ := ⟨rfl, rfl, rfl, rfl, rfl, rfl, rfl, rfl, rfl⟩
  mark _ _ _ := ⟨rfl, rfl, rfl, rfl, rfl, rfl, rfl, rfl, rfl⟩

theorem toPhysical_frame_ok {va pa : Word} {w : Bool} {s t : State} (h : toPhysical va w s = .ok pa t) :
    TranslationFrame s t := by
  have := toPhysical_rel (translationFrame_rel w) va s
  rwa [h] at this

theorem toPhysical_frame_raised {va : Word} {w : Bool} {s t : State} {f : MmuFault}
    (h : toPhysical va w s = .raised f t) : TranslationFrame s t := by
  have := toPhysical_rel (translationFrame_rel w) va s
  rwa [h] at this

/-- A translation is never refused. -/
theorem toPhysical_ne_refuse (va : Word) (w : Bool) (s : State) (x : Refusal) : toPhysical va w s ≠ .refuse x := by
  cases hvm : s.pmcb.vmEnable with
  | false => simp [toPhysical_physicalMode hvm]
  | true =>
    cases he : usableEntry s va w with
    | some e =>
      rw [toPhysical_cached hvm he]
      split <;> simp
    | none =>
      rw [toPhysical_walks hvm he]
      generalize ({ s with tlb := tlbAfterLookup s va } : State) = s0
      cases ha : pageAligned s0.pmcb.pageTableBase with
      | false => simp [translateByWalk_misaligned ha]
      | true =>
        cases h1 : validRange s0.cfg.size (l1Address s0 va) 4#32 with
        | false => simp [translateByWalk_l1Outside ha h1]
        | true =>
          cases hp : pteP (l1Word s0 va) with
          | false => simp [translateByWalk_l1Absent ha h1 hp]
          | true =>
            cases h2 : validRange s0.cfg.size (l2Address s0 va) 4#32 with
            | false => simp [translateByWalk_l2Outside ha h1 hp h2]
            | true =>
              cases hp2 : pteP (l2Word s0 va w) with
              | false => simp [translateByWalk_l2Absent ha h1 hp h2 hp2]
              | true =>
                cases w with
                | false => simp [translateByWalk_ok ha h1 hp h2 hp2 (by simp)]
                | true =>
                  cases hw : pteW (l2Word s0 va true) with
                  | false => simp [translateByWalk_readOnly ha h1 hp h2 hp2 hw]
                  | true => simp [translateByWalk_ok ha h1 hp h2 hp2 (fun _ => hw)]

end Sys2Proof.Machine
end

