-- ==== Sys2Proof/Laws/Transfer.lean ====
section
/-! SUPPORT. Execute said once (44_transfer.md R290 to R298): the size of a chunk, what one chunk does, the loop without its fuel, and
one lemma that carries any reflexive and transitive relation across a transfer. -/

namespace Sys2Proof.Machine

/-! ### The size of a chunk (R293) -/

theorem pageOffset_toNat (va : Word) : (pageOffset va).toNat = va.toNat % 4096 := by
  unfold pageOffset
  rw [BitVec.toNat_and, show (0x00000FFF#32 : Word).toNat = 2 ^ 12 - 1 from rfl, Nat.and_two_pow_sub_one_eq_mod]

theorem chunkSize_toNat (rem va : Word) : (chunkSize rem va).toNat = min rem.toNat (4096 - va.toNat % 4096) := by
  have h := pageOffset_toNat va
  have hlt : va.toNat % 4096 < 4096 := Nat.mod_lt _ (by decide)
  have hsub : (4096#32 - pageOffset va).toNat = 4096 - va.toNat % 4096 := by
    rw [BitVec.toNat_sub, h]
    show (2 ^ 32 - va.toNat % 4096 + 4096) % 2 ^ 32 = _
    omega
  unfold chunkSize
  simp only [BitVec.le_def, hsub]
  split
  · omega
  · rw [hsub]
    omega

theorem chunkSize_le (rem va : Word) : (chunkSize rem va).toNat ≤ rem.toNat := by
  rw [chunkSize_toNat]
  omega

theorem chunkSize_pos {rem va : Word} (h : rem ≠ 0#32) : 1 ≤ (chunkSize rem va).toNat := by
  have hlt : va.toNat % 4096 < 4096 := Nat.mod_lt _ (by decide)
  have : rem.toNat ≠ 0 := fun h0 => h (BitVec.eq_of_toNat_eq (by simpa using h0))
  rw [chunkSize_toNat]
  omega

/-! ### One chunk (R292 to R295) -/

/-- The states between which a successful data move goes (R294). -/
def movedState (isWrite : Bool) (pa buf n : Word) (s : State) : State :=
  if isWrite then
    countBytes n { s with pm := s.pm.writeBytes pa.toNat (s.hostMem.readBytes buf.toNat n.toNat) }
  else
    countBytes n { s with hostMem := s.hostMem.writeBytes buf.toNat (s.pm.readBytes pa.toNat n.toNat) }

theorem movedState_get (pa buf n : Word) (s : State) : movedState false pa buf n s =
    countBytes n { s with hostMem := s.hostMem.writeBytes buf.toNat (s.pm.readBytes pa.toNat n.toNat) } := rfl

theorem movedState_put (pa buf n : Word) (s : State) : movedState true pa buf n s =
    countBytes n { s with pm := s.pm.writeBytes pa.toNat (s.hostMem.readBytes buf.toNat n.toNat) } := rfl

theorem moveChunk_inBounds {isWrite : Bool} {pa buf n : Word} {s : State} (hh : hostInRange s buf n = true)
    (hv : validRange s.cfg.size pa n = true) : moveChunk isWrite pa buf n s = .ok () (movedState isWrite pa buf n s) := by
  unfold moveChunk movedState
  rw [requireHostRange_inRange hh]
  cases isWrite with
  | true => simp [hostRead_inRange hh, memWrite_valid hv]
  | false =>
    simp only [andThen_ok, memRead_valid hv, Bool.false_eq_true, if_false]
    rw [hostWrite_inRange (by simpa using hh) (by simp)]
    rfl

theorem moveChunk_outside {isWrite : Bool} {pa buf n : Word} {s : State} (hh : hostInRange s buf n = true)
    (hv : validRange s.cfg.size pa n = false) :
    moveChunk isWrite pa buf n s = .raised (.physicalMemoryBounds pa) s := by
  unfold moveChunk
  rw [requireHostRange_inRange hh]
  cases isWrite with
  | true => simp [hostRead_inRange hh, memWrite_invalid hv]
  | false => simp [memRead_invalid hv]

theorem moveChunk_refused {isWrite : Bool} {pa buf n : Word} {s : State} (hh : hostInRange s buf n = false) :
    moveChunk isWrite pa buf n s = .refuse .hostBufferRange := by
  unfold moveChunk
  rw [requireHostRange_outside hh]
  rfl

/-- The bytes the next chunk moves. -/
def nextChunk (s : State) : Word := chunkSize s.pmcb.remainingCount s.pmcb.nextVaddress

/-- A chunk after its translation. -/
theorem transferChunk_translated {isWrite : Bool} {pa : Word} {s t : State}
    (h : toPhysical s.pmcb.nextVaddress isWrite s = .ok pa t) :
    transferChunk isWrite s =
      (moveChunk isWrite pa s.pmcb.userBuffer (nextChunk s) t).andThen fun _ u => .ok () (advanceCursor (nextChunk s) u) := by
  have hp := (toPhysical_frame_ok h).pmcb
  rw [transferChunk, h]
  simp only [andThen_ok, hp]
  rfl

/-- What a chunk that succeeds did. -/
theorem transferChunk_ok {isWrite : Bool} {s u : State} {x : Unit} (h : transferChunk isWrite s = .ok x u) :
    ∃ pa t, toPhysical s.pmcb.nextVaddress isWrite s = .ok pa t ∧ hostInRange t s.pmcb.userBuffer (nextChunk s) = true ∧
      validRange t.cfg.size pa (nextChunk s) = true ∧
      u = advanceCursor (nextChunk s) (movedState isWrite pa s.pmcb.userBuffer (nextChunk s) t) := by
  cases ht : toPhysical s.pmcb.nextVaddress isWrite s with
  | ok pa t =>
    rw [transferChunk_translated ht] at h
    refine ⟨pa, t, rfl, ?_⟩
    cases hh : hostInRange t s.pmcb.userBuffer (nextChunk s) with
    | false => simp [moveChunk_refused hh] at h
    | true =>
      cases hv : validRange t.cfg.size pa (nextChunk s) with
      | false => simp [moveChunk_outside hh hv] at h
      | true =>
        rw [moveChunk_inBounds hh hv, andThen_ok] at h
        injection h with _ h
        exact ⟨rfl, rfl, h.symm⟩
  | raised f t => simp [transferChunk, ht] at h
  | refuse r => simp [transferChunk, ht] at h

/-- What a chunk that faults did: its translation faulted, or its data lies outside PhysicalMemory. No byte of it moved. -/
theorem transferChunk_raised {isWrite : Bool} {s u : State} {f : MmuFault} (h : transferChunk isWrite s = .raised f u) :
    toPhysical s.pmcb.nextVaddress isWrite s = .raised f u ∨
    ∃ pa, toPhysical s.pmcb.nextVaddress isWrite s = .ok pa u ∧ f = .physicalMemoryBounds pa ∧
      hostInRange u s.pmcb.userBuffer (nextChunk s) = true ∧ validRange u.cfg.size pa (nextChunk s) = false := by
  cases ht : toPhysical s.pmcb.nextVaddress isWrite s with
  | ok pa t =>
    rw [transferChunk_translated ht] at h
    cases hh : hostInRange t s.pmcb.userBuffer (nextChunk s) with
    | false => simp [moveChunk_refused hh] at h
    | true =>
      cases hv : validRange t.cfg.size pa (nextChunk s) with
      | false =>
        rw [moveChunk_outside hh hv, andThen_raised] at h
        injection h with h1 h2
        subst h1
        subst h2
        exact .inr ⟨pa, rfl, rfl, hh, hv⟩
      | true => simp [moveChunk_inBounds hh hv] at h
  | raised g t =>
    rw [transferChunk, ht, andThen_raised] at h
    injection h with h1 h2
    subst h1
    subst h2
    exact .inl rfl
  | refuse r => exact absurd ht (toPhysical_ne_refuse _ _ _ _)

@[simp] theorem movedState_pmcb (isWrite : Bool) (pa buf n : Word) (s : State) :
    (movedState isWrite pa buf n s).pmcb = s.pmcb := by
  unfold movedState
  split <;> rfl

/-- The PMCB after a chunk that succeeded (R295). -/
theorem transferChunk_pmcb {isWrite : Bool} {s u : State} {x : Unit} (h : transferChunk isWrite s = .ok x u) :
    u.pmcb = { s.pmcb with
      nextVaddress := s.pmcb.nextVaddress + nextChunk s
      userBuffer := s.pmcb.userBuffer + nextChunk s
      remainingCount := s.pmcb.remainingCount - nextChunk s } := by
  obtain ⟨pa, t, ht, -, -, rfl⟩ := transferChunk_ok h
  simp only [advanceCursor, movedState_pmcb, (toPhysical_frame_ok ht).pmcb]

/-- The PMCB after a chunk that faulted: the checkpoint is the cursor before it (R296). -/
theorem transferChunk_raised_pmcb {isWrite : Bool} {s u : State} {f : MmuFault}
    (h : transferChunk isWrite s = .raised f u) : u.pmcb = s.pmcb := by
  rcases transferChunk_raised h with h | ⟨pa, h, -⟩
  · exact (toPhysical_frame_raised h).pmcb
  · exact (toPhysical_frame_ok h).pmcb

/-- Fewer bytes remain after a chunk. -/
theorem transferChunk_remaining {isWrite : Bool} {s u : State} {x : Unit} (h : transferChunk isWrite s = .ok x u) :
    u.pmcb.remainingCount.toNat = s.pmcb.remainingCount.toNat - (nextChunk s).toNat := by
  rw [transferChunk_pmcb h]
  exact BitVec.toNat_sub_of_le (by rw [BitVec.le_def]; exact chunkSize_le _ _)

/-! ### The loop (R298) -/

theorem executeLoop_done {isWrite : Bool} {s : State} (h : s.pmcb.remainingCount = 0#32) (k : Nat) :
    executeLoop isWrite k s = .ok () (completeTransfer s) := by
  cases k with
  | zero => rfl
  | succ k => rw [executeLoop, if_pos h]

theorem executeLoop_succ {isWrite : Bool} {s : State} (h : s.pmcb.remainingCount ≠ 0#32) (k : Nat) :
    executeLoop isWrite (k + 1) s = (transferChunk isWrite s).andThen fun _ t => executeLoop isWrite k t := by
  rw [executeLoop, if_neg h]

theorem toNat_ne_zero {w : Word} (h : w ≠ 0#32) : w.toNat ≠ 0 := fun h0 => h (BitVec.eq_of_toNat_eq (by simpa using h0))

/-- Fuel of remaining_count iterations is enough: more changes nothing (log 10). -/
theorem executeLoop_fuel {isWrite : Bool} (k : Nat) : ∀ s : State, s.pmcb.remainingCount.toNat ≤ k →
    executeLoop isWrite k s = executeLoop isWrite s.pmcb.remainingCount.toNat s := by
  induction k using Nat.strong_induction_on with
  | _ k ih =>
    intro s hk
    by_cases h0 : s.pmcb.remainingCount = 0#32
    · rw [executeLoop_done h0, executeLoop_done h0]
    · have hne := toNat_ne_zero h0
      obtain ⟨k, rfl⟩ : ∃ j, k = j + 1 := ⟨k - 1, by omega⟩
      obtain ⟨r, hr⟩ : ∃ j, s.pmcb.remainingCount.toNat = j + 1 := ⟨s.pmcb.remainingCount.toNat - 1, by omega⟩
      rw [hr, executeLoop_succ h0, executeLoop_succ h0]
      cases hc : transferChunk isWrite s with
      | ok x t =>
        have hrem := transferChunk_remaining hc
        have hpos : 1 ≤ (nextChunk s).toNat := chunkSize_pos h0
        simp only [andThen_ok]
        rw [ih k (by omega) t (by omega)]
        rcases Nat.lt_or_ge r k with hlt | hge
        · rw [ih r (by omega) t (by omega)]
        · obtain rfl : r = k := by omega
          rw [ih r (by omega) t (by omega)]
      | raised f t => rfl
      | refuse x => rfl

/-- Execute's loop as a `while` (R298): one chunk, then the loop again. -/
theorem executeLoop_while {isWrite : Bool} {s : State} (h : s.pmcb.remainingCount ≠ 0#32) :
    executeLoop isWrite s.pmcb.remainingCount.toNat s =
      (transferChunk isWrite s).andThen fun _ t => executeLoop isWrite t.pmcb.remainingCount.toNat t := by
  obtain ⟨r, hr⟩ : ∃ j, s.pmcb.remainingCount.toNat = j + 1 := ⟨s.pmcb.remainingCount.toNat - 1, by
    have := toNat_ne_zero h
    omega⟩
  rw [hr, executeLoop_succ h]
  cases hc : transferChunk isWrite s with
  | ok x t =>
    have hrem := transferChunk_remaining hc
    have hpos : 1 ≤ (nextChunk s).toNat := chunkSize_pos h
    simp only [andThen_ok]
    exact executeLoop_fuel r t (by omega)
  | raised f t => rfl
  | refuse x => rfl

/-- A property of the loop's states proved once: it holds where the loop ends, it holds where a chunk faults, and a chunk carries it
back from the rest of the loop. -/
theorem executeLoop_induction {isWrite : Bool} {P : State → Result Unit → Prop}
    (done : ∀ s, s.pmcb.remainingCount = 0#32 → P s (.ok () (completeTransfer s)))
    (raised : ∀ s f t, s.pmcb.remainingCount ≠ 0#32 → transferChunk isWrite s = .raised f t → P s (.raised f t))
    (refused : ∀ s x, s.pmcb.remainingCount ≠ 0#32 → transferChunk isWrite s = .refuse x → P s (.refuse x))
    (chunk : ∀ s t r, s.pmcb.remainingCount ≠ 0#32 → transferChunk isWrite s = .ok () t →
      executeLoop isWrite t.pmcb.remainingCount.toNat t = r → P t r → P s r)
    (s : State) : P s (executeLoop isWrite s.pmcb.remainingCount.toNat s) := by
  generalize hn : s.pmcb.remainingCount.toNat = n
  induction n using Nat.strong_induction_on generalizing s with
  | _ n ih =>
    subst hn
    by_cases h0 : s.pmcb.remainingCount = 0#32
    · rw [executeLoop_done h0]
      exact done s h0
    · rw [executeLoop_while h0]
      cases hc : transferChunk isWrite s with
      | ok x t =>
        have hrem := transferChunk_remaining hc
        have hpos : 1 ≤ (nextChunk s).toNat := chunkSize_pos h0
        have hle : (nextChunk s).toNat ≤ s.pmcb.remainingCount.toNat := chunkSize_le _ _
        simp only [andThen_ok]
        exact chunk s t _ h0 hc rfl (ih _ (by omega) t rfl)
      | raised f t => exact raised s f t h0 hc
      | refuse x => exact refused s x h0 hc

/-! ### What every transfer keeps -/

/-- A relation each effect of a transfer respects: the effects of its translations, the data moves, the cursor and the end. -/
structure TransferRel (isWrite : Bool) (R : State → State → Prop) : Prop extends TranslationRel isWrite R where
  move : ∀ pa buf n s, hostInRange s buf n = true → validRange s.cfg.size pa n = true →
    R s (movedState isWrite pa buf n s)
  advance : ∀ n s, R s (advanceCursor n s)
  complete : ∀ s, R s (completeTransfer s)

theorem transferChunk_rel {isWrite : Bool} {R : State → State → Prop} (hR : TransferRel isWrite R) (s : State) :
    (transferChunk isWrite s).All (R s) := by
  have ht := toPhysical_rel hR.toTranslationRel s.pmcb.nextVaddress s
  cases hc : transferChunk isWrite s with
  | ok x u =>
    obtain ⟨pa, t, h, hh, hv, rfl⟩ := transferChunk_ok hc
    rw [h] at ht
    exact hR.trans _ _ _ ht (hR.trans _ _ _ (hR.move pa _ _ t hh hv) (hR.advance _ _))
  | raised f u =>
    rcases transferChunk_raised hc with h | ⟨pa, h, -⟩ <;> rw [h] at ht <;> exact ht
  | refuse x => trivial

theorem executeLoop_rel {isWrite : Bool} {R : State → State → Prop} (hR : TransferRel isWrite R) (s : State) :
    (executeLoop isWrite s.pmcb.remainingCount.toNat s).All (R s) := by
  refine executeLoop_induction (P := fun s r => r.All (R s)) ?_ ?_ ?_ ?_ s
  · intro s _
    exact hR.complete s
  · intro s f t _ hc
    have := transferChunk_rel hR s
    rwa [hc] at this
  · intro s x _ _
    trivial
  · intro s t r _ hc _ hr
    have := transferChunk_rel hR s
    rw [hc] at this
    exact all_trans hR.trans this hr

/-- Execute leaves a related state, for a relation respected by a get and by a put. -/
theorem execute_rel {R : State → State → Prop} (hg : TransferRel false R) (hp : TransferRel true R) (s : State) :
    (execute s).All (R s) := by
  unfold execute
  split
  · split
    · exact hg.refl s
    · exact hg.refl s
  · exact hg.refl s
  · exact executeLoop_rel hg s
  · exact executeLoop_rel hp s

@[simp] theorem execute_read {s : State} (h : s.pmcb.operationState = .read) :
    execute s = executeLoop false s.pmcb.remainingCount.toNat s := by
  simp [execute, h]

@[simp] theorem execute_write {s : State} (h : s.pmcb.operationState = .write) :
    execute s = executeLoop true s.pmcb.remainingCount.toNat s := by
  simp [execute, h]

end Sys2Proof.Machine
end

