-- ==== Sys2Proof/Laws/Commute.lean ====
section
/-! SUPPORT. State that a translation and a transfer do not look at: a change of such state commutes with them, so two runs that differ
there only stay alike (10_state.md R47 for BYTE_COUNT, 30_encoding.md R123 for the ARG registers). -/

namespace Sys2Proof.Machine

/-- `g` changes nothing that a translation or the move of a chunk reads, and commutes with each write they make. -/
structure UnreadByChunk (g : State → State) : Prop where
  cfg : ∀ s, (g s).cfg = s.cfg
  vmEnable : ∀ s, (g s).pmcb.vmEnable = s.pmcb.vmEnable
  pageTableBase : ∀ s, (g s).pmcb.pageTableBase = s.pmcb.pageTableBase
  pm : ∀ s, (g s).pm = s.pm
  tlb : ∀ s, (g s).tlb = s.tlb
  hostMem : ∀ s, (g s).hostMem = s.hostMem
  setPm : ∀ s m, g { s with pm := m } = { g s with pm := m }
  setTlb : ∀ s t, g { s with tlb := t } = { g s with tlb := t }
  setHostMem : ∀ s m, g { s with hostMem := m } = { g s with hostMem := m }
  count : ∀ s n, g (countBytes n s) = countBytes n (g s)

/-- `g` changes nothing that Execute reads, and commutes with each write it makes. -/
structure Unread (g : State → State) : Prop extends UnreadByChunk g where
  pmcb : ∀ s, (g s).pmcb = s.pmcb
  setPmcb : ∀ s p, g { s with pmcb := p } = { g s with pmcb := p }

/-- The ARG registers are not read by a translation or a transfer. -/
theorem unread_args (v : Vector Word 5) : Unread (fun s => { s with args := v }) where
  cfg _ := rfl
  vmEnable _ := rfl
  pageTableBase _ := rfl
  pm _ := rfl
  tlb _ := rfl
  hostMem _ := rfl
  setPm _ _ := rfl
  setTlb _ _ := rfl
  setHostMem _ _ := rfl
  count _ _ := rfl
  pmcb _ := rfl
  setPmcb _ _ := rfl

/-- BYTE_COUNT is not read by a translation or a transfer, which only add to it. -/
theorem unread_byteCount (d : Count) : Unread (fun s => { s with byteCount := s.byteCount + d }) where
  cfg _ := rfl
  vmEnable _ := rfl
  pageTableBase _ := rfl
  pm _ := rfl
  tlb _ := rfl
  hostMem _ := rfl
  setPm _ _ := rfl
  setTlb _ _ := rfl
  setHostMem _ _ := rfl
  count s n := by
    simp only [countBytes, BitVec.add_assoc]
    rw [BitVec.add_comm (n.setWidth 64) d]
  pmcb _ := rfl
  setPmcb _ _ := rfl

/-- The transfer fields of the PMCB are not read by a translation or a data move. -/
theorem unread_transferFields (op : OperationState) (va n buf : Word) : UnreadByChunk (startTransfer op va n buf) where
  cfg _ := rfl
  vmEnable _ := rfl
  pageTableBase _ := rfl
  pm _ := rfl
  tlb _ := rfl
  hostMem _ := rfl
  setPm _ _ := rfl
  setTlb _ _ := rfl
  setHostMem _ _ := rfl
  count _ _ := rfl

theorem mapState_andThen {α β : Type} {g : State → State} (r : Result α) {k k' : α → State → Result β}
    (h : ∀ a s, k' a (g s) = (k a s).mapState g) : (r.mapState g).andThen k' = (r.andThen k).mapState g := by
  cases r with
  | ok a s => exact h a s
  | raised f s => rfl
  | refuse x => rfl

variable {g : State → State}

theorem UnreadByChunk.memRead (hg : UnreadByChunk g) (a n : Word) (s : State) : memRead a n (g s) = (memRead a n s).mapState g := by
  unfold Machine.memRead
  rw [hg.cfg, hg.pm]
  split
  · simp only [Result.mapState, hg.count]
  · rfl

theorem UnreadByChunk.memWrite (hg : UnreadByChunk g) (a n : Word) (b : List Byte) (s : State) :
    memWrite a n b (g s) = (memWrite a n b s).mapState g := by
  unfold Machine.memWrite
  rw [← hg.setPm s, ← hg.count, hg.cfg, hg.pm]
  split
  · rfl
  · rfl

theorem UnreadByChunk.memRead32 (hg : UnreadByChunk g) (a : Word) (s : State) : memRead32 a (g s) = (memRead32 a s).mapState g := by
  unfold Machine.memRead32
  rw [hg.memRead]
  exact mapState_andThen _ fun _ _ => rfl

theorem UnreadByChunk.memWrite32 (hg : UnreadByChunk g) (a v : Word) (s : State) :
    memWrite32 a v (g s) = (memWrite32 a v s).mapState g := hg.memWrite a _ _ s

theorem UnreadByChunk.walk (hg : UnreadByChunk g) (va : Word) (w : Bool) (s : State) : walk va w (g s) = (walk va w s).mapState g := by
  unfold Machine.walk
  rw [hg.pageTableBase]
  split
  · simp only [hg.memRead32]
    refine mapState_andThen _ fun l1 s => ?_
    split
    · have hm : ∀ a, markL1 a l1 w (g s) = (markL1 a l1 w s).mapState g := by
        intro a
        unfold markL1
        split
        · rfl
        · exact hg.memWrite32 _ _ s
      rw [hm]
      refine mapState_andThen _ fun _ s => ?_
      simp only [hg.memRead32]
      exact mapState_andThen _ fun _ _ => rfl
    · rfl
  · rfl

theorem permit_map (va : Word) (w : Bool) (pte : Word) (s : State) :
    permit va w pte (g s) = (permit va w pte s).mapState g := by
  unfold Machine.permit
  split
  · rfl
  · split <;> rfl

theorem UnreadByChunk.consultTlb (hg : UnreadByChunk g) (va : Word) (w : Bool) (s : State) :
    consultTlb va w (g s) = ((consultTlb va w s).1, g (consultTlb va w s).2) := by
  unfold Machine.consultTlb lookupTlb
  rw [← hg.setTlb s, hg.cfg, hg.tlb]
  split <;> rfl

theorem UnreadByChunk.toPhysical (hg : UnreadByChunk g) (va : Word) (w : Bool) (s : State) :
    toPhysical va w (g s) = (toPhysical va w s).mapState g := by
  unfold Machine.toPhysical
  rw [hg.vmEnable, hg.consultTlb]
  split
  · cases hc : (Machine.consultTlb va w s).1 with
    | some pte =>
      simp only [translateCached, permit_map]
      exact mapState_andThen (Machine.permit va w pte (Machine.consultTlb va w s).2)
        (k := fun _ s => .ok (physicalAddress (pteFrame pte) va) s) fun _ _ => rfl
    | none =>
      simp only [translateByWalk]
      rw [hg.walk]
      refine mapState_andThen _ fun e s => ?_
      rw [permit_map]
      refine mapState_andThen _ fun _ s => ?_
      have hm : markL2 e.1 e.2 w (g s) = (markL2 e.1 e.2 w s).mapState g := by
        unfold markL2
        split
        · rfl
        · exact hg.memWrite32 _ _ s
      rw [hm]
      refine mapState_andThen _ fun _ s => ?_
      unfold fillTlb cacheTlb
      rw [← hg.setTlb s, hg.cfg, hg.tlb]
      split <;> rfl
  · rfl

theorem UnreadByChunk.moveChunk (hg : UnreadByChunk g) (isWrite : Bool) (pa buf n : Word) (s : State) :
    moveChunk isWrite pa buf n (g s) = (moveChunk isWrite pa buf n s).mapState g := by
  have hin : ∀ s i n, hostInRange (g s) i n = hostInRange s i n := by
    intro s i n
    unfold hostInRange
    rw [hg.cfg]
  unfold Machine.moveChunk requireHostRange
  rw [hin]
  split
  · simp only [andThen_ok]
    split
    · have hr : hostRead buf n (g s) = (hostRead buf n s).mapState g := by
        unfold hostRead
        rw [hin, hg.hostMem]
        split <;> rfl
      rw [hr]
      exact mapState_andThen _ fun b s => hg.memWrite _ _ _ s
    · rw [hg.memRead]
      refine mapState_andThen _ fun b s => ?_
      unfold hostWrite
      rw [hin, ← hg.setHostMem s, hg.hostMem]
      split <;> rfl
  · rfl

/-- A chunk of the same size moves alike, however many bytes remain after it. -/
theorem transferChunk_remainingCount {isWrite : Bool} (op : OperationState) {m : Word} {s u : State} {x : Unit}
    (hm : chunkSize m s.pmcb.nextVaddress = nextChunk s) (h : Machine.transferChunk isWrite s = .ok x u) :
    Machine.transferChunk isWrite { s with pmcb := { s.pmcb with operationState := op, remainingCount := m } } =
      .ok () { u with pmcb := { u.pmcb with operationState := op, remainingCount := m - nextChunk s } } := by
  have hg := unread_transferFields op s.pmcb.nextVaddress m s.pmcb.userBuffer
  obtain ⟨pa, t, ht, hh, hv, rfl⟩ := transferChunk_ok h
  have ht' := hg.toPhysical s.pmcb.nextVaddress isWrite s
  rw [ht] at ht'
  have hn : nextChunk (startTransfer op s.pmcb.nextVaddress m s.pmcb.userBuffer s) = nextChunk s := hm
  show Machine.transferChunk isWrite (startTransfer op s.pmcb.nextVaddress m s.pmcb.userBuffer s) = _
  rw [transferChunk_translated (by exact ht'), hn, startTransfer_pmcb_userBuffer, hg.moveChunk, moveChunk_inBounds hh hv]
  simp only [Result.mapState, andThen_ok, advanceCursor, startTransfer, movedState_pmcb, (toPhysical_frame_ok ht).pmcb]

theorem Unread.transferChunk (hg : Unread g) (isWrite : Bool) (s : State) :
    transferChunk isWrite (g s) = (transferChunk isWrite s).mapState g := by
  unfold Machine.transferChunk
  rw [hg.pmcb, hg.toPhysical]
  refine mapState_andThen _ fun pa s => ?_
  simp only [hg.moveChunk, hg.pmcb]
  refine mapState_andThen _ fun _ s => ?_
  unfold advanceCursor
  rw [← hg.setPmcb s, hg.pmcb]
  rfl

theorem Unread.completeTransfer (hg : Unread g) (s : State) : completeTransfer (g s) = g (completeTransfer s) := by
  unfold Machine.completeTransfer
  rw [← hg.setPmcb s, hg.pmcb]

theorem Unread.executeLoop (hg : Unread g) (isWrite : Bool) (k : Nat) (s : State) :
    executeLoop isWrite k (g s) = (executeLoop isWrite k s).mapState g := by
  induction k generalizing s with
  | zero => simp only [Machine.executeLoop, Result.mapState, hg.completeTransfer]
  | succ k ih =>
    simp only [Machine.executeLoop, hg.pmcb, hg.transferChunk]
    split
    · simp only [Result.mapState, hg.completeTransfer]
    · exact mapState_andThen _ fun _ s => ih s

/-- Execute does the same, whatever the unread state. -/
theorem Unread.execute (hg : Unread g) (s : State) : execute (g s) = (execute s).mapState g := by
  unfold Machine.execute
  rw [hg.pmcb]
  split
  · rw [hg.cfg]
    split <;> rfl
  · rfl
  · exact hg.executeLoop false _ s
  · exact hg.executeLoop true _ s

end Sys2Proof.Machine
end

