-- ==== Sys2Proof/Laws/Exec.lean ====
section
/-! SUPPORT. Commands said once: what a transfer command runs, when a command is refused, and one lemma that carries any reflexive and
transitive relation across every command. -/

namespace Sys2Proof.Machine

/-- A transfer command is Execute's loop on the loaded state (44_transfer.md R299 to R302). -/
theorem exec_transfer {i : Instr} {s : State} (h : isGet i = true ∨ isPut i = true) :
    exec i s = finishPlain (executeLoop (isPut i) (transferCount i s).toNat (loadedState i s)) := by
  cases i <;> simp [isGet, isPut] at h <;> rfl

/-- Every transfer command is a get or a put, and no command is both. -/
theorem isPut_of_isGet {i : Instr} (h : isGet i = true) : isPut i = false := by
  cases i <;> simp [isGet] at h <;> rfl

/-! ### PM_GET_BYTES and PM_PUT_BYTES -/

theorem execPmGetBytes_refused {s : State} (h : hostInRange s (readArg s 2) (readArg s 1) = false) :
    execPmGetBytes s = .refused .hostBufferRange := by
  simp [execPmGetBytes, finishPlain, requireHostRange_outside h]

theorem execPmGetBytes_outside {s : State} (h : hostInRange s (readArg s 2) (readArg s 1) = true)
    (hv : validRange s.cfg.size (readArg s 0) (readArg s 1) = false) :
    execPmGetBytes s = .next (takeFault (.physicalMemoryBounds (readArg s 0)) s) := by
  simp [execPmGetBytes, finishPlain, requireHostRange_inRange h, memRead_invalid hv]

theorem execPmGetBytes_moved {s : State} (h : hostInRange s (readArg s 2) (readArg s 1) = true)
    (hv : validRange s.cfg.size (readArg s 0) (readArg s 1) = true) :
    execPmGetBytes s = .next (succeed (movedState false (readArg s 0) (readArg s 2) (readArg s 1) s)) := by
  rw [execPmGetBytes, requireHostRange_inRange h]
  simp only [andThen_ok, memRead_valid hv, readArg_countBytes]
  rw [hostWrite_inRange (by simpa using h) (by simp)]
  rfl

theorem execPmPutBytes_refused {s : State} (h : hostInRange s (readArg s 2) (readArg s 1) = false) :
    execPmPutBytes s = .refused .hostBufferRange := by
  simp [execPmPutBytes, finishPlain, requireHostRange_outside h]

theorem execPmPutBytes_outside {s : State} (h : hostInRange s (readArg s 2) (readArg s 1) = true)
    (hv : validRange s.cfg.size (readArg s 0) (readArg s 1) = false) :
    execPmPutBytes s = .next (takeFault (.physicalMemoryBounds (readArg s 0)) s) := by
  simp [execPmPutBytes, finishPlain, requireHostRange_inRange h, hostRead_inRange h, memWrite_invalid hv]

theorem execPmPutBytes_moved {s : State} (h : hostInRange s (readArg s 2) (readArg s 1) = true)
    (hv : validRange s.cfg.size (readArg s 0) (readArg s 1) = true) :
    execPmPutBytes s = .next (succeed (movedState true (readArg s 0) (readArg s 2) (readArg s 1) s)) := by
  rw [execPmPutBytes, requireHostRange_inRange h]
  simp only [andThen_ok, hostRead_inRange h]
  rw [memWrite_valid hv (by simp)]
  rfl

/-! ### What every command keeps -/

/-- A relation each effect of a command respects. -/
structure CommandRel (R : State → State → Prop) : Prop where
  get : TransferRel false R
  put : TransferRel true R
  start : ∀ op va n buf s, R s (startTransfer op va n buf s)
  restore : ∀ w s, R s (restorePmcb w s)
  flush : ∀ s, s.cfg.tlbPresent = true → R s { s with tlb := tlbFlush s.tlb }
  result : ∀ n v s, R s (writeRes n v s)
  success : ∀ s, R s (succeed s)
  fault : ∀ f s, R s (takeFault f s)

variable {R : State → State → Prop}

/-- The end of a command leaves a related state when its result's states are related. -/
theorem CommandRel.finish (hR : CommandRel R) {α : Type} {r : Result α} {g : α → State → State} {s t : State}
    (hr : r.All (R s)) (hg : ∀ a u, R u (g a u)) (h : Machine.finish r g = .next t) : R s t := by
  have tr := hR.get.trans
  rcases finish_next h with ⟨a, u, rfl, rfl⟩ | ⟨f, u, rfl, rfl⟩
  · exact tr _ _ _ hr (tr _ _ _ (hg a u) (hR.success _))
  · exact tr _ _ _ hr (hR.fault f u)

theorem CommandRel.resultPair (hR : CommandRel R) (lo hi : Fin 12) (c : Count) (s : State) :
    R s (writeResPair lo hi c s) := hR.get.trans _ _ _ (hR.result lo _ s) (hR.result hi _ _)

/-- Every command that does not stop leaves a related state. -/
theorem exec_rel (hR : CommandRel R) {i : Instr} {s t : State} (h : exec i s = .next t) : R s t := by
  have tr := hR.get.trans
  have rf := hR.get.refl
  have run : ∀ u, R s u → (execute u).All (R s) := fun u hu => all_trans tr hu (execute_rel hR.get hR.put u)
  cases i with
  | getByte => exact hR.finish (run _ (hR.start _ _ _ _ s)) (fun _ u => rf u) h
  | getBytes => exact hR.finish (run _ (hR.start _ _ _ _ s)) (fun _ u => rf u) h
  | putByte => exact hR.finish (run _ (hR.start _ _ _ _ s)) (fun _ u => rf u) h
  | putBytes => exact hR.finish (run _ (hR.start _ _ _ _ s)) (fun _ u => rf u) h
  | getPmcb =>
    simp only [exec, execGetPmcb, Host.Outcome.next.injEq] at h
    subst h
    exact tr _ _ _ (tr _ _ _ (hR.result _ _ s) (tr _ _ _ (hR.result _ _ _) (tr _ _ _ (hR.result _ _ _)
      (tr _ _ _ (hR.result _ _ _) (hR.result _ _ _))))) (hR.success _)
  | setPmcb =>
    refine hR.finish (r := resumePending (restorePmcb (readImage s) s)) ?_ (fun _ u => rf u) h
    unfold resumePending
    split
    · exact hR.restore _ s
    · exact run _ (hR.restore _ s)
  | toPhysical wr =>
    refine hR.finish (r := toPhysical (readArg s 0) wr s) ?_ (fun v u => hR.result 0 v u) h
    cases wr
    · exact toPhysical_rel hR.get.toTranslationRel _ s
    · exact toPhysical_rel hR.put.toTranslationRel _ s
  | flushTlb =>
    simp only [exec, execFlushTlb, Host.Outcome.next.injEq] at h
    subst h
    split
    · rename_i hp
      exact tr _ _ _ (hR.flush s hp) (hR.success _)
    · exact hR.success _
  | getTlbStats =>
    refine hR.finish (r := requireTlb s) ?_ (fun _ u => ?_) h
    · unfold requireTlb
      split <;> exact rf s
    · exact tr _ _ _ (hR.resultPair _ _ _ u) (tr _ _ _ (hR.resultPair _ _ _ _) (tr _ _ _ (hR.resultPair _ _ _ _)
        (tr _ _ _ (hR.resultPair _ _ _ _) (tr _ _ _ (hR.resultPair _ _ _ _) (hR.resultPair _ _ _ _)))))
  | getFrameCount =>
    simp only [exec, execGetFrameCount, Host.Outcome.next.injEq] at h
    subst h
    exact tr _ _ _ (hR.result _ _ s) (hR.success _)
  | getByteCount =>
    simp only [exec, execGetByteCount, Host.Outcome.next.injEq] at h
    subst h
    exact tr _ _ _ (hR.resultPair _ _ _ s) (hR.success _)
  | pmGetBytes =>
    simp only [exec] at h
    cases hh : hostInRange s (readArg s 2) (readArg s 1) with
    | false => simp [execPmGetBytes_refused hh] at h
    | true =>
      cases hv : validRange s.cfg.size (readArg s 0) (readArg s 1) with
      | false =>
        obtain rfl : takeFault _ s = t := by simpa [execPmGetBytes_outside hh hv] using h
        exact hR.fault _ s
      | true =>
        obtain rfl : succeed _ = t := by simpa [execPmGetBytes_moved hh hv] using h
        exact tr _ _ _ (hR.get.move _ _ _ s hh hv) (hR.success _)
  | pmPutBytes =>
    simp only [exec] at h
    cases hh : hostInRange s (readArg s 2) (readArg s 1) with
    | false => simp [execPmPutBytes_refused hh] at h
    | true =>
      cases hv : validRange s.cfg.size (readArg s 0) (readArg s 1) with
      | false =>
        obtain rfl : takeFault _ s = t := by simpa [execPmPutBytes_outside hh hv] using h
        exact hR.fault _ s
      | true =>
        obtain rfl : succeed _ = t := by simpa [execPmPutBytes_moved hh hv] using h
        exact tr _ _ _ (hR.put.move _ _ _ s hh hv) (hR.success _)
  | pmGet32 => exact hR.finish (memRead32_rel hR.get.toTranslationRel _ s) (fun v u => hR.result 0 v u) h
  | tlbLookup =>
    refine hR.finish (r := (requireTlb s).andThen fun _ s => .ok (lookupTlb (readArg s 0) s).1 (lookupTlb (readArg s 0) s).2)
      ?_ (fun v u => hR.result 0 v u) h
    unfold requireTlb
    split
    · rename_i hp
      exact hR.get.lookup _ s hp
    · exact rf s
  | tlbCache =>
    refine hR.finish (r := (requireTlb s).andThen fun _ s => .ok () (cacheTlb (readArg s 0) (readArg s 1) s)) ?_
      (fun _ u => rf u) h
    unfold requireTlb
    split
    · rename_i hp
      exact hR.get.cache _ _ s hp
    · exact rf s

/-! ### The configuration and the invariant -/

/-- No command changes the configuration (10_state.md R33). -/
theorem cfg_commandRel : CommandRel (fun s t => t.cfg = s.cfg) := by
  have ht : ∀ w, TransferRel w (fun s t => t.cfg = s.cfg) := fun w =>
    { refl := fun _ => rfl
      trans := fun _ _ _ h h' => h'.trans h
      lookup := fun _ _ _ => rfl
      cache := fun _ _ _ _ => rfl
      read := fun _ => rfl
      mark := fun _ _ _ => rfl
      move := fun _ _ _ _ _ _ => by unfold movedState; split <;> rfl
      advance := fun _ _ => rfl
      complete := fun _ => rfl }
  exact
    { get := ht false
      put := ht true
      start := fun _ _ _ _ _ => rfl
      restore := fun _ _ => rfl
      flush := fun _ _ => rfl
      result := fun _ _ _ => rfl
      success := fun _ => rfl
      fault := fun _ _ => rfl }

theorem exec_cfg {i : Instr} {s t : State} (h : exec i s = .next t) : t.cfg = s.cfg := exec_rel cfg_commandRel h

theorem inv_iff (s : State) : s.inv = true ↔ s.cfg.legal = true ∧ s.pm.wf = true ∧ s.pm.below s.cfg.size = true ∧
    s.hostMem.wf = true ∧ s.hostMem.below s.cfg.hostMemSize = true ∧ s.tlb.wf s.cfg = true := by
  simp [State.inv, and_assoc]

theorem hostInRange_iff (s : State) (i n : Word) :
    hostInRange s i n = true ↔ i.toNat + n.toNat ≤ s.cfg.hostMemSize := by
  simp [hostInRange]

end Sys2Proof.Machine
end

