-- ==== Sys2Proof/Laws/PerInstr.lean ====
section
/-! SUPPORT. Facts about each command as syntax, one lemma per constructor. -/

namespace Sys2Proof.Laws.TableRow

/-- The command's fields are well formed, and its word selects exactly one row of the opcode map (30_encoding.md R122, R126). -/
def Statement (i : Instr) : Prop :=
  i.wellFormed = true ∧ (opcodeTable.filter (fun r => r.selects (encode i))).length = 1

theorem getByte : Statement .getByte := ⟨by decide, by decide⟩

theorem getBytes : Statement .getBytes := ⟨by decide, by decide⟩

theorem putByte : Statement .putByte := ⟨by decide, by decide⟩

theorem putBytes : Statement .putBytes := ⟨by decide, by decide⟩

theorem getPmcb : Statement .getPmcb := ⟨by decide, by decide⟩

theorem setPmcb : Statement .setPmcb := ⟨by decide, by decide⟩

theorem toPhysical (wr : Bool) : Statement (.toPhysical wr) := by
  cases wr <;> exact ⟨by decide, by decide⟩

theorem flushTlb : Statement .flushTlb := ⟨by decide, by decide⟩

theorem getTlbStats : Statement .getTlbStats := ⟨by decide, by decide⟩

theorem getFrameCount : Statement .getFrameCount := ⟨by decide, by decide⟩

theorem getByteCount : Statement .getByteCount := ⟨by decide, by decide⟩

theorem pmGetBytes : Statement .pmGetBytes := ⟨by decide, by decide⟩

theorem pmPutBytes : Statement .pmPutBytes := ⟨by decide, by decide⟩

theorem pmGet32 : Statement .pmGet32 := ⟨by decide, by decide⟩

theorem tlbLookup : Statement .tlbLookup := ⟨by decide, by decide⟩

theorem tlbCache : Statement .tlbCache := ⟨by decide, by decide⟩

end Sys2Proof.Laws.TableRow
end

