-- ==== Sys2Proof/Tests/Slice0.lean ====
section
/-! SUPPORT. The model's own tests. Expected values come from the spec: its encodings (30_encoding.md R126) and its vectors
(95_test_vectors.md), whose ids the comments name. The last part shows, for every obligation that has hypotheses, a state and
operands that meet them. -/

namespace Sys2Proof.Tests

open Sys2Proof Sys2Proof.Machine

/-! ### Helpers -/

/-- The next state of an outcome. -/
def nextOf (o : Host.Outcome State Fault Refusal) : Option State :=
  match o with
  | .next s => some s
  | .fault _ => none
  | .refused _ => none

/-- The refusal of an outcome. -/
def refusalOf (o : Host.Outcome State Fault Refusal) : Option Refusal :=
  match o with
  | .refused r => some r
  | .next _ => none
  | .fault _ => none

/-- What a decoding gives. -/
def decoded (w : Word) : Option Instr :=
  match decode w with
  | .ok i => some i
  | .error _ => none

/-- The name of a word's rejection. -/
def rejected (w : Word) : Option DecodeReject :=
  match decode w with
  | .ok _ => none
  | .error e => some e

/-- An outcome is a next state that satisfies `p`. -/
def ends (o : Host.Outcome State Fault Refusal) (p : State → Bool) : Bool := (nextOf o).any p

/-- A result is a value and a state that satisfy `p`. -/
def okWith {α : Type} (r : Result α) (p : α → State → Bool) : Bool :=
  match r with
  | .ok a s => p a s
  | .raised _ _ => false
  | .refuse _ => false

/-- A result is a raised fault. -/
def isRaised {α : Type} (r : Result α) : Bool :=
  match r with
  | .raised _ _ => true
  | .ok _ _ => false
  | .refuse _ => false

theorem exists_of_ends {o : Host.Outcome State Fault Refusal} {p : State → Bool} (h : ends o p = true) :
    ∃ t, o = .next t ∧ p t = true := by
  cases o with
  | next s => exact ⟨s, rfl, by simpa [ends, nextOf] using h⟩
  | fault f => simp [ends, nextOf] at h
  | refused r => simp [ends, nextOf] at h

theorem exists_of_okWith {α : Type} {r : Result α} {p : α → State → Bool} (h : okWith r p = true) :
    ∃ a t, r = .ok a t ∧ p a t = true := by
  cases r with
  | ok a s => exact ⟨a, s, rfl, h⟩
  | raised f s => simp [okWith] at h
  | refuse x => simp [okWith] at h

theorem exists_of_isRaised {α : Type} {r : Result α} (h : isRaised r = true) : ∃ f t, r = .raised f t := by
  cases r with
  | raised f s => exact ⟨f, s, rfl⟩
  | ok a s => simp [isRaised] at h
  | refuse x => simp [isRaised] at h

/-- ARG0 to ARG4 set. -/
def withArgs (a0 a1 a2 a3 a4 : Word) (s : State) : State := { s with args := #v[a0, a1, a2, a3, a4] }

/-- PhysicalMemory with a little-endian word stored at each address. -/
def withWords (ws : List (Word × Word)) (s : State) : State :=
  { s with pm := ws.foldl (fun m w => pmPutWord m w.1 w.2) s.pm }

/-- HostMem with bytes stored from an index on. -/
def withHost (i : Nat) (bytes : List Byte) (s : State) : State := { s with hostMem := s.hostMem.writeBytes i bytes }

/-- The configuration of the spec's setup S1. -/
def cfgS1 : Config := { frameCount := 32, tlbPresent := true, tlbCapacity := 4, hostMemSize := 64 }

/-- The spec's setup S1. -/
def s1 : State :=
  withWords [(0x1010#32, 0x2003#32), (0x28D0#32, 0x1E003#32)]
    { State.reset with cfg := cfgS1, pmcb := { Pmcb.reset with vmEnable := true, pageTableBase := 0x1000#32 } }

/-- S1 in physical mode. -/
def s1Phys : State := { s1 with pmcb := { s1.pmcb with vmEnable := false } }

/-- S1 without a TLB. -/
def s1NoTlb : State := { s1 with cfg := { cfgS1 with tlbPresent := false } }

/-- S1 with a TLB of capacity 2 that holds the entries of vectors TL1 and TL2. -/
def s1Full : State :=
  { s1Phys with
    cfg := { cfgS1 with tlbCapacity := 2 }
    tlb := tlbInsert 2 0x2000#32 0x6001#32 (tlbInsert 2 0x1000#32 0x5001#32 Tlb.reset) }

/-- S1 with one entry cached for 0x01234000. -/
def s1Cached (pte : Word) : State := { s1 with tlb := tlbInsert 4 0x01234000#32 pte Tlb.reset }

/-- S1 with the second page of vector EX1 mapped. -/
def s1Two : State := withWords [(0x28D4#32, 0x1F003#32)] s1

/-! ### Well-formedness: an ill-formed term for each check -/

theorem test_wellFormed_accepts : (CommandFields.mk 0x20#8 true 0#23).wellFormed = true := by decide

/-- DC5: RSV bit 9 set. -/
theorem test_reservedClear_refuses : (CommandFields.mk 0x20#8 false 1#23).reservedClear = false := by decide

theorem test_reservedClear_illFormed : (CommandFields.mk 0x20#8 false 1#23).wellFormed = false := by decide

/-- DC6: OPC 5 is unassigned. -/
theorem test_opcodeAssigned_refuses : (CommandFields.mk 0x05#8 false 0#23).opcodeAssigned = false := by decide

theorem test_opcodeAssigned_illFormed : (CommandFields.mk 0x05#8 false 0#23).wellFormed = false := by decide

/-- DC4: WR = 1 on PUT_BYTES. -/
theorem test_writeFlagAllowed_refuses : (CommandFields.mk 0x04#8 true 0#23).writeFlagAllowed = false := by decide

theorem test_writeFlagAllowed_illFormed : (CommandFields.mk 0x04#8 true 0#23).wellFormed = false := by decide

/-! ### Decoding: every constructor from its word in R126, and the rejected words DC4 to DC7 -/

theorem test_decode_getByte : decoded 0x00000001#32 = some .getByte := by decide
theorem test_decode_getBytes : decoded 0x00000002#32 = some .getBytes := by decide
theorem test_decode_putByte : decoded 0x00000003#32 = some .putByte := by decide
theorem test_decode_putBytes : decoded 0x00000004#32 = some .putBytes := by decide
theorem test_decode_getPmcb : decoded 0x00000010#32 = some .getPmcb := by decide
theorem test_decode_setPmcb : decoded 0x00000011#32 = some .setPmcb := by decide
theorem test_decode_toPhysical_read : decoded 0x00000020#32 = some (.toPhysical false) := by decide
theorem test_decode_toPhysical_write : decoded 0x00000120#32 = some (.toPhysical true) := by decide
theorem test_decode_flushTlb : decoded 0x00000030#32 = some .flushTlb := by decide
theorem test_decode_getTlbStats : decoded 0x00000031#32 = some .getTlbStats := by decide
theorem test_decode_getFrameCount : decoded 0x00000040#32 = some .getFrameCount := by decide
theorem test_decode_getByteCount : decoded 0x00000041#32 = some .getByteCount := by decide
theorem test_decode_pmGetBytes : decoded 0x00000080#32 = some .pmGetBytes := by decide
theorem test_decode_pmPutBytes : decoded 0x00000081#32 = some .pmPutBytes := by decide
theorem test_decode_pmGet32 : decoded 0x00000082#32 = some .pmGet32 := by decide
theorem test_decode_tlbLookup : decoded 0x00000090#32 = some .tlbLookup := by decide
theorem test_decode_tlbCache : decoded 0x00000091#32 = some .tlbCache := by decide
theorem test_reject_DC4 : rejected 0x00000104#32 = some .writeFlagNotAllowed := by decide
theorem test_reject_DC5 : rejected 0x00000220#32 = some .reservedBits := by decide
theorem test_reject_DC6 : rejected 0x00000005#32 = some .unassignedOpcode := by decide
theorem test_reject_DC7 : rejected 0x000000FF#32 = some .unassignedOpcode := by decide
theorem test_decodeTableWord : decodeTableWord 32 0x00000120 = some (.toPhysical true) := by decide

/-! ### Steps -/

/-- A command word placed by `withFetchWord` is the first command after reset. -/
theorem test_step_first : ends (step (State.reset.withFetchWord 32 0x40)) (fun t => t.res[0] = 32#32) = true := by decide

/-- DC7: a word outside the map is refused. -/
theorem test_step_refused :
    refusalOf (step (State.reset.withFetchWord 32 0xFF)) = some .unassignedOpcode := by decide

/-- R131, R132: `put_word` writes the host bytes, the operands and the command. -/
theorem test_putWord_actions :
    (AsmLine.putWord 0x1010#32 0x2003#32 0#32).actions =
      [.writeHostMem 0#32 [0x03#8, 0x20#8, 0#8, 0#8], .writeArg 0 0x1010#32, .writeArg 1 4#32, .writeArg 2 0#32,
        .writeCmd 4#32] := by decide

/-! ### Commands, on the spec's vectors -/

/-- TR2: a read translation sets A in both entries. -/
theorem test_TR2 : ends (exec (.toPhysical false) (withArgs 0x01234567#32 0 0 0 0 s1)) (fun t =>
    t.res[0] = 0x1E567#32 ∧ pmWord t.pm 0x1010#32 = 0x2023#32 ∧ pmWord t.pm 0x28D0#32 = 0x1E023#32 ∧ t.byteCount = 16 ∧
      t.tlb.entries = [⟨0x01234000#32, 1, 0x1E023#32⟩]) = true := by decide

/-- TR8: a write to a read-only page faults after the L1 write-back. -/
theorem test_TR8 : ends (exec (.toPhysical true) (withArgs 0x01234000#32 0 0 0 0 (withWords [(0x28D0#32, 0x1E001#32)] s1)))
    (fun t => t.status = 2#32 ∧ t.faultAddr = 0x01234000#32 ∧ pmWord t.pm 0x1010#32 = 0x2063#32 ∧
      pmWord t.pm 0x28D0#32 = 0x1E001#32 ∧ t.byteCount = 12 ∧ t.tlb.entries = []) = true := by decide

/-- EX1: a put over a page boundary. -/
theorem test_EX1 : ends (exec .putBytes (withArgs 0x01234FFE#32 4 0 0 0 (withHost 0 [0xA0#8, 0xA1#8, 0xA2#8, 0xA3#8] s1Two)))
    (fun t => t.status = 0#32 ∧ t.pm.readBytes 0x1EFFE 4 = [0xA0#8, 0xA1#8, 0xA2#8, 0xA3#8] ∧ t.byteCount = 32 ∧
      pmWord t.pm 0x28D4#32 = 0x1F063#32 ∧ t.pmcb.nextVaddress = 0x01235002#32 ∧ t.pmcb.userBuffer = 4#32) = true := by
  decide

/-- EX7: the second chunk of a put passes SIZE; the first stays. -/
theorem test_EX7 : ends (exec .putBytes (withArgs 0x1FFFE#32 4 0 0 0 (withHost 0 [1#8, 2#8, 3#8, 4#8] s1Phys)))
    (fun t => t.status = 3#32 ∧ t.faultAddr = 0x20000#32 ∧ t.pm.readBytes 0x1FFFE 2 = [1#8, 2#8] ∧
      t.pmcb = { s1Phys.pmcb with
        operationState := .write, nextVaddress := 0x20000#32, remainingCount := 2#32, userBuffer := 2#32 }) = true := by
  decide

/-- EX9. -/
theorem test_EX9 : ends (exec .getBytes (withArgs 0x01234000#32 2 8 0 0 (withWords [(0x1E000#32, 0x5251#32)] s1)))
    (fun t => t.hostMem.readBytes 8 2 = [0x51#8, 0x52#8] ∧ pmWord t.pm 0x28D0#32 = 0x1E023#32) = true := by decide

/-- EX13: a get that faults on its second page leaves the checkpoint. -/
theorem test_EX13 : ends (exec .getBytes (withArgs 0x01234FFC#32 8 0 0 0 s1)) (fun t =>
    t.status = 1#32 ∧ t.faultAddr = 0x01235000#32 ∧ t.byteCount = 28 ∧ t.pmcb.operationState = .read ∧
      t.pmcb.nextVaddress = 0x01235000#32 ∧ t.pmcb.remainingCount = 4#32 ∧ t.pmcb.userBuffer = 4#32) = true := by decide

/-- EX10. -/
theorem test_EX10 : ends (exec .putByte (withArgs 0x01234ABC#32 0 5 0 0 (withHost 5 [0x77#8] s1))) (fun t =>
    t.pm.read 0x1EABC = 0x77#8 ∧ t.byteCount = 17 ∧ pmWord t.pm 0x28D0#32 = 0x1E063#32 ∧
      t.pmcb.nextVaddress = 0x01234ABD#32 ∧ t.pmcb.userBuffer = 6#32) = true := by decide

/-- EX11. -/
theorem test_EX11 : ends (exec .getByte (withArgs 0x01234123#32 0 9 0 0 (withWords [(0x1E123#32, 0x99#32)] s1))) (fun t =>
    t.hostMem.read 9 = 0x99#8 ∧ t.byteCount = 17 ∧ pmWord t.pm 0x28D0#32 = 0x1E023#32) = true := by decide

/-- EX3: None with bytes remaining. -/
theorem test_EX3 : ends (exec .setPmcb (withArgs 1 0x1000#32 0x01234000#32 5 0 s1)) (fun t =>
    t.status = 4#32 ∧ t.faultAddr = 0#32 ∧ t.pmcb.remainingCount = 5#32 ∧ t.byteCount = 0) = true := by decide

/-- Program 2, step 5: SET_PMCB resumes a put at the first byte not moved. -/
theorem test_P2_resume : ends (exec .setPmcb (withArgs 5 0x1000#32 0x01235000#32 4 4 (withHost 4 [0xA4#8, 0xA5#8, 0xA6#8, 0xA7#8]
    s1Two))) (fun t => t.status = 0#32 ∧ t.pm.readBytes 0x1F000 4 = [0xA4#8, 0xA5#8, 0xA6#8, 0xA7#8] ∧
      t.pmcb.operationState = .none ∧ t.pmcb.userBuffer = 8#32) = true := by decide

/-- Program 2, step 2: the image of the checkpoint. -/
theorem test_P2_checkpoint : ends (exec .getPmcb { s1 with pmcb := ⟨true, 0x1000#32, .write, 0x01235000#32, 4, 4⟩ }) (fun t =>
    t.res[0] = 5#32 ∧ t.res[1] = 0x1000#32 ∧ t.res[2] = 0x01235000#32 ∧ t.res[3] = 4#32 ∧ t.res[4] = 4#32) = true := by decide

/-- PH1: the last valid word; PH4: a range that wraps. -/
theorem test_PH1 : ends (exec .pmPutBytes (withArgs 0x1FFFC#32 4 0 0 0 s1Phys)) (fun t => t.status = 0#32 ∧ t.byteCount = 4) =
    true := by decide

theorem test_PH4 : ends (exec .pmPutBytes (withArgs 0xFFFFFFFF#32 2 0 0 0 s1Phys)) (fun t =>
    t.status = 3#32 ∧ t.faultAddr = 0xFFFFFFFF#32 ∧ t.byteCount = 0) = true := by decide

/-- PH5 and PH10. -/
theorem test_PH5 : ends (exec .pmGet32 (withArgs 0x1010#32 0 0 0 0 s1Phys)) (fun t => t.res[0] = 0x2003#32 ∧ t.byteCount = 4) =
    true := by decide

theorem test_PH10 : ends (exec .pmGet32 (withArgs 0x1FFFD#32 0 0 0 0 s1Phys)) (fun t =>
    t.status = 3#32 ∧ t.faultAddr = 0x1FFFD#32) = true := by decide

/-- PH6, with a byte to read. -/
theorem test_PH6 : ends (exec .pmGetBytes (withArgs 0x1010#32 2 7 0 0 s1Phys)) (fun t =>
    t.hostMem.readBytes 7 2 = [0x03#8, 0x20#8] ∧ t.byteCount = 2) = true := by decide

/-- PH12, with the host range of PM_GET_BYTES. -/
theorem test_PH12 : refusalOf (exec .pmGetBytes (withArgs 0x10#32 8 60 0 0 s1Phys)) = some .hostBufferRange := by decide

/-- PH13. -/
theorem test_PH13 : ends (exec .getFrameCount s1Phys) (fun t => t.res[0] = 32#32 ∧ t.status = 0#32) = true := by decide

/-- PH14, with a count above 2^32. -/
theorem test_PH14 : ends (exec .getByteCount { s1Phys with byteCount := 0x100000038#64 }) (fun t =>
    t.res[0] = 0x38#32 ∧ t.res[1] = 1#32) = true := by decide

/-- TL6: another address of the same page; TL5: a miss. -/
theorem test_TL6 : ends (exec .tlbLookup (withArgs 0x1234#32 0 0 0 0 s1Full)) (fun t =>
    t.res[0] = 0x5001#32 ∧ t.tlb.recentHits = 1 ∧ t.tlb.seq = 3 ∧
      t.tlb.entries = [⟨0x1000#32, 3, 0x5001#32⟩, ⟨0x2000#32, 2, 0x6001#32⟩]) = true := by decide

theorem test_TL5 : ends (exec .tlbLookup (withArgs 0x3000#32 0 0 0 0 s1Full)) (fun t =>
    t.res[0] = 0#32 ∧ t.tlb.recentMisses = 1 ∧ t.tlb.totalMisses = 1 ∧ t.tlb.seq = 2) = true := by decide

/-- TL4, from the state after TL2: the smallest stamp is evicted. -/
theorem test_TL4 : ends (exec .tlbCache (withArgs 0x3000#32 0x7001#32 0 0 0 s1Full)) (fun t =>
    t.tlb.entries = [⟨0x2000#32, 2, 0x6001#32⟩, ⟨0x3000#32, 3, 0x7001#32⟩] ∧ t.tlb.totalMaxSize = 2) = true := by decide

/-- TL8: a refresh evicts nothing. -/
theorem test_TL8 : ends (exec .tlbCache (withArgs 0x1FFF#32 0x8001#32 0 0 0 s1Full)) (fun t =>
    t.tlb.entries = [⟨0x1000#32, 3, 0x8001#32⟩, ⟨0x2000#32, 2, 0x6001#32⟩]) = true := by decide

/-- TL9: a flush keeps the totals and TLB.seq. -/
theorem test_TL9 : ends (exec .flushTlb s1Full) (fun t =>
    t.tlb.entries = [] ∧ t.tlb.recentMaxSize = 0 ∧ t.tlb.totalMaxSize = 2 ∧ t.tlb.seq = 2) = true := by decide

/-- TL7 and TL10. -/
theorem test_TL7 : ends (exec .getTlbStats { s1Full with tlb := ⟨[], 0, 2, 3, 5, 7, 11, 13⟩ }) (fun t =>
    t.res = #v[2, 0, 3, 0, 5, 0, 7, 0, 11, 0, 13, 0]) = true := by decide

theorem test_TL10 : ends (exec .getTlbStats s1NoTlb) (fun t => t.status = 4#32 ∧ t.faultAddr = 0#32) = true := by decide

/-! ### Witnesses: states and operands that meet the hypotheses of each obligation, at the boundaries of its clauses -/

theorem witness_reset_inv : State.reset.inv = true := by decide
theorem witness_s1_inv : s1.inv = true := by decide
theorem witness_s1Phys_inv : s1Phys.inv = true := by decide
theorem witness_s1Full_inv : s1Full.inv = true := by decide
theorem witness_s1NoTlb_inv : s1NoTlb.inv = true := by decide
theorem witness_s1Cached_inv : (s1Cached 0x1E023#32).inv = true := by decide
theorem witness_s1Two_inv : s1Two.inv = true := by decide

/-- OpcodeMapSelectsByMask: the widest clause, at both values of WR; a full-mask row is met by its own word. -/
theorem witness_OpcodeMapSelectsByMask :
    0x00000020#32 &&& 0xFFFFFEFF#32 = 0x00000020#32 ∧ 0x00000120#32 &&& 0xFFFFFEFF#32 = 0x00000020#32 ∧
    0x00000091#32 &&& 0xFFFFFFFF#32 = 0x00000091#32 := by decide

/-- WordsOutsideTheMapAreRefused: the host's next action is a write of CMD. -/
theorem witness_WordsOutsideTheMapAreRefused :
    (s1.withFetchWord 32 0xFF).pending = .writeCmd 0xFF#32 :: [] ∧ (s1.withFetchWord 32 0x220).pending = .writeCmd 0x220#32 :: [] ∧
    (s1.withFetchWord 32 0x104).pending = .writeCmd 0x104#32 :: [] := by decide

theorem witness_StepRunsDecodedCommand :
    (s1.withFetchWord 32 0x120).pending = .writeCmd 0x120#32 :: [] ∧ decoded 0x120#32 = some (.toPhysical true) := by decide

/-- HostActionsBetweenCommands: each clause; the last byte of HostMem, and one past it. -/
theorem witness_HostActionsBetweenCommands :
    s1.pending = [] ∧ (pushAction (.writeArg 4 7#32) s1).pending = .writeArg 4 7#32 :: [] ∧
    (pushAction (.writeHostMem 63#32 [1#8]) s1).pending = .writeHostMem 63#32 [1#8] :: [] ∧ s1.hostMem.wf = true ∧
    (63#32 : Word).toNat + [1#8].length ≤ s1.cfg.hostMemSize ∧
    s1.cfg.hostMemSize < (63#32 : Word).toNat + [1#8, 2#8].length := by decide

/-- ConstructionState: the smallest and the largest FRAME_COUNT, with and without a TLB. -/
theorem witness_ConstructionState :
    (Config.mk 1 false 0 0 true).legal = true ∧ (Config.mk (2 ^ 20 - 1) true 1 0 false).legal = true := by decide

theorem witness_ConstructionNeedsTlbCapacity :
    (Config.mk 1 true 0 0 true).tlbPresent = true ∧ (Config.mk 1 true 0 0 true).tlbCapacity = 0 := by decide

theorem witness_ConstructionSatisfiesInvariant :
    cfgS1.legal = true ∧ (ResetDraw.mk [(0x1FFFF, 1#8)] 1 (Vector.replicate 5 2) (Vector.replicate 12 3) [(63, 1#8)]).fits cfgS1 = true ∧
    nextOf (State.construct cfgS1 ResetDraw.zero) = some (State.afterConstruction cfgS1 ResetDraw.zero) := by decide

theorem witness_StepKeepsInvariant : s1.inv = true ∧ ∃ t, step (s1.withFetchWord 32 0x20) = .next t :=
  ⟨by decide, (exists_of_ends (p := fun _ => true) (by decide)).imp fun _ h => h.1⟩

/-- RangeValidation: a range that ends at SIZE, one byte more, none, and one that wraps. -/
theorem witness_RangeValidation :
    s1.cfg.legal = true ∧ validRange s1.cfg.size 0x1FFFC#32 4#32 = true ∧ validRange s1.cfg.size 0x1FFFD#32 4#32 = false ∧
    validRange s1.cfg.size 0x100#32 0#32 = false ∧ validRange s1.cfg.size 0xFFFFFFFF#32 2#32 = false := by decide

theorem witness_RoundTripAndBoundsAtomicity :
    s1.cfg.legal = true ∧ s1.pm.wf = true ∧ [1#8, 2#8].length = (2#32 : Word).toNat ∧ 1 ≤ (2#32 : Word).toNat ∧
    (0x1FFFE#32 : Word).toNat + (2#32 : Word).toNat ≤ s1.cfg.size ∧ validRange s1.cfg.size 0x1FFFF#32 2#32 = false := by decide

/-- PmGetBytesCommand, PmPutBytesCommand: the host range's end, and past it; no bytes, the range's end at SIZE, and past it. -/
theorem witness_PmBytesCommands :
    s1Phys.inv = true ∧ (60#32 : Word).toNat + (4#32 : Word).toNat ≤ s1Phys.cfg.hostMemSize ∧
    s1Phys.cfg.hostMemSize < (61#32 : Word).toNat + (4#32 : Word).toNat ∧ (0#32 : Word).toNat = 0 ∧
    1 ≤ (4#32 : Word).toNat ∧ (0x1FFFC#32 : Word).toNat + (4#32 : Word).toNat ≤ s1Phys.cfg.size ∧
    s1Phys.cfg.size < (0x1FFFD#32 : Word).toNat + (4#32 : Word).toNat := by decide

theorem witness_PmGet32Command :
    s1.cfg.legal = true ∧ (readArg (withArgs 0x1FFFC#32 0 0 0 0 s1) 0).toNat + 4 ≤ s1.cfg.size ∧
    s1.cfg.size < (readArg (withArgs 0x1FFFD#32 0 0 0 0 s1) 0).toNat + 4 := by decide

/-- TlbLookupCommand: no TLB, a hit, and a miss. -/
theorem witness_TlbLookupCommand :
    s1NoTlb.cfg.tlbPresent = false ∧ s1Full.cfg.tlbPresent = true ∧
    findEntry s1Full.tlb.entries (0x1ABC#32 &&& 0xFFFFF000#32) = some ⟨0x1000#32, 1, 0x5001#32⟩ ∧
    findEntry s1Full.tlb.entries (0x3000#32 &&& 0xFFFFF000#32) = none := by decide

/-- TlbCacheCommand: no TLB, a refresh, room for a new key, and a new key that meets a full cache. -/
theorem witness_TlbCacheCommand :
    s1NoTlb.inv = true ∧ s1NoTlb.cfg.tlbPresent = false ∧ s1Full.inv = true ∧ s1Full.cfg.tlbPresent = true ∧
    (findEntry s1Full.tlb.entries (0x1ABC#32 &&& 0xFFFFF000#32)).isSome = true ∧
    (s1Cached 0x1E023#32).tlb.entries.length < (s1Cached 0x1E023#32).cfg.tlbCapacity ∧
    findEntry s1Full.tlb.entries (0x3000#32 &&& 0xFFFFF000#32) = none ∧
    s1Full.tlb.entries.length = s1Full.cfg.tlbCapacity := by decide

/-- FlushTlbCommand, GetTlbStatsCommand. -/
theorem witness_TlbPresentOrNot : s1.cfg.tlbPresent = true ∧ s1NoTlb.cfg.tlbPresent = false := by decide

theorem witness_CacheThenLookup :
    s1Full.cfg.tlbPresent = true ∧ 0x3FFF#32 &&& 0xFFFFF000#32 = readArg (withArgs 0x3000#32 7 0 0 0 s1Full) 0 &&& 0xFFFFF000#32 ∧
    ((nextOf (exec .tlbCache (withArgs 0x3000#32 7 0 0 0 s1Full))).any fun t =>
      ends (exec .tlbLookup { t with args := t.args.set 0 0x3FFF#32 }) fun u => u.res[0] = 7#32) = true := by decide

theorem witness_LruStampsStayDistinct :
    keysRising s1Full.tlb.entries = true ∧ (∀ e ∈ s1Full.tlb.entries, e.lastRefSeq ≤ s1Full.tlb.seq) ∧
    (∀ e ∈ s1Full.tlb.entries, ∀ f ∈ s1Full.tlb.entries, e.lastRefSeq = f.lastRefSeq → e = f) ∧
    s1Full.tlb.seq ≠ BitVec.allOnes 64 := by decide

theorem witness_SetPmcbStoresWithoutTransfer : readArg (withArgs 3 0x1000#32 0x01234000#32 0 7 s1) 3 = 0#32 := by decide

/-- SetPmcbWithoutTransferState, SetPmcbResumesLikeATransfer: bytes remain, and each value of operation_state. -/
theorem witness_SetPmcbStates :
    readArg (withArgs 1 0x1000#32 0 5 0 s1) 3 ≠ 0#32 ∧ (1#32).extractLsb' 1 2 = 0#2 ∧ (7#32).extractLsb' 1 2 = 3#2 ∧
    (3#32).extractLsb' 1 2 = 1#2 ∧ (5#32).extractLsb' 1 2 = 2#2 ∧ s1.cfg.nonePendingIsError = true ∧
    (Config.mk 32 true 4 64 false).nonePendingIsError = false := by decide

theorem witness_OnlySetPmcbChangesTheMode :
    (∃ t, exec .getByte (withArgs 0x01234000#32 0 0 0 0 s1) = .next t) ∧ isGet .flushTlb = false ∧ isPut .flushTlb = false :=
  ⟨(exists_of_ends (p := fun _ => true) (by decide)).imp fun _ h => h.1, by decide, by decide⟩

theorem witness_TranslateInPhysicalMode : s1Phys.pmcb.vmEnable = false := by decide

/-- TranslateFromTlb: a read of an entry with M clear, a write of one with M and W set, and a write of one with M set and W clear. -/
theorem witness_TranslateFromTlb :
    (s1Cached 0x1E021#32).pmcb.vmEnable = true ∧ (s1Cached 0x1E021#32).cfg.tlbPresent = true ∧
    findEntry (s1Cached 0x1E021#32).tlb.entries (0x01234ABC#32 &&& 0xFFFFF000#32) = some ⟨0x01234000#32, 1, 0x1E021#32⟩ ∧
    findEntry (s1Cached 0x1E063#32).tlb.entries (0x01234ABC#32 &&& 0xFFFFF000#32) = some ⟨0x01234000#32, 1, 0x1E063#32⟩ ∧
    (0x1E021#32).getLsbD 0 = true ∧ (0x1E063#32).getLsbD 0 = true ∧ (0x1E063#32).getLsbD 6 = true ∧ (0x1E063#32).getLsbD 1 = true ∧
    (0x1E061#32).getLsbD 0 = true ∧ (0x1E061#32).getLsbD 6 = true ∧ (0x1E061#32).getLsbD 1 = false := by decide

/-- TranslateByWalk: a miss; and a write that finds the cached entry's M clear. -/
theorem witness_TranslateByWalk :
    s1.inv = true ∧ s1.pmcb.vmEnable = true ∧ usableEntry s1 0x01234000#32 true = none ∧
    usableEntry (s1Cached 0x1E023#32) 0x01234000#32 true = none ∧ s1.pmcb.pageTableBase.extractLsb' 0 12 = 0#12 ∧
    (l1Address s1 0x01234000#32).toNat + 4 ≤ s1.cfg.size ∧ (l1Word s1 0x01234000#32).getLsbD 0 = true ∧
    (l2Address s1 0x01234000#32).toNat + 4 ≤ s1.cfg.size ∧ (l2Word s1 0x01234000#32 true).getLsbD 0 = true ∧
    (l2Word s1 0x01234000#32 true).getLsbD 1 = true ∧ l1Address s1 0x01234000#32 ≠ l2Address s1 0x01234000#32 := by decide

/-- S1 with another page-table base. -/
def s1Base (b : Word) : State := { s1 with pmcb := { s1.pmcb with pageTableBase := b } }

/-- WalkFaultEffects, TranslationFaultPriority: TR10; a base past SIZE; TR7; TR13; TR6; TR8. -/
theorem witness_WalkFaultEffects :
    s1.cfg.legal = true ∧ s1.pmcb.vmEnable = true ∧ usableEntry s1 0x01234000#32 false = none ∧
    (s1Base 0x1004#32).pmcb.pageTableBase.extractLsb' 0 12 ≠ 0#12 ∧
    ¬ (l1Address (s1Base 0x20000#32) 0#32).toNat + 4 ≤ s1.cfg.size ∧ (l1Word s1 0x00400000#32).getLsbD 0 = false ∧
    ¬ (l2Address (withWords [(0x1010#32, 0x00100001#32)] s1) 0x01234000#32).toNat + 4 ≤ s1.cfg.size ∧
    (l1Word (withWords [(0x1010#32, 0x00100001#32)] s1) 0x01234000#32).getLsbD 0 = true ∧
    (l1Word s1 0x01235000#32).getLsbD 0 = true ∧ (l2Word s1 0x01235000#32 false).getLsbD 0 = false ∧
    (l2Word (withWords [(0x28D0#32, 0x1E001#32)] s1) 0x01234000#32 true).getLsbD 0 = true ∧
    (l2Word (withWords [(0x28D0#32, 0x1E001#32)] s1) 0x01234000#32 true).getLsbD 1 = false := by decide

/-- TranslationFaultPriority: physical mode; the cache path with and without a fault; the walk path. -/
theorem witness_TranslationFaultPriority :
    s1.cfg.legal = true ∧ s1Phys.pmcb.vmEnable = false ∧
    usableEntry (s1Cached 0x1E061#32) 0x01234000#32 true = some ⟨0x01234000#32, 1, 0x1E061#32⟩ ∧
    usableEntry (s1Cached 0x1E063#32) 0x01234000#32 true = some ⟨0x01234000#32, 1, 0x1E063#32⟩ ∧
    usableEntry s1 0x01234000#32 true = none := by decide

/-- FaultDiscrimination: an empty TLB holds no stale entry; each level absent, and a read-only page (TR7, TR6, TR8). -/
theorem witness_FaultDiscrimination :
    s1.inv = true ∧ s1.pmcb.vmEnable = true ∧ s1.pmcb.pageTableBase.extractLsb' 0 12 = 0#12 ∧ tlbEntryOf s1 0x01234000#32 = none ∧
    (l1Address s1 0x01234000#32).toNat + 4 ≤ s1.cfg.size ∧ (l2Address s1 0x01234000#32).toNat + 4 ≤ s1.cfg.size ∧
    tlbEntryOf s1 0x00400000#32 = none ∧ (l1Word s1 0x00400000#32).getLsbD 0 = false ∧
    (pmWord s1.pm (l2Address s1 0x01235000#32)).getLsbD 0 = false ∧
    (pmWord (withWords [(0x28D0#32, 0x1E001#32)] s1).pm (l2Address s1 0x01234000#32)).getLsbD 1 = false := by decide

/-- FaultDiscrimination: a cached entry that is not stale. -/
theorem witness_FaultDiscrimination_cached :
    tlbEntryOf (s1Cached 0x1E003#32) 0x01234000#32 = some ⟨0x01234000#32, 1, 0x1E003#32⟩ ∧
    (pteP (l1Word (s1Cached 0x1E003#32) 0x01234000#32) = true ∧
      l2Word (s1Cached 0x1E003#32) 0x01234000#32 false = 0x1E003#32) := by decide

theorem witness_TranslationTouchesOnlyTablesAndTlb :
    s1.inv = true ∧ (∃ pa t, toPhysical 0x01234000#32 true s1 = .ok pa t) ∧ ∃ f t, toPhysical 0x01235000#32 true s1 = .raised f t :=
  ⟨by decide, (exists_of_okWith (p := fun _ _ => true) (by decide)).imp fun _ h => h.imp fun _ h => h.1,
    exists_of_isRaised (by decide)⟩

theorem witness_TranslationOnlyAddsAccessedAndModified :
    s1.inv = true ∧ ∃ t, exec (.toPhysical true) (withArgs 0x01234000#32 0 0 0 0 s1) = .next t :=
  ⟨by decide, (exists_of_ends (p := fun _ => true) (by decide)).imp fun _ h => h.1⟩

/-- ChunkStaysInPage: the last byte of a page, and the largest count. -/
theorem witness_ChunkStaysInPage :
    (0xFFFFFFFF#32 : Word) ≠ 0#32 ∧ (chunkSize 0xFFFFFFFF#32 0xFFF#32).toNat = 1 ∧ (chunkSize 0xFFFFFFFF#32 0x1000#32).toNat = 4096 ∧
    (chunkSize 5#32 0xFFA#32).toNat = 5 := by decide

theorem witness_ZeroLengthTransfersComplete : readArg (withArgs 0x01234000#32 0 0 0 0 s1) 1 = 0#32 := by decide

/-- ExecuteIsItsLoop, SplitTransferEqualsWhole: a transfer held in the PMCB; none remaining, and bytes remaining. -/
theorem witness_ExecuteIsItsLoop :
    (startTransfer .read 0x01234FFC#32 8#32 0#32 s1).pmcb.operationState = .read ∧
    (startTransfer .read 0x01234FFC#32 8#32 0#32 s1).pmcb.remainingCount ≠ 0#32 ∧
    (startTransfer .write 0x01234FFC#32 0#32 0#32 s1).pmcb.operationState = .write ∧
    (startTransfer .write 0x01234FFC#32 0#32 0#32 s1).pmcb.remainingCount = 0#32 := by decide

theorem witness_TransferOverwritesCheckpoint : isGet .getBytes = true ∧ isPut .putByte = true := by decide

/-- GetWithinOnePage: a get that ends at the page's end and at the host buffer's end. -/
theorem witness_GetWithinOnePage :
    ∃ pa u, toPhysical 0x01234FFC#32 false (loadedState .getBytes (withArgs 0x01234FFC#32 4 60 0 0 s1)) = .ok pa u ∧
      decide (isGet .getBytes = true ∧ (withArgs 0x01234FFC#32 4 60 0 0 s1).inv = true ∧
        transferCount .getBytes (withArgs 0x01234FFC#32 4 60 0 0 s1) = 4#32 ∧ (0x01234FFC#32 : Word).toNat % 4096 + 4 ≤ 4096 ∧
        pa.toNat + 4 ≤ s1.cfg.size ∧ 60 + 4 ≤ s1.cfg.hostMemSize) = true :=
  exists_of_okWith (by decide)

/-- PutWithinOnePage: the last byte of a page. -/
theorem witness_PutWithinOnePage :
    ∃ pa u, toPhysical 0x01234FFF#32 true (loadedState .putByte (withArgs 0x01234FFF#32 9 63 0 0 s1)) = .ok pa u ∧
      decide (isPut .putByte = true ∧ (withArgs 0x01234FFF#32 9 63 0 0 s1).inv = true ∧
        transferCount .putByte (withArgs 0x01234FFF#32 9 63 0 0 s1) = 1#32 ∧ (0x01234FFF#32 : Word).toNat % 4096 + 1 ≤ 4096 ∧
        pa.toNat + 1 ≤ s1.cfg.size ∧ 63 + 1 ≤ s1.cfg.hostMemSize) = true :=
  exists_of_okWith (by decide)

/-- FirstChunkFaultLeavesLoadedCheckpoint: a translation that faults. -/
theorem witness_FirstChunkFault_translation :
    s1.cfg.legal = true ∧ transferCount .putByte (withArgs 0x01235000#32 0 0 0 0 s1) ≠ 0#32 ∧
    ∃ f u, toPhysical (readArg (withArgs 0x01235000#32 0 0 0 0 s1) 0) (isPut .putByte)
      (loadedState .putByte (withArgs 0x01235000#32 0 0 0 0 s1)) = .raised f u :=
  ⟨by decide, by decide, exists_of_isRaised (by decide)⟩

/-- FirstChunkFaultLeavesLoadedCheckpoint: data one byte past SIZE. -/
theorem witness_FirstChunkFault_data :
    ∃ pa u, toPhysical 0x20000#32 false (loadedState .getByte (withArgs 0x20000#32 0 0 0 0 s1Phys)) = .ok pa u ∧
      decide (0 + (chunkSize (transferCount .getByte (withArgs 0x20000#32 0 0 0 0 s1Phys)) 0x20000#32).toNat ≤ s1Phys.cfg.hostMemSize ∧
        s1Phys.cfg.size < pa.toNat + (chunkSize (transferCount .getByte (withArgs 0x20000#32 0 0 0 0 s1Phys)) 0x20000#32).toNat) =
          true :=
  exists_of_okWith (by decide)

/-- A result is refused under this name. -/
def isRefused {α : Type} (r : Result α) (x : Refusal) : Bool :=
  match r with
  | .refuse y => decide (y = x)
  | .ok _ _ => false
  | .raised _ _ => false

theorem refuse_of_isRefused {α : Type} {r : Result α} {x : Refusal} (h : isRefused r x = true) : r = .refuse x := by
  cases r with
  | refuse y => rw [of_decide_eq_true h]
  | ok a s => simp [isRefused] at h
  | raised f s => simp [isRefused] at h

/-- The hypotheses of HostBufferRangeRefused's first clause: the first `m` bytes move, and the next chunk translates and is too long. -/
def meetsHostBufferRange (s : State) (m : Word) : Bool :=
  decide (m.toNat < s.pmcb.remainingCount.toNat ∧ (m = 0#32 ∨ (s.pmcb.nextVaddress + m).toNat % 4096 = 0)) &&
  okWith (execute { s with pmcb := { s.pmcb with remainingCount := m } }) fun _ t =>
    let u := { t with pmcb := { t.pmcb with
      operationState := s.pmcb.operationState
      remainingCount := s.pmcb.remainingCount - m } }
    okWith (toPhysical u.pmcb.nextVaddress (decide (s.pmcb.operationState = .write)) u) fun _ _ =>
      decide (s.cfg.hostMemSize < u.pmcb.userBuffer.toNat + (chunkSize u.pmcb.remainingCount u.pmcb.nextVaddress).toNat)

/-- HostBufferRangeRefused, first clause: vector EX14 one byte past the end in its first chunk, and a write whose second chunk passes it. -/
theorem witness_HostBufferRangeRefused :
    (startTransfer .read 0x01234000#32 8#32 57#32 s1).pmcb.operationState = .read ∧
    meetsHostBufferRange (startTransfer .read 0x01234000#32 8#32 57#32 s1) 0#32 = true ∧
    (startTransfer .write 0x01234FFE#32 4#32 61#32 s1Two).pmcb.operationState = .write ∧
    meetsHostBufferRange (startTransfer .write 0x01234FFE#32 4#32 61#32 s1Two) 2#32 = true := by decide

/-- HostBufferRangeRefused, the other clauses: GET_BYTES, and a SET_PMCB that resumes a write. -/
theorem witness_HostBufferRangeRefused_commands :
    isGet .getBytes = true ∧
    execute (loadedState .getBytes (withArgs 0x01234000#32 8 57 0 0 s1)) = .refuse .hostBufferRange ∧
    readArg (withArgs 5 0x1000#32 0x01234FFE#32 4 61 s1Two) 3 ≠ 0#32 ∧
    execute (restorePmcb (readImage (withArgs 5 0x1000#32 0x01234FFE#32 4 61 s1Two)) (withArgs 5 0x1000#32 0x01234FFE#32 4 61 s1Two)) =
      .refuse .hostBufferRange :=
  ⟨by decide, refuse_of_isRefused (by decide), by decide, refuse_of_isRefused (by decide)⟩

theorem witness_TransferCompletionCursor :
    ∃ t, exec .putBytes (withArgs 0x01234FFE#32 4 0 0 0 s1Two) = .next t ∧ decide (t.status = 0#32) = true :=
  exists_of_ends (by decide)

theorem witness_TransferFaultCheckpoint :
    ∃ t, exec .getBytes (withArgs 0x01234FFC#32 8 0 0 0 s1) = .next t ∧ decide (t.status ≠ 0#32 ∧ t.status = 1#32) = true :=
  exists_of_ends (by decide)

/-- GetInPhysicalMode, PutInPhysicalMode: a transfer over a page boundary to the last byte of PhysicalMemory and of HostMem. -/
theorem witness_TransferInPhysicalMode :
    isGet .getBytes = true ∧ isPut .putBytes = true ∧ s1Phys.inv = true ∧ s1Phys.pmcb.vmEnable = false ∧
    (0x1FFC0#32 : Word).toNat + (64#32 : Word).toNat ≤ s1Phys.cfg.size ∧ 0 + (64#32 : Word).toNat ≤ s1Phys.cfg.hostMemSize ∧
    0 + (64#32 : Word).toNat ≤ 2 ^ 32 := by decide

/-- ReadsNeverSetModified, GetFillsOnlyItsBuffer. -/
theorem witness_Gets :
    isGet .getBytes = true ∧ s1.inv = true ∧ 60 + (transferCount .getBytes (withArgs 0x01234000#32 4 60 0 0 s1)).toNat ≤ 2 ^ 32 ∧
    ∃ t, exec .getBytes (withArgs 0x01234000#32 4 60 0 0 s1) = .next t :=
  ⟨by decide, by decide, by decide, (exists_of_ends (p := fun _ => true) (by decide)).imp fun _ h => h.1⟩

/-- SplitTransferEqualsWhole: the cut at the page boundary of vector EX1. -/
theorem witness_SplitTransferEqualsWhole :
    (2#32 : Word).toNat ≤ (startTransfer .write 0x01234FFE#32 4#32 0#32 s1Two).pmcb.remainingCount.toNat ∧
    ((startTransfer .write 0x01234FFE#32 4#32 0#32 s1Two).pmcb.nextVaddress + 2#32).toNat % 4096 = 0 ∧
    ∃ x t, execute (startTransfer .write 0x01234FFE#32 2#32 0#32 s1Two) = .ok x t :=
  ⟨by decide, by decide,
    (exists_of_okWith (p := fun _ _ => true) (by decide)).imp fun _ h => h.imp fun _ h => h.1⟩

/-- FaultedTransferIsACompletedPrefix: vector EX13. -/
theorem witness_FaultedTransferIsACompletedPrefix :
    (startTransfer .read 0x01234FFC#32 8#32 0#32 s1).inv = true ∧
    ∃ f u, execute (startTransfer .read 0x01234FFC#32 8#32 0#32 s1) = .raised f u :=
  ⟨by decide, exists_of_isRaised (by decide)⟩

theorem witness_ByteCountIsAuditOnly : Instr.pmGet32 ≠ .getByteCount := by decide

/-- A TO_PHYSICAL with another ARG1. -/
theorem witness_CommandsReadOnlyTheirArgs :
    (∀ k ∈ argsRead (.toPhysical true), (#v[1#32, 7#32, 0#32, 0#32, 0#32] : Vector Word 5)[k] =
      (withArgs 1#32 0 0 0 0 s1).args[k]) ∧ (withArgs 1#32 0 0 0 0 s1).args ≠ #v[1#32, 7#32, 0#32, 0#32, 0#32] := by decide

/-- StatusAndResultDiscipline, ResultRegistersPerCommand, MemoriesChangeOnlyByTheirCommands: a command of each group completes. -/
theorem witness_commandsComplete :
    (∃ t, exec .getPmcb s1 = .next t) ∧ (∃ t, exec .getByteCount s1 = .next t) ∧ (∃ t, exec .tlbLookup s1 = .next t) ∧
    (∃ t, exec .flushTlb s1 = .next t) ∧ (∃ t, exec .pmGetBytes (withArgs 0 1 0 0 0 s1) = .next t) ∧
    ∃ t, exec .setPmcb s1 = .next t :=
  ⟨(exists_of_ends (p := fun _ => true) (by decide)).imp fun _ h => h.1,
    (exists_of_ends (p := fun _ => true) (by decide)).imp fun _ h => h.1,
    (exists_of_ends (p := fun _ => true) (by decide)).imp fun _ h => h.1,
    (exists_of_ends (p := fun _ => true) (by decide)).imp fun _ h => h.1,
    (exists_of_ends (p := fun _ => true) (by decide)).imp fun _ h => h.1,
    (exists_of_ends (p := fun _ => true) (by decide)).imp fun _ h => h.1⟩

/-- MemoriesChangeOnlyByTheirCommands: a SET_PMCB with nothing remaining, one in the reserved state, and one that resumes a write. -/
theorem witness_MemoriesChangeOnlyByTheirCommands :
    readArg (withArgs 3 0x1000#32 0 0 0 s1) 3 = 0#32 ∧ (3#32).extractLsb' 1 2 = 1#2 ∧
    (7#32).extractLsb' 1 2 ∉ [1#2, 2#2] ∧ (5#32).extractLsb' 1 2 ≠ 1#2 ∧
    (∃ t, exec .setPmcb (withArgs 3 0x1000#32 0 0 0 s1) = .next t) ∧
    (∃ t, exec .setPmcb (withArgs 7 0x1000#32 0 4 0 s1) = .next t) ∧
    ∃ t, exec .setPmcb (withArgs 5 0x1000#32 0x01234000#32 4 0 s1) = .next t :=
  ⟨by decide, by decide, by decide, by decide, (exists_of_ends (p := fun _ => true) (by decide)).imp fun _ h => h.1,
    (exists_of_ends (p := fun _ => true) (by decide)).imp fun _ h => h.1,
    (exists_of_ends (p := fun _ => true) (by decide)).imp fun _ h => h.1⟩

/-- FaultCodesPerCommand: each of the four codes. -/
theorem witness_FaultCodesPerCommand :
    ends (exec (.toPhysical false) (withArgs 0x01235000#32 0 0 0 0 s1)) (fun t => t.status = 1#32) = true ∧
    ends (exec .putByte (withArgs 0x01234000#32 0 0 0 0 (withWords [(0x28D0#32, 0x1E001#32)] s1))) (fun t => t.status = 2#32) = true ∧
    ends (exec .pmGet32 (withArgs 0x1FFFD#32 0 0 0 0 s1)) (fun t => t.status = 3#32) = true ∧
    ends (exec .tlbCache s1NoTlb) (fun t => t.status = 4#32) = true := by decide

/-- TlbUntouchedInPhysicalMode: a command in physical mode, and a SET_PMCB that leaves virtual mode. -/
theorem witness_TlbUntouchedInPhysicalMode :
    s1Phys.pmcb.vmEnable = false ∧ (readArg (withArgs 2 0 0 4 0 s1) 0).getLsbD 0 = false ∧
    (∃ t, exec .putByte (withArgs 0x28D0#32 0 0 0 0 s1Phys) = .next t) ∧ ∃ t, exec .setPmcb (withArgs 2 0 0 4 0 s1) = .next t :=
  ⟨by decide, by decide, (exists_of_ends (p := fun _ => true) (by decide)).imp fun _ h => h.1,
    (exists_of_ends (p := fun _ => true) (by decide)).imp fun _ h => h.1⟩

end Sys2Proof.Tests
end

section
/-! SUPPORT. The invariant (10_state.md R46, R49, R62) is kept by construction, by every host action and by every command. -/

namespace Sys2Proof.Machine

/-! ### One rule for each part of the state that the invariant speaks of -/

theorem inv_setPm {s : State} (h : s.inv = true) {m : Memory} (hw : m.wf = true) (hb : m.below s.cfg.size = true) :
    State.inv { s with pm := m } = true := by
  rw [inv_iff] at h ⊢
  obtain ⟨hcfg, -, -, hhost, hhostBelow, htlb⟩ := h
  exact ⟨hcfg, hw, hb, hhost, hhostBelow, htlb⟩

theorem inv_setHostMem {s : State} (h : s.inv = true) {m : Memory} (hw : m.wf = true)
    (hb : m.below s.cfg.hostMemSize = true) : State.inv { s with hostMem := m } = true := by
  rw [inv_iff] at h ⊢
  obtain ⟨hcfg, hpm, hpmBelow, -, -, htlb⟩ := h
  exact ⟨hcfg, hpm, hpmBelow, hw, hb, htlb⟩

theorem inv_setTlb {s : State} (h : s.inv = true) {t : Tlb} (ht : t.wf s.cfg = true) :
    State.inv { s with tlb := t } = true := by
  rw [inv_iff] at h ⊢
  obtain ⟨hcfg, hpm, hpmBelow, hhost, hhostBelow, -⟩ := h
  exact ⟨hcfg, hpm, hpmBelow, hhost, hhostBelow, ht⟩

/-- A block write in a valid range (R161) keeps the invariant. -/
theorem inv_writePm {s : State} (h : s.inv = true) {addr n : Word} {bytes : List Byte}
    (hv : validRange s.cfg.size addr n = true) (hl : bytes.length = n.toNat) :
    State.inv { s with pm := s.pm.writeBytes addr.toNat bytes } = true := by
  obtain ⟨hcfg, hpm, hpmBelow, -⟩ := (inv_iff s).mp h
  have hr := (validRange_iff (Config.size_lt hcfg) addr n).mp hv
  exact inv_setPm h (Memory.wf_writeBytes hpm _ _) (Memory.below_writeBytes hpmBelow (by omega))

/-- A block write inside HostMem (R63) keeps the invariant. -/
theorem inv_writeHostMem {s : State} (h : s.inv = true) {i : Nat} {bytes : List Byte}
    (hl : i + bytes.length ≤ s.cfg.hostMemSize) :
    State.inv { s with hostMem := s.hostMem.writeBytes i bytes } = true := by
  obtain ⟨-, -, -, hhost, hhostBelow, -⟩ := (inv_iff s).mp h
  exact inv_setHostMem h (Memory.wf_writeBytes hhost _ _) (Memory.below_writeBytes hhostBelow hl)

theorem tlb_wf_of_inv {s : State} (h : s.inv = true) : s.tlb.wf s.cfg = true := by
  obtain ⟨-, -, -, -, -, htlb⟩ := (inv_iff s).mp h
  exact htlb

theorem capacity_pos_of_inv {s : State} (h : s.inv = true) (hp : s.cfg.tlbPresent = true) : 1 ≤ s.cfg.tlbCapacity := by
  obtain ⟨hcfg, -⟩ := (inv_iff s).mp h
  simp only [Config.legal, Config.capacityLegal, hp, Bool.and_eq_true, Bool.not_true, Bool.false_or,
    decide_eq_true_eq] at hcfg
  exact hcfg.2

theorem inv_movedState {s : State} (h : s.inv = true) (isWrite : Bool) {pa buf n : Word}
    (hh : hostInRange s buf n = true) (hv : validRange s.cfg.size pa n = true) :
    (movedState isWrite pa buf n s).inv = true := by
  cases isWrite with
  | true => exact inv_writePm h hv (by simp)
  | false => exact inv_writeHostMem h (by simpa using (hostInRange_iff s buf n).mp hh)

/-! ### Commands and host actions -/

/-- From a state that meets the invariant, to one that does. -/
def KeepsInv (s t : State) : Prop := s.inv = true → t.inv = true

theorem keepsInv_transferRel (isWrite : Bool) : TransferRel isWrite KeepsInv where
  refl _ h := h
  trans _ _ _ h h' hs := h' (h hs)
  lookup va _ hp h := inv_setTlb h (tlbLookup_keeps_wf hp (tlb_wf_of_inv h) va)
  cache va pte _ hp h := inv_setTlb h (tlbInsert_keeps_wf hp (capacity_pos_of_inv h hp) (tlb_wf_of_inv h) va pte)
  read _ h := h
  mark _ _ hv h := inv_writePm h hv (length_bytesOfWord _)
  move _ _ _ _ hh hv h := inv_movedState h isWrite hh hv
  advance _ _ h := h
  complete _ h := h

theorem keepsInv_commandRel : CommandRel KeepsInv where
  get := keepsInv_transferRel false
  put := keepsInv_transferRel true
  start _ _ _ _ _ h := h
  restore _ _ h := h
  flush _ hp h := inv_setTlb h (tlbFlush_keeps_wf hp (tlb_wf_of_inv h))
  result _ _ _ h := h
  success _ h := h
  fault _ _ h := h

theorem exec_inv {i : Instr} {s t : State} (hs : s.inv = true) (h : exec i s = .next t) : t.inv = true :=
  exec_rel keepsInv_commandRel h hs

/-! ### One step, by the host's next action -/

theorem popAction_eq {s : State} {a : HostAction} {rest : List HostAction} (h : s.pending = a :: rest) :
    popAction s = { s with pending := rest } := by
  rw [popAction, h]
  rfl

theorem step_idle {s : State} (h : s.pending = []) : step s = .next s := by
  simp [step, h, idle]

theorem step_writeArg {s : State} {n : Fin 5} {v : Word} {rest : List HostAction}
    (h : s.pending = .writeArg n v :: rest) : step s = .next (writeArg n v { s with pending := rest }) := by
  simp [step, h, popAction_eq h]

theorem step_writeHostMem {s : State} {i : Word} {bytes : List Byte} {rest : List HostAction}
    (h : s.pending = .writeHostMem i bytes :: rest) : step s = hostStore i bytes { s with pending := rest } := by
  simp [step, h, popAction_eq h]

theorem step_writeCmd {s : State} {w : Word} {rest : List HostAction} (h : s.pending = .writeCmd w :: rest) :
    step s = runCommand w { s with pending := rest } := by
  simp [step, h, popAction_eq h]

theorem runCommand_decoded {s : State} {w : Word} {i : Instr} (h : decode w = .ok i) :
    runCommand w s = exec i (writeCmd w s) := by
  simp [runCommand, h]

theorem runCommand_rejected {s : State} {w : Word} {e : DecodeReject} (h : decode w = .error e) :
    runCommand w s = .refused (rejection e) := by
  simp [runCommand, h]

theorem hostStore_inside {s : State} {i : Word} {bytes : List Byte}
    (h : i.toNat + bytes.length ≤ s.cfg.hostMemSize) :
    hostStore i bytes s = .next { s with hostMem := s.hostMem.writeBytes i.toNat bytes } := if_pos h

theorem hostStore_outside {s : State} {i : Word} {bytes : List Byte}
    (h : s.cfg.hostMemSize < i.toNat + bytes.length) : hostStore i bytes s = .refused .hostBufferRange :=
  if_neg (by omega)

/-- What a step that answers a next state did: nothing, a write of ARG, a write inside HostMem, or a decoded command. -/
theorem step_next {s t : State} (h : step s = .next t) :
    t = s ∨
    (∃ n v rest, t = writeArg n v { s with pending := rest }) ∨
    (∃ (i : Word) (bytes : List Byte) (rest : List HostAction), i.toNat + bytes.length ≤ s.cfg.hostMemSize ∧
      t = { s with hostMem := s.hostMem.writeBytes i.toNat bytes, pending := rest }) ∨
    ∃ i w rest, exec i (writeCmd w { s with pending := rest }) = .next t := by
  cases hp : s.pending with
  | nil => exact .inl (by simpa [step_idle hp] using h.symm)
  | cons a rest =>
    cases a with
    | writeArg n v => exact .inr (.inl ⟨n, v, rest, by simpa [step_writeArg hp] using h.symm⟩)
    | writeHostMem i bytes =>
      rw [step_writeHostMem hp] at h
      by_cases hr : i.toNat + bytes.length ≤ s.cfg.hostMemSize
      · rw [hostStore_inside (by exact hr), Host.Outcome.next.injEq] at h
        exact .inr (.inr (.inl ⟨i, bytes, rest, hr, h.symm⟩))
      · rw [hostStore_outside (Nat.lt_of_not_le (by exact hr))] at h
        cases h
    | writeCmd w =>
      rw [step_writeCmd hp] at h
      cases hd : decode w with
      | ok i => exact .inr (.inr (.inr ⟨i, w, rest, by rwa [runCommand_decoded hd] at h⟩))
      | error e =>
        rw [runCommand_rejected hd] at h
        cases h

/-- Settles O10: each effect of a command respects the invariant, so every command does; the host's own writes do as well. -/
theorem stepKeepsInvariant : Obligations.StepKeepsInvariant := by
  unfold Obligations.StepKeepsInvariant
  intro s t hs h
  rcases step_next h with rfl | ⟨n, v, rest, rfl⟩ | ⟨i, bytes, rest, hr, rfl⟩ | ⟨i, w, rest, he⟩
  · exact ⟨hs, rfl⟩
  · exact ⟨hs, rfl⟩
  · exact ⟨inv_writeHostMem (s := { s with pending := rest }) hs hr, rfl⟩
  · exact ⟨exec_inv (s := writeCmd w { s with pending := rest }) hs he, (exec_cfg he).trans rfl⟩

/-! ### The tier 1 statements about steps and construction -/

/-- Settles O5. -/
theorem stepRunsDecodedCommand : Obligations.StepRunsDecodedCommand := by
  unfold Obligations.StepRunsDecodedCommand
  intro s w rest i hp hd
  rw [step_writeCmd hp, runCommand_decoded hd]
  rfl

/-- Settles O6. -/
theorem hostActionsBetweenCommands : Obligations.HostActionsBetweenCommands := by
  unfold Obligations.HostActionsBetweenCommands
  intro s
  refine ⟨step_idle, fun n v rest hp => step_writeArg hp, fun i bytes rest hp hw => ⟨fun hr => ?_, fun hr => ?_⟩⟩
  · refine ⟨s.hostMem.writeBytes i.toNat bytes, ?_, Memory.wf_writeBytes hw _ _, Memory.read_writeBytes hw _ _⟩
    rw [step_writeHostMem hp]
    exact hostStore_inside hr
  · rw [step_writeHostMem hp]
    exact hostStore_outside hr

theorem construct_legal {c : Config} (h : c.legal = true) (d : ResetDraw) :
    State.construct c d = .next (State.afterConstruction c d) := by
  obtain ⟨hframes, hcap⟩ := (Bool.and_eq_true _ _).mp h
  simp [State.construct, hframes, hcap]

/-- Settles O7. -/
theorem constructionState : Obligations.ConstructionState := by
  unfold Obligations.ConstructionState
  intro c d hc
  refine ⟨State.afterConstruction c d, construct_legal hc d, ?_⟩
  simp [State.afterConstruction, Pmcb.reset, Tlb.reset]

/-- The empty TranslationCache is legal in every configuration. -/
theorem tlbReset_wf (c : Config) : Tlb.reset.wf c = true := by
  cases hp : c.tlbPresent with
  | true =>
    rw [Tlb.wf_present hp]
    exact ⟨rfl, rfl, Nat.zero_le _, BitVec.le_refl _, BitVec.le_refl _, Nat.zero_le _⟩
  | false => simp [Tlb.wf, hp]

theorem afterConstruction_inv {c : Config} {d : ResetDraw} (hc : c.legal = true) (hd : d.fits c = true) :
    (State.afterConstruction c d).inv = true := by
  simp only [ResetDraw.fits, Bool.and_eq_true] at hd
  obtain ⟨⟨⟨hpm, hpmBelow⟩, hhost⟩, hhostBelow⟩ := hd
  exact (inv_iff _).mpr ⟨hc, hpm, hpmBelow, hhost, hhostBelow, tlbReset_wf c⟩

/-- Settles O9: `State.reset` is the block of the default configuration and the zero draw. -/
theorem constructionSatisfiesInvariant : Obligations.ConstructionSatisfiesInvariant := by
  unfold Obligations.ConstructionSatisfiesInvariant
  refine ⟨fun c d t hc hd h => ?_, afterConstruction_inv (c := .default) (d := .zero) (by decide) (by decide)⟩
  rw [construct_legal hc, Host.Outcome.next.injEq] at h
  exact h ▸ afterConstruction_inv hc hd

end Sys2Proof.Machine
end

section
/-! SUPPORT. State that a command does not look at: the commutation of Laws/Commute.lean carried from Execute to whole commands, for
BYTE_COUNT (10_state.md R47) and for the ARG registers a command's row does not name (R54, 30_encoding.md R123). -/

namespace Sys2Proof.Machine

/-- `g` changes nothing that a command reads but for ARG and BYTE_COUNT, and commutes with each write a command makes. -/
structure UnreadByCommand (g : State → State) : Prop extends Unread g where
  res : ∀ s, (g s).res = s.res
  setRes : ∀ s r, g { s with res := r } = { g s with res := r }
  success : ∀ s, g (succeed s) = succeed (g s)
  fault : ∀ f s, g (takeFault f s) = takeFault f (g s)

theorem unreadByCommand_args (v : Vector Word 5) : UnreadByCommand (fun s => { s with args := v }) where
  toUnread := unread_args v
  res _ := rfl
  setRes _ _ := rfl
  success _ := rfl
  fault _ _ := rfl

theorem unreadByCommand_byteCount (d : Count) : UnreadByCommand (fun s => { s with byteCount := s.byteCount + d }) where
  toUnread := unread_byteCount d
  res _ := rfl
  setRes _ _ := rfl
  success _ := rfl
  fault _ _ := rfl

/-! ### The byte commands of the test port are one chunk's move (40_physical_memory.md R167, R168, 44_transfer.md R294) -/

theorem execPmGetBytes_eq (s : State) :
    execPmGetBytes s = finishPlain (moveChunk false (readArg s 0) (readArg s 2) (readArg s 1) s) := by
  cases hh : hostInRange s (readArg s 2) (readArg s 1) with
  | false => rw [execPmGetBytes_refused hh, moveChunk_refused hh]; rfl
  | true =>
    cases hv : validRange s.cfg.size (readArg s 0) (readArg s 1) with
    | false => rw [execPmGetBytes_outside hh hv, moveChunk_outside hh hv]; rfl
    | true => rw [execPmGetBytes_moved hh hv, moveChunk_inBounds hh hv]; rfl

theorem execPmPutBytes_eq (s : State) :
    execPmPutBytes s = finishPlain (moveChunk true (readArg s 0) (readArg s 2) (readArg s 1) s) := by
  cases hh : hostInRange s (readArg s 2) (readArg s 1) with
  | false => rw [execPmPutBytes_refused hh, moveChunk_refused hh]; rfl
  | true =>
    cases hv : validRange s.cfg.size (readArg s 0) (readArg s 1) with
    | false => rw [execPmPutBytes_outside hh hv, moveChunk_outside hh hv]; rfl
    | true => rw [execPmPutBytes_moved hh hv, moveChunk_inBounds hh hv]; rfl

variable {g : State → State}

/-! ### The pieces of a command -/

theorem UnreadByCommand.writeRes (hg : UnreadByCommand g) (n : Fin 12) (v : Word) (s : State) :
    writeRes n v (g s) = g (writeRes n v s) := by
  unfold Machine.writeRes
  rw [← hg.setRes s, hg.res]

theorem UnreadByCommand.writeResPair (hg : UnreadByCommand g) (lo hi : Fin 12) (c : Count) (s : State) :
    writeResPair lo hi c (g s) = g (writeResPair lo hi c s) := by
  simp only [Machine.writeResPair, hg.writeRes]

theorem UnreadByCommand.writeImage (hg : UnreadByCommand g) (w : PmcbImage) (s : State) :
    writeImage w (g s) = g (writeImage w s) := by
  simp only [Machine.writeImage, hg.writeRes]

theorem UnreadByCommand.writeStats (hg : UnreadByCommand g) (t : Tlb) (s : State) :
    writeStats t (g s) = g (writeStats t s) := by
  simp only [Machine.writeStats, hg.writeResPair]

/-- The end of a command commutes with `g` when its result and its RES writes do. -/
theorem UnreadByCommand.finish (hg : UnreadByCommand g) {α : Type} {r r' : Result α} {f : α → State → State}
    (hr : r' = r.mapState g) (hf : ∀ a s, f a (g s) = g (f a s)) :
    Machine.finish r' f = mapNext g (Machine.finish r f) := by
  subst hr
  cases r with
  | ok a s => simp only [Result.mapState, finish_ok, mapNext, hf, hg.success]
  | raised e s => simp only [Result.mapState, finish_raised, mapNext, hg.fault]
  | refuse x => rfl

theorem UnreadByCommand.startTransfer (hg : UnreadByCommand g) (op : OperationState) (va n buf : Word) (s : State) :
    startTransfer op va n buf (g s) = g (startTransfer op va n buf s) := by
  unfold Machine.startTransfer
  rw [← hg.setPmcb s, hg.pmcb]

theorem UnreadByCommand.restorePmcb (hg : UnreadByCommand g) (w : PmcbImage) (s : State) :
    restorePmcb w (g s) = g (restorePmcb w s) := by
  unfold Machine.restorePmcb
  rw [← hg.setPmcb s]

theorem UnreadByCommand.resumePending (hg : UnreadByCommand g) (s : State) :
    resumePending (g s) = (resumePending s).mapState g := by
  unfold Machine.resumePending
  rw [hg.pmcb]
  split
  · rfl
  · exact hg.execute s

theorem UnreadByCommand.requireTlb (hg : UnreadByCommand g) (s : State) :
    requireTlb (g s) = (requireTlb s).mapState g := by
  unfold Machine.requireTlb
  rw [hg.cfg]
  split <;> rfl

theorem UnreadByCommand.lookupTlb (hg : UnreadByCommand g) (va : Word) (s : State) :
    lookupTlb va (g s) = ((lookupTlb va s).1, g (lookupTlb va s).2) := by
  unfold Machine.lookupTlb
  rw [← hg.setTlb s, hg.tlb]

theorem UnreadByCommand.cacheTlb (hg : UnreadByCommand g) (va pte : Word) (s : State) :
    cacheTlb va pte (g s) = g (cacheTlb va pte s) := by
  unfold Machine.cacheTlb
  rw [← hg.setTlb s, hg.tlb, hg.cfg]

theorem UnreadByCommand.flush (hg : UnreadByCommand g) (s : State) :
    { g s with tlb := tlbFlush (g s).tlb } = g { s with tlb := tlbFlush s.tlb } := by
  rw [← hg.setTlb s, hg.tlb]

/-- A transfer command from two runs that differ by `g` only. -/
theorem UnreadByCommand.transfer (hg : UnreadByCommand g) (op : OperationState) (va n buf : Word) (s : State) :
    finishPlain (Machine.execute (Machine.startTransfer op va n buf (g s))) =
      mapNext g (finishPlain (Machine.execute (Machine.startTransfer op va n buf s))) := by
  rw [hg.startTransfer]
  exact hg.finish (hg.execute _) fun _ _ => rfl

/-- Two runs of a command that differ by `g` only stay alike, if `g` keeps the ARG registers the command's row names and, for
GET_BYTE_COUNT, keeps BYTE_COUNT. -/
theorem UnreadByCommand.exec (hg : UnreadByCommand g) {i : Instr} {s : State}
    (hargs : ∀ k ∈ argsRead i, readArg (g s) k = readArg s k)
    (hcount : i = .getByteCount → (g s).byteCount = s.byteCount) :
    exec i (g s) = mapNext g (exec i s) := by
  cases i with
  | getByte =>
    simp only [argsRead, List.forall_mem_cons] at hargs
    obtain ⟨h0, h2, -⟩ := hargs
    simp only [Machine.exec, execGetByte, h0, h2, hg.transfer]
  | getBytes =>
    simp only [argsRead, List.forall_mem_cons] at hargs
    obtain ⟨h0, h1, h2, -⟩ := hargs
    simp only [Machine.exec, execGetBytes, h0, h1, h2, hg.transfer]
  | putByte =>
    simp only [argsRead, List.forall_mem_cons] at hargs
    obtain ⟨h0, h2, -⟩ := hargs
    simp only [Machine.exec, execPutByte, h0, h2, hg.transfer]
  | putBytes =>
    simp only [argsRead, List.forall_mem_cons] at hargs
    obtain ⟨h0, h1, h2, -⟩ := hargs
    simp only [Machine.exec, execPutBytes, h0, h1, h2, hg.transfer]
  | getPmcb => simp only [Machine.exec, execGetPmcb, hg.pmcb, hg.writeImage, mapNext, hg.success]
  | setPmcb =>
    simp only [argsRead, List.forall_mem_cons] at hargs
    obtain ⟨h0, h1, h2, h3, h4, -⟩ := hargs
    have himage : readImage (g s) = readImage s := by simp only [readImage, h0, h1, h2, h3, h4]
    refine hg.finish ?_ fun _ _ => rfl
    rw [himage, hg.restorePmcb, hg.resumePending]
  | toPhysical wr =>
    simp only [argsRead, List.forall_mem_singleton] at hargs
    refine hg.finish ?_ fun pa u => hg.writeRes 0 pa u
    rw [hargs, hg.toPhysical]
  | flushTlb =>
    simp only [Machine.exec, execFlushTlb, mapNext, hg.success]
    rw [hg.flush, hg.cfg]
    split <;> rfl
  | getTlbStats =>
    refine hg.finish (hg.requireTlb s) fun _ u => ?_
    rw [hg.tlb, hg.writeStats]
  | getFrameCount => simp only [Machine.exec, execGetFrameCount, hg.cfg, hg.writeRes, mapNext, hg.success]
  | getByteCount => simp only [Machine.exec, execGetByteCount, hcount rfl, hg.writeResPair, mapNext, hg.success]
  | pmGetBytes =>
    simp only [argsRead, List.forall_mem_cons] at hargs
    obtain ⟨h0, h1, h2, -⟩ := hargs
    simp only [Machine.exec, execPmGetBytes_eq, h0, h1, h2]
    exact hg.finish (hg.moveChunk _ _ _ _ s) fun _ _ => rfl
  | pmPutBytes =>
    simp only [argsRead, List.forall_mem_cons] at hargs
    obtain ⟨h0, h1, h2, -⟩ := hargs
    simp only [Machine.exec, execPmPutBytes_eq, h0, h1, h2]
    exact hg.finish (hg.moveChunk _ _ _ _ s) fun _ _ => rfl
  | pmGet32 =>
    simp only [argsRead, List.forall_mem_singleton] at hargs
    refine hg.finish ?_ fun v u => hg.writeRes 0 v u
    rw [hargs, hg.memRead32]
  | tlbLookup =>
    simp only [argsRead, List.forall_mem_singleton] at hargs
    refine hg.finish ?_ fun v u => hg.writeRes 0 v u
    simp only [Machine.requireTlb, hg.cfg]
    split
    · simp only [andThen_ok, hargs, hg.lookupTlb, Result.mapState]
    · rfl
  | tlbCache =>
    simp only [argsRead, List.forall_mem_cons] at hargs
    obtain ⟨h0, h1, -⟩ := hargs
    refine hg.finish ?_ fun _ _ => rfl
    simp only [Machine.requireTlb, hg.cfg]
    split
    · simp only [andThen_ok, h0, h1, hg.cacheTlb, Result.mapState]
    · rfl

/-- Settles O53. -/
theorem byteCountIsAuditOnly : Obligations.ByteCountIsAuditOnly := by
  unfold Obligations.ByteCountIsAuditOnly
  intro i s d hi
  exact (unreadByCommand_byteCount d).exec (s := s) (fun _ _ => rfl) fun h => absurd h hi

/-- Settles O54. -/
theorem commandsReadOnlyTheirArgs : Obligations.CommandsReadOnlyTheirArgs := by
  unfold Obligations.CommandsReadOnlyTheirArgs
  intro i s v hv
  exact (unreadByCommand_args v).exec (s := s) hv fun _ => rfl

end Sys2Proof.Machine
end

section
/-! SUPPORT. What a command that answers a next state did, said once: its effect on the state apart from RES, STATUS and FAULT_ADDR, and
how it ended (10_state.md R58). The frames of every command follow by one case split on the effect. -/

namespace Sys2Proof.Machine

/-! ### Ends of a result -/

/-- The result leaves the state `u`, with a value or with a fault. -/
def Result.EndsIn {α : Type} (r : Result α) (u : State) : Prop := (∃ a, r = .ok a u) ∨ ∃ f, r = .raised f u

theorem Result.All.endsIn {α : Type} {P : State → Prop} {r : Result α} {u : State} (hr : r.All P) (hu : r.EndsIn u) :
    P u := by
  rcases hu with ⟨a, rfl⟩ | ⟨f, rfl⟩
  · exact hr
  · exact hr

theorem Result.All.mono {α : Type} {P Q : State → Prop} {r : Result α} (hr : r.All P) (h : ∀ s, P s → Q s) : r.All Q := by
  cases r with
  | ok a s => exact h s hr
  | raised f s => exact h s hr
  | refuse x => trivial

theorem endsIn_ok {α : Type} {a : α} {s u : State} : (Result.ok a s).EndsIn u ↔ u = s := by
  simp [Result.EndsIn, eq_comm]

/-! ### The RES registers of a command (30_encoding.md R124) -/

/-- The RES registers the row of each command names, the only ones it writes. -/
def resultRegs (i : Instr) : List (Fin 12) :=
  match i with
  | .getPmcb => [0, 1, 2, 3, 4]
  | .getByteCount => [0, 1]
  | .getTlbStats => [0, 1, 2, 3, 4, 5, 6, 7, 8, 9, 10, 11]
  | .toPhysical _ | .getFrameCount | .pmGet32 | .tlbLookup => [0]
  | .getByte | .getBytes | .putByte | .putBytes | .setPmcb | .flushTlb | .pmGetBytes | .pmPutBytes | .tlbCache => []

/-- `t` is `s` but for RES registers of the list `regs`. -/
def WritesRes (regs : List (Fin 12)) (s t : State) : Prop :=
  ∃ r : Vector Word 12, t = { s with res := r } ∧ ∀ k ∉ regs, r[k] = s.res[k]

theorem writesRes_refl (regs : List (Fin 12)) (s : State) : WritesRes regs s s := ⟨s.res, rfl, fun _ _ => rfl⟩

theorem WritesRes.trans {regs : List (Fin 12)} {s t u : State} (h : WritesRes regs s t) (h' : WritesRes regs t u) :
    WritesRes regs s u := by
  obtain ⟨r, rfl, hr⟩ := h
  obtain ⟨r', rfl, hr'⟩ := h'
  exact ⟨r', rfl, fun k hk => (hr' k hk).trans (hr k hk)⟩

theorem writeRes_writesRes {regs : List (Fin 12)} {n : Fin 12} (hn : n ∈ regs) (v : Word) (s : State) :
    WritesRes regs s (writeRes n v s) := by
  refine ⟨s.res.set n v, rfl, fun k hk => ?_⟩
  have hne : n.val ≠ k.val := fun h => hk (Fin.ext h ▸ hn)
  simp [Vector.getElem_set_ne, hne]

theorem writeResPair_writesRes {regs : List (Fin 12)} {lo hi : Fin 12} (hlo : lo ∈ regs) (hhi : hi ∈ regs) (c : Count)
    (s : State) : WritesRes regs s (writeResPair lo hi c s) :=
  (writeRes_writesRes hlo _ s).trans (writeRes_writesRes hhi _ _)

theorem writeImage_writesRes (w : PmcbImage) (s : State) : WritesRes (resultRegs .getPmcb) s (writeImage w s) := by
  have hw : ∀ n ∈ resultRegs .getPmcb, ∀ v u, WritesRes (resultRegs .getPmcb) u (writeRes n v u) :=
    fun n hn v u => writeRes_writesRes hn v u
  exact (hw 0 (by decide) _ s).trans <| (hw 1 (by decide) _ _).trans <| (hw 2 (by decide) _ _).trans <|
    (hw 3 (by decide) _ _).trans (hw 4 (by decide) _ _)

/-! ### Effect and end of a command -/

/-- What command `i` did to `s`, apart from RES, STATUS and FAULT_ADDR: the state `u` it reached before it ended. -/
inductive CommandEffect : Instr → State → State → Prop where
  /-- A query, a command without its TLB, or an access outside PhysicalMemory. -/
  | unchanged (i : Instr) (s : State) : CommandEffect i s s
  /-- A transfer command: Execute's loop on the loaded state (44_transfer.md R299 to R302). -/
  | transfer {i : Instr} {s u : State} (hi : isGet i = true ∨ isPut i = true)
      (hu : (executeLoop (isPut i) (transferCount i s).toNat (loadedState i s)).EndsIn u) : CommandEffect i s u
  /-- SET_PMCB with no bytes remaining (42_pmcb.md R233). -/
  | restored {s : State} (h : readArg s 3 = 0#32) : CommandEffect .setPmcb s (restorePmcb (readImage s) s)
  /-- SET_PMCB with bytes remaining, which runs Execute (R233). -/
  | resumed {s u : State} (h : readArg s 3 ≠ 0#32) (hu : (execute (restorePmcb (readImage s) s)).EndsIn u) :
      CommandEffect .setPmcb s u
  | translated {w : Bool} {s u : State} (hu : (toPhysical (readArg s 0) w s).EndsIn u) :
      CommandEffect (.toPhysical w) s u
  | wordRead (s : State) : CommandEffect .pmGet32 s (countBytes 4#32 s)
  | bytesRead (s : State) :
      CommandEffect .pmGetBytes s (movedState false (readArg s 0) (readArg s 2) (readArg s 1) s)
  | bytesWritten (s : State) :
      CommandEffect .pmPutBytes s (movedState true (readArg s 0) (readArg s 2) (readArg s 1) s)
  | lookedUp (s : State) : CommandEffect .tlbLookup s (lookupTlb (readArg s 0) s).2
  | cached (s : State) : CommandEffect .tlbCache s (cacheTlb (readArg s 0) (readArg s 1) s)
  | flushed (s : State) : CommandEffect .flushTlb s { s with tlb := tlbFlush s.tlb }

/-- How a command ends in the state `u`: completed, with results in its own RES registers, or faulted (R56 to R58). -/
inductive CommandEnd (i : Instr) (u : State) : State → Prop where
  | completed {v : State} (hv : WritesRes (resultRegs i) u v) : CommandEnd i u (succeed v)
  | faulted (f : MmuFault) : CommandEnd i u (takeFault f u)

/-- A result that `finish` turns into a next state leaves a state in which the command ends. -/
theorem finish_commandEnd {α : Type} {i : Instr} {r : Result α} {g : α → State → State} {t : State}
    (hg : ∀ a u, WritesRes (resultRegs i) u (g a u)) (h : finish r g = .next t) : ∃ u, r.EndsIn u ∧ CommandEnd i u t := by
  rcases finish_next h with ⟨a, u, rfl, rfl⟩ | ⟨f, u, rfl, rfl⟩
  · exact ⟨u, .inl ⟨a, rfl⟩, .completed (hg a u)⟩
  · exact ⟨u, .inr ⟨f, rfl⟩, .faulted f⟩

theorem finishPlain_commandEnd {α : Type} (i : Instr) {r : Result α} {t : State} (h : finishPlain r = .next t) :
    ∃ u, r.EndsIn u ∧ CommandEnd i u t := finish_commandEnd (fun _ u => writesRes_refl _ u) h

theorem completed_commandEnd {i : Instr} {u v t : State} (hv : WritesRes (resultRegs i) u v)
    (h : Host.Outcome.next (succeed v) = (.next t : Host.Outcome State Fault Refusal)) : CommandEnd i u t := by
  obtain rfl : succeed v = t := by simpa using h
  exact .completed hv

theorem requireTlb_endsIn {s u : State} (h : (requireTlb s).EndsIn u) : u = s := by
  refine Result.All.endsIn (P := (· = s)) ?_ h
  unfold requireTlb
  split <;> rfl

theorem memRead32_endsIn {a : Word} {s u : State} (h : (memRead32 a s).EndsIn u) : u = s ∨ u = countBytes 4#32 s := by
  refine Result.All.endsIn (P := fun u => u = s ∨ u = countBytes 4#32 s) ?_ h
  cases hv : validRange s.cfg.size a 4#32 with
  | true => simp [memRead32_valid hv]
  | false => simp [memRead32_invalid hv]

theorem moveChunk_endsIn {isWrite : Bool} {pa buf n : Word} {s u : State} (h : (moveChunk isWrite pa buf n s).EndsIn u) :
    u = s ∨ u = movedState isWrite pa buf n s := by
  refine Result.All.endsIn (P := fun u => u = s ∨ u = movedState isWrite pa buf n s) ?_ h
  cases hh : hostInRange s buf n with
  | false => simp [moveChunk_refused hh]
  | true =>
    cases hv : validRange s.cfg.size pa n with
    | false => simp [moveChunk_outside hh hv]
    | true => simp [moveChunk_inBounds hh hv]

/-- Every command that answers a next state had one of the effects and ended in one of the two ways. -/
theorem exec_next {i : Instr} {s t : State} (h : exec i s = .next t) : ∃ u, CommandEffect i s u ∧ CommandEnd i u t := by
  have transfer : ∀ (hi : isGet i = true ∨ isPut i = true), ∃ u, CommandEffect i s u ∧ CommandEnd i u t := by
    intro hi
    rw [exec_transfer hi] at h
    obtain ⟨u, hu, he⟩ := finishPlain_commandEnd i h
    exact ⟨u, .transfer hi hu, he⟩
  cases i with
  | getByte => exact transfer (.inl rfl)
  | getBytes => exact transfer (.inl rfl)
  | putByte => exact transfer (.inr rfl)
  | putBytes => exact transfer (.inr rfl)
  | getPmcb => exact ⟨s, .unchanged _ s, completed_commandEnd (writeImage_writesRes _ s) h⟩
  | setPmcb =>
    obtain ⟨u, hu, he⟩ := finishPlain_commandEnd .setPmcb h
    by_cases h0 : readArg s 3 = 0#32
    · rw [resumePending, if_pos (by exact h0)] at hu
      obtain rfl := endsIn_ok.mp hu
      exact ⟨_, .restored h0, he⟩
    · rw [resumePending, if_neg (by exact h0)] at hu
      exact ⟨u, .resumed h0 hu, he⟩
  | toPhysical w =>
    obtain ⟨u, hu, he⟩ := finish_commandEnd (i := .toPhysical w)
      (fun pa u => writeRes_writesRes (n := 0) (by simp [resultRegs]) pa u) h
    exact ⟨u, .translated hu, he⟩
  | flushTlb =>
    cases hp : s.cfg.tlbPresent with
    | true =>
      simp only [exec, execFlushTlb, hp, if_true] at h
      exact ⟨_, .flushed s, completed_commandEnd (writesRes_refl _ _) h⟩
    | false =>
      simp only [exec, execFlushTlb, hp, Bool.false_eq_true, if_false] at h
      exact ⟨s, .unchanged _ s, completed_commandEnd (writesRes_refl _ _) h⟩
  | getTlbStats =>
    have hall : ∀ k, k ∈ resultRegs .getTlbStats := by decide
    have hpair : ∀ lo hi c u, WritesRes (resultRegs .getTlbStats) u (writeResPair lo hi c u) :=
      fun lo hi c u => writeResPair_writesRes (hall lo) (hall hi) c u
    obtain ⟨u, hu, he⟩ := finish_commandEnd (i := .getTlbStats) (r := requireTlb s) (fun _ u =>
      (hpair _ _ _ u).trans <| (hpair _ _ _ _).trans <| (hpair _ _ _ _).trans <| (hpair _ _ _ _).trans <|
        (hpair _ _ _ _).trans (hpair _ _ _ _)) h
    obtain rfl := requireTlb_endsIn hu
    exact ⟨_, .unchanged _ _, he⟩
  | getFrameCount =>
    exact ⟨s, .unchanged _ s, completed_commandEnd (writeRes_writesRes (n := 0) (by decide) _ s) h⟩
  | getByteCount =>
    exact ⟨s, .unchanged _ s, completed_commandEnd (writeResPair_writesRes (by decide) (by decide) _ s) h⟩
  | pmGetBytes =>
    rw [exec, execPmGetBytes_eq] at h
    obtain ⟨u, hu, he⟩ := finishPlain_commandEnd .pmGetBytes h
    rcases moveChunk_endsIn hu with rfl | rfl
    · exact ⟨_, .unchanged _ _, he⟩
    · exact ⟨_, .bytesRead s, he⟩
  | pmPutBytes =>
    rw [exec, execPmPutBytes_eq] at h
    obtain ⟨u, hu, he⟩ := finishPlain_commandEnd .pmPutBytes h
    rcases moveChunk_endsIn hu with rfl | rfl
    · exact ⟨_, .unchanged _ _, he⟩
    · exact ⟨_, .bytesWritten s, he⟩
  | pmGet32 =>
    obtain ⟨u, hu, he⟩ := finish_commandEnd (i := .pmGet32)
      (fun v u => writeRes_writesRes (n := 0) (by decide) v u) h
    rcases memRead32_endsIn hu with rfl | rfl
    · exact ⟨_, .unchanged _ _, he⟩
    · exact ⟨_, .wordRead s, he⟩
  | tlbLookup =>
    obtain ⟨u, hu, he⟩ := finish_commandEnd (i := .tlbLookup)
      (fun v u => writeRes_writesRes (n := 0) (by decide) v u) h
    refine ⟨u, ?_, he⟩
    refine Result.All.endsIn ?_ hu
    unfold requireTlb
    split
    · exact .lookedUp s
    · exact .unchanged _ s
  | tlbCache =>
    obtain ⟨u, hu, he⟩ := finishPlain_commandEnd .tlbCache h
    refine ⟨u, ?_, he⟩
    refine Result.All.endsIn ?_ hu
    unfold requireTlb
    split
    · exact .cached s
    · exact .unchanged _ s

/-! ### The end of a command writes RES, STATUS and FAULT_ADDR only -/

/-- The fault codes of R335. -/
theorem MmuFault.code_range (f : MmuFault) : 1 ≤ f.code.toNat ∧ f.code.toNat ≤ 4 := by
  cases f <;> simp [MmuFault.code]

section End

variable {i : Instr} {u t : State} (h : CommandEnd i u t)
include h

theorem CommandEnd.eq : t = { u with res := t.res, status := t.status, faultAddr := t.faultAddr } := by
  cases h with
  | completed hv =>
    obtain ⟨r, rfl, -⟩ := hv
    rfl
  | faulted f => rfl

theorem CommandEnd.pmcb : t.pmcb = u.pmcb := by rw [h.eq]

theorem CommandEnd.pm : t.pm = u.pm := by rw [h.eq]

theorem CommandEnd.byteCount : t.byteCount = u.byteCount := by rw [h.eq]

theorem CommandEnd.tlb : t.tlb = u.tlb := by rw [h.eq]

theorem CommandEnd.hostMem : t.hostMem = u.hostMem := by rw [h.eq]

theorem CommandEnd.cfg : t.cfg = u.cfg := by rw [h.eq]

theorem CommandEnd.cmd : t.cmd = u.cmd := by rw [h.eq]

theorem CommandEnd.args : t.args = u.args := by rw [h.eq]

theorem CommandEnd.pending : t.pending = u.pending := by rw [h.eq]

/-- A RES register that the command's row does not name (R124). -/
theorem CommandEnd.res {k : Fin 12} (hk : k ∉ resultRegs i) : t.res[k] = u.res[k] := by
  cases h with
  | completed hv =>
    obtain ⟨r, rfl, hr⟩ := hv
    exact hr k hk
  | faulted f => rfl

/-- STATUS, FAULT_ADDR and RES after a command (R55 to R57). -/
theorem CommandEnd.status : (t.status = 0#32 ∧ t.faultAddr = u.faultAddr) ∨
    (1 ≤ t.status.toNat ∧ t.status.toNat ≤ 4 ∧ t.res = u.res) := by
  cases h with
  | completed hv =>
    obtain ⟨r, rfl, -⟩ := hv
    exact .inl ⟨rfl, rfl⟩
  | faulted f =>
    obtain ⟨hpos, hle⟩ := f.code_range
    exact .inr ⟨hpos, hle, rfl⟩

end End

end Sys2Proof.Machine
end

section
/-! SUPPORT. The frames of every command (10_state.md R36, R45, R51 to R58, R62): which parts of the state each effect leaves alone. -/

namespace Sys2Proof.Machine

/-! ### The control state: everything but the PMCB, the memories, BYTE_COUNT and the TLB -/

/-- The fields no effect of a command touches. -/
structure ControlFrame (s t : State) : Prop where
  cfg : t.cfg = s.cfg
  cmd : t.cmd = s.cmd
  args : t.args = s.args
  res : t.res = s.res
  status : t.status = s.status
  faultAddr : t.faultAddr = s.faultAddr
  pending : t.pending = s.pending

theorem controlFrame_transferRel (isWrite : Bool) : TransferRel isWrite ControlFrame where
  refl _ := ⟨rfl, rfl, rfl, rfl, rfl, rfl, rfl⟩
  trans _ _ _ h h' :=
    ⟨h'.cfg.trans h.cfg, h'.cmd.trans h.cmd, h'.args.trans h.args, h'.res.trans h.res, h'.status.trans h.status,
      h'.faultAddr.trans h.faultAddr, h'.pending.trans h.pending⟩
  lookup _ _ _ := ⟨rfl, rfl, rfl, rfl, rfl, rfl, rfl⟩
  cache _ _ _ _ := ⟨rfl, rfl, rfl, rfl, rfl, rfl, rfl⟩
  read _ := ⟨rfl, rfl, rfl, rfl, rfl, rfl, rfl⟩
  mark _ _ _ := ⟨rfl, rfl, rfl, rfl, rfl, rfl, rfl⟩
  move _ _ _ _ _ _ := by cases isWrite <;> exact ⟨rfl, rfl, rfl, rfl, rfl, rfl, rfl⟩
  advance _ _ := ⟨rfl, rfl, rfl, rfl, rfl, rfl, rfl⟩
  complete _ := ⟨rfl, rfl, rfl, rfl, rfl, rfl, rfl⟩

theorem CommandEffect.controlFrame {i : Instr} {s u : State} (h : CommandEffect i s u) : ControlFrame s u := by
  cases h with
  | transfer _ hu =>
    obtain ⟨h1, h2, h3, h4, h5, h6, h7⟩ :=
      (executeLoop_rel (controlFrame_transferRel (isPut i)) (loadedState i s)).endsIn hu
    exact ⟨h1, h2, h3, h4, h5, h6, h7⟩
  | resumed _ hu =>
    obtain ⟨h1, h2, h3, h4, h5, h6, h7⟩ :=
      (execute_rel (controlFrame_transferRel false) (controlFrame_transferRel true) _).endsIn hu
    exact ⟨h1, h2, h3, h4, h5, h6, h7⟩
  | translated hu =>
    exact (toPhysical_rel (controlFrame_transferRel _).toTranslationRel _ s).endsIn hu
  | _ => exact ⟨rfl, rfl, rfl, rfl, rfl, rfl, rfl⟩

/-- Settles O55. -/
theorem statusAndResultDiscipline : Obligations.StatusAndResultDiscipline := by
  unfold Obligations.StatusAndResultDiscipline
  intro i s t h
  obtain ⟨u, heff, hend⟩ := exec_next h
  have hf := heff.controlFrame
  have hs := hend.status
  rw [hf.faultAddr, hf.res] at hs
  exact ⟨hend.cfg.trans hf.cfg, hend.cmd.trans hf.cmd, hend.args.trans hf.args, hend.pending.trans hf.pending, hs⟩

/-- A RES register that the command's row does not name is left unchanged (30_encoding.md R124). -/
theorem exec_res {i : Instr} {s t : State} (h : exec i s = .next t) {k : Fin 12} (hk : k ∉ resultRegs i) :
    t.res[k] = s.res[k] := by
  obtain ⟨u, heff, hend⟩ := exec_next h
  rw [hend.res hk, heff.controlFrame.res]

theorem exec_res_eq {i : Instr} {s t : State} (h : exec i s = .next t) (hi : resultRegs i = []) : t.res = s.res :=
  Vector.ext fun k hk => exec_res h (k := ⟨k, hk⟩) (by simp [hi])

/-- Settles O56: the registers outside `resultRegs` are the ones named for each command. -/
theorem resultRegistersPerCommand : Obligations.ResultRegistersPerCommand := by
  unfold Obligations.ResultRegistersPerCommand
  intro i s t h
  have one : ∀ k : Fin 12, 1 ≤ k.val → k ∉ [(0 : Fin 12)] := by decide
  refine ⟨?_, ?_, ?_, ?_⟩
  · rintro rfl k hk
    exact exec_res h ((by decide : ∀ k : Fin 12, 5 ≤ k.val → k ∉ resultRegs .getPmcb) k hk)
  · rintro rfl k hk
    exact exec_res h ((by decide : ∀ k : Fin 12, 2 ≤ k.val → k ∉ resultRegs .getByteCount) k hk)
  · rintro (⟨w, rfl⟩ | hi) k hk
    · exact exec_res h (one k hk)
    · simp only [List.mem_cons, List.not_mem_nil, or_false] at hi
      rcases hi with rfl | rfl | rfl <;> exact exec_res h (one k hk)
  · intro hi
    refine exec_res_eq h ?_
    revert hi
    cases i <;> simp [resultRegs]

/-! ### The PMCB -/

/-- vm_enable and page_table_base are kept by every translation and transfer. -/
theorem mode_transferRel (isWrite : Bool) : TransferRel isWrite fun s t =>
    t.pmcb.vmEnable = s.pmcb.vmEnable ∧ t.pmcb.pageTableBase = s.pmcb.pageTableBase where
  refl _ := ⟨rfl, rfl⟩
  trans _ _ _ h h' := ⟨h'.1.trans h.1, h'.2.trans h.2⟩
  lookup _ _ _ := ⟨rfl, rfl⟩
  cache _ _ _ _ := ⟨rfl, rfl⟩
  read _ := ⟨rfl, rfl⟩
  mark _ _ _ := ⟨rfl, rfl⟩
  move _ _ _ _ _ _ := by simp
  advance _ _ := ⟨rfl, rfl⟩
  complete _ := ⟨rfl, rfl⟩

theorem toPhysical_endsIn_frame {va : Word} {w : Bool} {s u : State} (h : (toPhysical va w s).EndsIn u) :
    TranslationFrame s u := (toPhysical_rel (translationFrame_rel w) va s).endsIn h

theorem CommandEffect.mode {i : Instr} {s u : State} (h : CommandEffect i s u) (hi : i ≠ .setPmcb) :
    u.pmcb.vmEnable = s.pmcb.vmEnable ∧ u.pmcb.pageTableBase = s.pmcb.pageTableBase := by
  cases h with
  | transfer _ hu => exact (executeLoop_rel (mode_transferRel (isPut i)) (loadedState i s)).endsIn hu
  | restored | resumed => exact absurd rfl hi
  | translated hu => simp [(toPhysical_endsIn_frame hu).pmcb]
  | bytesRead | bytesWritten => simp
  | _ => exact ⟨rfl, rfl⟩

theorem CommandEffect.pmcb {i : Instr} {s u : State} (h : CommandEffect i s u) (hi : i ≠ .setPmcb)
    (hg : isGet i = false) (hp : isPut i = false) : u.pmcb = s.pmcb := by
  cases h with
  | transfer ht => simp [hg, hp] at ht
  | restored | resumed => exact absurd rfl hi
  | translated hu => exact (toPhysical_endsIn_frame hu).pmcb
  | bytesRead | bytesWritten => simp
  | _ => rfl

/-- Settles O28. -/
theorem onlySetPmcbChangesTheMode : Obligations.OnlySetPmcbChangesTheMode := by
  unfold Obligations.OnlySetPmcbChangesTheMode
  intro i s t h hi
  obtain ⟨u, heff, hend⟩ := exec_next h
  rw [hend.pmcb]
  obtain ⟨hvm, hbase⟩ := heff.mode hi
  exact ⟨hvm, hbase, heff.pmcb hi⟩

/-! ### The TLB in physical mode -/

@[simp] theorem movedState_tlb (isWrite : Bool) (pa buf n : Word) (s : State) :
    (movedState isWrite pa buf n s).tlb = s.tlb := by cases isWrite <;> rfl

/-- A transfer in physical mode does not touch the TLB (43_translate.md R251). -/
theorem executeLoop_physical_tlb {isWrite : Bool} {s : State} (h : s.pmcb.vmEnable = false) :
    (executeLoop isWrite s.pmcb.remainingCount.toNat s).All (·.tlb = s.tlb) := by
  revert h
  refine executeLoop_induction (P := fun s r => s.pmcb.vmEnable = false → r.All (·.tlb = s.tlb)) ?_ ?_ ?_ ?_ s
  · intro s _ _
    rfl
  · intro s f t _ hc hvm
    rcases transferChunk_raised hc with ht | ⟨pa, ht, -⟩
    · simp [toPhysical_physicalMode hvm] at ht
    · simp only [toPhysical_physicalMode hvm, Result.ok.injEq] at ht
      obtain ⟨-, rfl⟩ := ht
      rfl
  · intro s x _ _ _
    trivial
  · intro s t r _ hc _ ih hvm
    have hvm' : t.pmcb.vmEnable = false := by simp [transferChunk_pmcb hc, hvm]
    obtain ⟨pa, t', ht, -, -, rfl⟩ := transferChunk_ok hc
    simp only [toPhysical_physicalMode hvm, Result.ok.injEq] at ht
    obtain ⟨-, rfl⟩ := ht
    simpa using ih hvm'

theorem execute_physical_tlb {s : State} (h : s.pmcb.vmEnable = false) : (execute s).All (·.tlb = s.tlb) := by
  unfold execute
  split
  · split <;> rfl
  · rfl
  · exact executeLoop_physical_tlb h
  · exact executeLoop_physical_tlb h

theorem ne_setPmcb_of_transfer {i : Instr} (h : isGet i = true ∨ isPut i = true) : i ≠ .setPmcb := by
  rintro rfl
  simp [isGet, isPut] at h

/-- Settles O59. -/
theorem tlbUntouchedInPhysicalMode : Obligations.TlbUntouchedInPhysicalMode := by
  unfold Obligations.TlbUntouchedInPhysicalMode
  intro i s t h hi hmode
  obtain ⟨u, heff, hend⟩ := exec_next h
  rw [hend.tlb]
  cases heff with
  | transfer ht hu =>
    rw [if_neg (ne_setPmcb_of_transfer ht)] at hmode
    exact (executeLoop_physical_tlb (s := loadedState i s) hmode).endsIn hu
  | resumed _ hu =>
    rw [if_pos rfl] at hmode
    exact (execute_physical_tlb (s := restorePmcb (readImage s) s) hmode).endsIn hu
  | translated hu =>
    rw [if_neg (by simp)] at hmode
    rw [toPhysical_physicalMode hmode] at hu
    rw [endsIn_ok.mp hu]
  | lookedUp | cached | flushed => simp at hi
  | bytesRead | bytesWritten => simp
  | _ => rfl

/-! ### PhysicalMemory, BYTE_COUNT and HostMem -/

/-- Execute in a state that is neither Read nor Write moves nothing (44_transfer.md R291). -/
theorem execute_idle {s : State} (hr : s.pmcb.operationState ≠ .read) (hw : s.pmcb.operationState ≠ .write) :
    (execute s).All (· = s) := by
  unfold execute
  split
  · split <;> rfl
  · rfl
  · exact absurd ‹_› hr
  · exact absurd ‹_› hw

/-- A put and its translations keep HostMem. -/
theorem hostMem_transferRel : TransferRel true fun s t => t.hostMem = s.hostMem where
  refl _ := rfl
  trans _ _ _ h h' := h'.trans h
  lookup _ _ _ := rfl
  cache _ _ _ _ := rfl
  read _ := rfl
  mark _ _ _ := rfl
  move _ _ _ _ _ _ := rfl
  advance _ _ := rfl
  complete _ := rfl

/-- Execute that is not a get keeps HostMem. -/
theorem execute_hostMem {s : State} (h : s.pmcb.operationState ≠ .read) : (execute s).All (·.hostMem = s.hostMem) := by
  by_cases hw : s.pmcb.operationState = .write
  · rw [execute_write hw]
    exact executeLoop_rel hostMem_transferRel s
  · exact (execute_idle h hw).mono fun _ hu => congrArg State.hostMem hu

/-- The two bits of an image that hold operation_state (10_state.md R38). -/
theorem ofBits_eq_read {b : BitVec 2} : OperationState.ofBits b = .read ↔ b = 1#2 := by
  revert b
  decide

theorem ofBits_eq_write {b : BitVec 2} : OperationState.ofBits b = .write ↔ b = 2#2 := by
  revert b
  decide

theorem CommandEffect.pm_byteCount {i : Instr} {s u : State} (h : CommandEffect i s u)
    (hi : i ∈ [.getPmcb, .flushTlb, .getTlbStats, .getFrameCount, .getByteCount, .tlbLookup, .tlbCache]) :
    u.pm = s.pm ∧ u.byteCount = s.byteCount := by
  cases h with
  | transfer ht =>
    exfalso
    revert ht hi
    cases i <;> simp [isGet, isPut]
  | restored | resumed | translated | wordRead | bytesRead | bytesWritten => simp at hi
  | unchanged | lookedUp | cached | flushed => exact ⟨rfl, rfl⟩

theorem CommandEffect.setPmcb_pm_byteCount {s u : State} (h : CommandEffect .setPmcb s u)
    (hi : readArg s 3 = 0#32 ∨ (readArg s 0).extractLsb' 1 2 ∉ [1#2, 2#2]) :
    u.pm = s.pm ∧ u.byteCount = s.byteCount := by
  cases h with
  | transfer ht => exact absurd rfl (ne_setPmcb_of_transfer ht)
  | resumed h3 hu =>
    obtain ⟨h1, h2⟩ : (readArg s 0).extractLsb' 1 2 ≠ 1#2 ∧ (readArg s 0).extractLsb' 1 2 ≠ 2#2 := by
      simpa [h3] using hi
    have hidle : (execute (restorePmcb (readImage s) s)).All (· = restorePmcb (readImage s) s) :=
      execute_idle (fun h => h1 (ofBits_eq_read.mp h)) (fun h => h2 (ofBits_eq_write.mp h))
    rw [hidle.endsIn hu]
    exact ⟨rfl, rfl⟩
  | unchanged | restored => exact ⟨rfl, rfl⟩

theorem CommandEffect.pm {i : Instr} {s u : State} (h : CommandEffect i s u) (hi : i ∈ [.pmGetBytes, .pmGet32]) :
    u.pm = s.pm := by
  cases h with
  | transfer ht =>
    exfalso
    revert ht hi
    cases i <;> simp [isGet, isPut]
  | restored | resumed | translated | bytesWritten | lookedUp | cached | flushed => simp at hi
  | unchanged | wordRead | bytesRead => rfl

theorem CommandEffect.hostMem {i : Instr} {s u : State} (h : CommandEffect i s u)
    (hi : i ∉ [.getByte, .getBytes, .pmGetBytes, .setPmcb] ∨
      (i = .setPmcb ∧ (readArg s 3 = 0#32 ∨ (readArg s 0).extractLsb' 1 2 ≠ 1#2))) : u.hostMem = s.hostMem := by
  cases h with
  | transfer ht hu =>
    have hput : isPut i = true := by
      revert ht hi
      cases i <;> simp [isGet, isPut]
    rw [hput] at hu
    exact (executeLoop_rel hostMem_transferRel (loadedState i s)).endsIn hu
  | resumed h3 hu =>
    have h1 : (readArg s 0).extractLsb' 1 2 ≠ 1#2 := by simpa [h3] using hi
    have hkeep : (execute (restorePmcb (readImage s) s)).All (·.hostMem = s.hostMem) :=
      execute_hostMem fun h => h1 (ofBits_eq_read.mp h)
    exact hkeep.endsIn hu
  | translated hu => exact (toPhysical_endsIn_frame hu).hostMem
  | bytesRead => simp at hi
  | _ => rfl

/-- Settles O60. -/
theorem memoriesChangeOnlyByTheirCommands : Obligations.MemoriesChangeOnlyByTheirCommands := by
  unfold Obligations.MemoriesChangeOnlyByTheirCommands
  intro i s t h
  obtain ⟨u, heff, hend⟩ := exec_next h
  rw [hend.pm, hend.byteCount, hend.hostMem]
  refine ⟨heff.pm_byteCount, ?_, heff.pm, heff.hostMem⟩
  rintro rfl
  exact heff.setPmcb_pm_byteCount

end Sys2Proof.Machine
end

section
/-! SUPPORT. When a command is refused (10_state.md R58, R63, 44_transfer.md R294), and a transfer cut at a page boundary, which gives the
refusal of a later chunk. -/

namespace Sys2Proof.Machine

/-! ### The only refusal of a command -/

theorem moveChunk_refuse {isWrite : Bool} {pa buf n : Word} {s : State} {x : Refusal}
    (h : moveChunk isWrite pa buf n s = .refuse x) : x = .hostBufferRange := by
  cases hh : hostInRange s buf n with
  | false => simpa [moveChunk_refused hh] using h.symm
  | true =>
    cases hv : validRange s.cfg.size pa n with
    | false => simp [moveChunk_outside hh hv] at h
    | true => simp [moveChunk_inBounds hh hv] at h

theorem transferChunk_refuse {isWrite : Bool} {s : State} {x : Refusal} (h : transferChunk isWrite s = .refuse x) :
    x = .hostBufferRange := by
  cases ht : toPhysical s.pmcb.nextVaddress isWrite s with
  | ok pa t =>
    rw [transferChunk_translated ht] at h
    cases hm : moveChunk isWrite pa s.pmcb.userBuffer (nextChunk s) t with
    | ok a u => simp [hm] at h
    | raised f u => simp [hm] at h
    | refuse y =>
      obtain rfl : y = x := by simpa [hm] using h
      exact moveChunk_refuse hm
  | raised f t => simp [transferChunk, ht] at h
  | refuse y => exact absurd ht (toPhysical_ne_refuse _ _ _ _)

theorem executeLoop_refuse {isWrite : Bool} {s : State} {x : Refusal}
    (h : executeLoop isWrite s.pmcb.remainingCount.toNat s = .refuse x) : x = .hostBufferRange := by
  revert h
  refine executeLoop_induction (P := fun _ r => r = .refuse x → x = .hostBufferRange) ?_ ?_ ?_ ?_ s
  · intro s _ h
    cases h
  · intro s f t _ _ h
    cases h
  · intro s y _ hc h
    obtain rfl : y = x := by simpa using h
    exact transferChunk_refuse hc
  · intro s t r _ _ _ ih
    exact ih

theorem execute_refuse {s : State} {x : Refusal} (h : execute s = .refuse x) : x = .hostBufferRange := by
  unfold execute at h
  split at h
  · split at h <;> cases h
  · cases h
  · exact executeLoop_refuse h
  · exact executeLoop_refuse h

theorem finish_refused {α : Type} {r : Result α} {g : α → State → State} {x : Refusal} (h : finish r g = .refused x) :
    r = .refuse x := by
  cases r with
  | ok a s => simp at h
  | raised f s => simp at h
  | refuse y => simpa using h

theorem memRead32_ne_refuse (a : Word) (s : State) (x : Refusal) : memRead32 a s ≠ .refuse x := by
  cases hv : validRange s.cfg.size a 4#32 with
  | true => simp [memRead32_valid hv]
  | false => simp [memRead32_invalid hv]

theorem requireTlb_andThen_ne_refuse {α : Type} (s : State) {k : Unit → State → Result α} {x : Refusal}
    (hk : ∀ y u, k y u ≠ .refuse x) : (requireTlb s).andThen k ≠ .refuse x := by
  unfold requireTlb
  split
  · exact hk _ _
  · simp

/-- The refusals of a command (10_state.md R63): its host buffer range, in a command that reads or writes HostMem. -/
theorem exec_refused {i : Instr} {s : State} {x : Refusal} (h : exec i s = .refused x) : x = .hostBufferRange ∧
    i ∈ [.getByte, .getBytes, .putByte, .putBytes, .setPmcb, .pmGetBytes, .pmPutBytes] := by
  cases i with
  | getByte => exact ⟨execute_refuse (finish_refused h), by decide⟩
  | getBytes => exact ⟨execute_refuse (finish_refused h), by decide⟩
  | putByte => exact ⟨execute_refuse (finish_refused h), by decide⟩
  | putBytes => exact ⟨execute_refuse (finish_refused h), by decide⟩
  | setPmcb =>
    refine ⟨?_, by decide⟩
    have h := finish_refused h
    unfold resumePending at h
    split at h
    · cases h
    · exact execute_refuse h
  | pmGetBytes =>
    rw [exec, execPmGetBytes_eq] at h
    exact ⟨moveChunk_refuse (finish_refused h), by decide⟩
  | pmPutBytes =>
    rw [exec, execPmPutBytes_eq] at h
    exact ⟨moveChunk_refuse (finish_refused h), by decide⟩
  | toPhysical w => exact absurd (finish_refused h) (toPhysical_ne_refuse _ _ _ _)
  | pmGet32 => exact absurd (finish_refused h) (memRead32_ne_refuse _ _ _)
  | getTlbStats =>
    have h := finish_refused h
    unfold requireTlb at h
    split at h <;> cases h
  | tlbLookup => exact absurd (finish_refused h) (requireTlb_andThen_ne_refuse s fun _ _ => by simp)
  | tlbCache => exact absurd (finish_refused h) (requireTlb_andThen_ne_refuse s fun _ _ => by simp)
  | getPmcb | flushTlb | getFrameCount | getByteCount => cases h

/-- No command answers a fault of the machine (10_state.md R58). -/
theorem exec_ne_fault (i : Instr) (s : State) (f : Fault) : exec i s ≠ .fault f := by
  cases i with
  | getPmcb | flushTlb | getFrameCount | getByteCount => nofun
  | _ => exact finish_ne_fault _ _ f

theorem step_ne_fault (s : State) (f : Fault) : step s ≠ .fault f := by
  cases hp : s.pending with
  | nil => simp [step_idle hp]
  | cons a rest =>
    cases a with
    | writeArg n v => simp [step_writeArg hp]
    | writeHostMem i bytes =>
      rw [step_writeHostMem hp, hostStore]
      split <;> simp
    | writeCmd w =>
      rw [step_writeCmd hp]
      cases hd : decode w with
      | ok i =>
        rw [runCommand_decoded hd]
        exact exec_ne_fault i _ f
      | error e => simp [runCommand_rejected hd]

/-- Settles O58. -/
theorem noCommandStopsTheBlock : Obligations.NoCommandStopsTheBlock := by
  unfold Obligations.NoCommandStopsTheBlock
  refine ⟨fun i s => ?_, step_ne_fault⟩
  cases h : exec i s with
  | next t => exact .inl ⟨t, rfl⟩
  | fault f => exact absurd h (exec_ne_fault i s f)
  | refused x =>
    obtain ⟨rfl, hi⟩ := exec_refused h
    exact .inr ⟨rfl, hi⟩

/-! ### A transfer cut at a page boundary (44_transfer.md R293) -/

/-- The same cursor with `k` more bytes remaining, in the transfer `op`. -/
def extendTransfer (op : OperationState) (k : Word) (s : State) : State :=
  { s with pmcb := { s.pmcb with operationState := op, remainingCount := s.pmcb.remainingCount + k } }

/-- A chunk of a transfer that reaches a page boundary has the same size when more bytes follow. -/
theorem chunkSize_add {rem va k : Word} (h0 : rem ≠ 0#32) (hb : (va + rem).toNat % 4096 = 0)
    (hk : rem.toNat + k.toNat < 2 ^ 32) : chunkSize (rem + k) va = chunkSize rem va := by
  have hpos := toNat_ne_zero h0
  rw [BitVec.toNat_add] at hb
  refine BitVec.eq_of_toNat_eq ?_
  rw [chunkSize_toNat, chunkSize_toNat, BitVec.toNat_add]
  omega

theorem transferChunk_extendTransfer {isWrite : Bool} {op : OperationState} {k : Word} {s t : State}
    (h0 : s.pmcb.remainingCount ≠ 0#32) (hb : (s.pmcb.nextVaddress + s.pmcb.remainingCount).toNat % 4096 = 0)
    (hk : s.pmcb.remainingCount.toNat + k.toNat < 2 ^ 32) (h : transferChunk isWrite s = .ok () t) :
    transferChunk isWrite (extendTransfer op k s) = .ok () (extendTransfer op k t) := by
  have hrem : s.pmcb.remainingCount + k - nextChunk s = t.pmcb.remainingCount + k := by
    rw [transferChunk_pmcb h]
    bv_omega
  refine (transferChunk_remainingCount op (chunkSize_add h0 hb hk) h).trans ?_
  rw [hrem]
  rfl

/-- A transfer whose first bytes move to a page boundary goes on from there. -/
theorem executeLoop_extendTransfer {isWrite : Bool} (op : OperationState) {k : Word} {s t : State}
    (hb : s.pmcb.remainingCount = 0#32 ∨ (s.pmcb.nextVaddress + s.pmcb.remainingCount).toNat % 4096 = 0)
    (hk : s.pmcb.remainingCount.toNat + k.toNat < 2 ^ 32)
    (h : executeLoop isWrite s.pmcb.remainingCount.toNat s = .ok () t) :
    executeLoop isWrite (extendTransfer op k s).pmcb.remainingCount.toNat (extendTransfer op k s) =
      executeLoop isWrite (extendTransfer op k t).pmcb.remainingCount.toNat (extendTransfer op k t) := by
  revert hb hk h
  refine executeLoop_induction (P := fun s r =>
    (s.pmcb.remainingCount = 0#32 ∨ (s.pmcb.nextVaddress + s.pmcb.remainingCount).toNat % 4096 = 0) →
    s.pmcb.remainingCount.toNat + k.toNat < 2 ^ 32 → r = .ok () t →
    executeLoop isWrite (extendTransfer op k s).pmcb.remainingCount.toNat (extendTransfer op k s) =
      executeLoop isWrite (extendTransfer op k t).pmcb.remainingCount.toNat (extendTransfer op k t)) ?_ ?_ ?_ ?_ s
  · intro s _ _ _ h
    obtain rfl : completeTransfer s = t := by simpa using h
    rfl
  · intro s f u _ _ _ _ h
    cases h
  · intro s x _ _ _ _ h
    cases h
  · intro s u r h0 hc _ ih hb hk h
    have hb := hb.resolve_left h0
    have hpos := toNat_ne_zero h0
    have hne : (extendTransfer op k s).pmcb.remainingCount ≠ 0#32 := by
      show s.pmcb.remainingCount + k ≠ 0#32
      bv_omega
    have hcursor : u.pmcb.nextVaddress + u.pmcb.remainingCount = s.pmcb.nextVaddress + s.pmcb.remainingCount := by
      rw [transferChunk_pmcb hc]
      bv_omega
    have hrem := transferChunk_remaining hc
    rw [executeLoop_while hne, transferChunk_extendTransfer h0 hb hk hc, andThen_ok]
    exact ih (.inr (by rw [hcursor, hb])) (by omega) h

/-- A completed loop has no bytes remaining (44_transfer.md R297). -/
theorem executeLoop_ok_remaining {isWrite : Bool} {s t : State}
    (h : executeLoop isWrite s.pmcb.remainingCount.toNat s = .ok () t) : t.pmcb.remainingCount = 0#32 := by
  revert h
  refine executeLoop_induction (P := fun _ r => r = .ok () t → t.pmcb.remainingCount = 0#32) ?_ ?_ ?_ ?_ s
  · intro s h0 h
    obtain rfl : completeTransfer s = t := by simpa using h
    exact h0
  · intro s f u _ _ h
    cases h
  · intro s x _ _ h
    cases h
  · intro s u r _ _ _ ih
    exact ih

/-- Execute in a transfer that is in flight is the loop (44_transfer.md R298). -/
theorem execute_inFlight {s : State} (h : s.pmcb.operationState = .read ∨ s.pmcb.operationState = .write) :
    execute s = executeLoop (decide (s.pmcb.operationState = .write)) s.pmcb.remainingCount.toNat s := by
  rcases h with h | h
  · simp [h]
  · simp [h]

/-- Execute cut after `m` bytes, none or up to a page boundary: if the first `m` move, it goes on with the rest. -/
theorem execute_cut {s t : State} {m : Word}
    (hop : s.pmcb.operationState = .read ∨ s.pmcb.operationState = .write)
    (hm : m.toNat ≤ s.pmcb.remainingCount.toNat) (hb : m = 0#32 ∨ (s.pmcb.nextVaddress + m).toNat % 4096 = 0)
    (h : execute { s with pmcb := { s.pmcb with remainingCount := m } } = .ok () t) :
    execute s = execute { t with pmcb := { t.pmcb with
      operationState := s.pmcb.operationState
      remainingCount := s.pmcb.remainingCount - m } } := by
  have hlt := s.pmcb.remainingCount.isLt
  have hsplit : m + (s.pmcb.remainingCount - m) = s.pmcb.remainingCount := by bv_omega
  have hsub : (s.pmcb.remainingCount - m).toNat = s.pmcb.remainingCount.toNat - m.toNat :=
    BitVec.toNat_sub_of_le (by rw [BitVec.le_def]; exact hm)
  rw [execute_inFlight (by exact hop)] at h
  have hcut := executeLoop_extendTransfer s.pmcb.operationState (k := s.pmcb.remainingCount - m) hb
    (by simp only [hsub]; omega) h
  have hs : extendTransfer s.pmcb.operationState (s.pmcb.remainingCount - m)
      { s with pmcb := { s.pmcb with remainingCount := m } } = s := by
    simp only [extendTransfer, hsplit]
  have ht : extendTransfer s.pmcb.operationState (s.pmcb.remainingCount - m) t =
      { t with pmcb := { t.pmcb with
        operationState := s.pmcb.operationState
        remainingCount := s.pmcb.remainingCount - m } } := by
    simp only [extendTransfer, executeLoop_ok_remaining h, BitVec.zero_add]
  rw [hs, ht] at hcut
  rw [execute_inFlight hop, execute_inFlight (by exact hop)]
  exact hcut

/-- A chunk that translates and whose host range passes HOST_MEM_SIZE refuses Execute (R294). -/
theorem execute_refused_of_chunk {s v : State} {pa : Word}
    (hop : s.pmcb.operationState = .read ∨ s.pmcb.operationState = .write) (h0 : s.pmcb.remainingCount ≠ 0#32)
    (ht : toPhysical s.pmcb.nextVaddress (decide (s.pmcb.operationState = .write)) s = .ok pa v)
    (hh : s.cfg.hostMemSize < s.pmcb.userBuffer.toNat + (nextChunk s).toNat) :
    execute s = .refuse .hostBufferRange := by
  have hout : hostInRange v s.pmcb.userBuffer (nextChunk s) = false := by
    rw [Bool.eq_false_iff, Ne, hostInRange_iff, (toPhysical_frame_ok ht).cfg]
    omega
  rw [execute_inFlight hop, executeLoop_while h0, transferChunk_translated ht, moveChunk_refused hout]
  rfl

/-- A transfer command is Execute on the loaded state (44_transfer.md R299 to R302). -/
theorem exec_eq_execute {i : Instr} {s : State} (h : isGet i = true ∨ isPut i = true) :
    exec i s = finishPlain (execute (loadedState i s)) := by
  cases i <;> simp [isGet, isPut] at h <;> rfl

/-- Settles O44: the transfer cut after `m` bytes goes on with the chunk that is refused. -/
theorem hostBufferRangeRefused : Obligations.HostBufferRangeRefused := by
  unfold Obligations.HostBufferRangeRefused
  refine ⟨fun s t u v m pa hop hm hb hex hu ht hh => ?_, fun i s hi hex => ?_, fun s h3 hex => ?_⟩
  · have hcfg : t.cfg = s.cfg := by
      have := execute_rel cfg_commandRel.get cfg_commandRel.put
        { s with pmcb := { s.pmcb with remainingCount := m } }
      rwa [hex] at this
    rw [execute_cut hop (Nat.le_of_lt hm) hb hex, ← hu]
    subst hu
    refine execute_refused_of_chunk hop ?_ ht ?_
    · show s.pmcb.remainingCount - m ≠ 0#32
      bv_omega
    · show t.cfg.hostMemSize < _
      rw [hcfg]
      exact hh
  · rw [exec_eq_execute hi, hex]
    rfl
  · show finishPlain (resumePending _) = _
    rw [resumePending, if_neg (by exact h3), hex]
    rfl

end Sys2Proof.Machine
end

section
/-! SUPPORT. What a get writes of HostMem (44_transfer.md R299, R300, 10_state.md R62). -/

namespace Sys2Proof.Machine

/-- An address of HostMem outside the buffer range of the transfer in flight. -/
def outsideBuffer (s : State) (a : Nat) : Prop :=
  a < s.pmcb.userBuffer.toNat ∨ s.pmcb.userBuffer.toNat + s.pmcb.remainingCount.toNat ≤ a

/-- HostMem after a chunk of a get: canonical, and unchanged outside the chunk's part of the buffer. -/
theorem transferChunk_get_hostMem {s t : State} (hwf : s.hostMem.wf = true) (h : transferChunk false s = .ok () t) :
    t.hostMem.wf = true ∧
      ∀ a, (a < s.pmcb.userBuffer.toNat ∨ s.pmcb.userBuffer.toNat + (nextChunk s).toNat ≤ a) →
        t.hostMem.read a = s.hostMem.read a := by
  obtain ⟨pa, u, hu, -, -, rfl⟩ := transferChunk_ok h
  have hmem := (toPhysical_frame_ok hu).hostMem
  rw [advanceCursor_hostMem, movedState_get, countBytes_hostMem]
  dsimp only
  rw [hmem]
  refine ⟨Memory.wf_writeBytes hwf _ _, fun a ha => Memory.read_writeBytes_outside hwf _ _ ?_⟩
  rwa [Memory.length_readBytes]

theorem transferChunk_raised_hostMem {isWrite : Bool} {s t : State} {f : MmuFault}
    (h : transferChunk isWrite s = .raised f t) : t.hostMem = s.hostMem := by
  rcases transferChunk_raised h with h | ⟨pa, h, -⟩
  · exact (toPhysical_frame_raised h).hostMem
  · exact (toPhysical_frame_ok h).hostMem

/-- A get, completed or faulted, keeps HostMem outside its buffer. -/
theorem executeLoop_get_hostMem {s : State} {a : Nat} (hwf : s.hostMem.wf = true)
    (hr : s.pmcb.userBuffer.toNat + s.pmcb.remainingCount.toNat ≤ 2 ^ 32) (ha : outsideBuffer s a) :
    (executeLoop false s.pmcb.remainingCount.toNat s).All (·.hostMem.read a = s.hostMem.read a) := by
  revert hwf hr ha
  refine executeLoop_induction (P := fun s r => s.hostMem.wf = true →
    s.pmcb.userBuffer.toNat + s.pmcb.remainingCount.toNat ≤ 2 ^ 32 → outsideBuffer s a →
    r.All (·.hostMem.read a = s.hostMem.read a)) ?_ ?_ ?_ ?_ s
  · intro s _ _ _ _
    rfl
  · intro s f t _ hc _ _ _
    exact congrArg (Memory.read · a) (transferChunk_raised_hostMem hc)
  · intro s x _ _ _ _ _
    trivial
  · intro s t r h0 hc _ ih hwf hr ha
    obtain ⟨hwf', hsame⟩ := transferChunk_get_hostMem hwf hc
    have hle : (nextChunk s).toNat ≤ s.pmcb.remainingCount.toNat := chunkSize_le _ _
    have hrem := transferChunk_remaining hc
    have hbuf : t.pmcb.userBuffer.toNat = (s.pmcb.userBuffer.toNat + (nextChunk s).toNat) % 2 ^ 32 := by
      rw [transferChunk_pmcb hc, BitVec.toNat_add]
    unfold outsideBuffer at ha ih
    rw [← hsame a (by omega)]
    exact ih hwf' (by omega) (by omega)

/-- Settles O52. -/
theorem getFillsOnlyItsBuffer : Obligations.GetFillsOnlyItsBuffer := by
  unfold Obligations.GetFillsOnlyItsBuffer
  intro i s t hi hs hr h a ha
  obtain ⟨-, -, -, hwf, -⟩ := (inv_iff s).mp hs
  have hloop := executeLoop_get_hostMem (s := loadedState i s) (a := a) hwf hr ha
  rw [exec_transfer (.inl hi), isPut_of_isGet hi] at h
  obtain ⟨u, hu, hend⟩ := finishPlain_commandEnd i h
  rw [hend.hostMem]
  exact hloop.endsIn hu

end Sys2Proof.Machine
end

section
/-! SUPPORT. What a translation can do to a byte of PhysicalMemory (20_memory.md R88, 43_translate.md R255, R258): a write-back changes
the lowest byte of its PTE alone, and there it only adds A, and M for a write. -/

namespace Sys2Proof.Machine

/-! ### One write-back -/

/-- The bits `pteMark` adds, in the lowest byte of a PTE: A, and M for a write (R88). -/
def markBits (w : Bool) : Byte := if w then 0x60#8 else 0x20#8

theorem bytesOfWord_pteMark (v : Word) (w : Bool) :
    bytesOfWord (pteMark v w) = (bytesOfWord v).modifyHead (· ||| markBits w) := by
  cases w with
  | false => simp [bytesOfWord, pteMark, markBits, BitVec.extractLsb'_or]
  | true => simp [bytesOfWord, pteMark, markBits, BitVec.extractLsb'_or, BitVec.or_assoc]

theorem Memory.read_writeBytes_readBytes {m : Memory} (h : m.wf = true) (a n x : Nat) :
    (m.writeBytes a (m.readBytes a n)).read x = m.read x := by
  rw [Memory.read_writeBytes h, Memory.length_readBytes]
  split
  · rw [Memory.getD_readBytes m a n (x - a) (by omega), Nat.add_sub_cancel' (by omega)]
  · rfl

/-- The write-back of a PTE changes its lowest byte only, by adding the marks. -/
theorem read_pmPutWord_pteMark {m : Memory} (h : m.wf = true) (a : Word) (w : Bool) (x : Nat) :
    (pmPutWord m a (pteMark (pmWord m a) w)).read x =
      if x = a.toNat then m.read a.toNat ||| markBits w else m.read x := by
  rw [pmPutWord, bytesOfWord_pteMark, bytesOfWord_pmWord]
  show Memory.read (Memory.write (Memory.writeBytes m (a.toNat + 1) (m.readBytes (a.toNat + 1) 3)) a.toNat _) x = _
  rw [Memory.read_write (Memory.wf_writeBytes h _ _), Memory.read_writeBytes_readBytes h]

/-! ### A whole translation -/

/-- From a canonical PhysicalMemory to one whose bytes are the old ones, some with the marks added. -/
def AddsMarks (w : Bool) (s t : State) : Prop :=
  s.pm.wf = true → t.pm.wf = true ∧ ∀ a, t.pm.read a = s.pm.read a ∨ t.pm.read a = s.pm.read a ||| markBits w

theorem addsMarks_of_pm_eq {w : Bool} {s t : State} (h : t.pm = s.pm) : AddsMarks w s t := fun hs => by
  rw [h]
  exact ⟨hs, fun _ => .inl rfl⟩

/-- Marks added twice are added once. -/
theorem AddsMarks.trans {w : Bool} {s t u : State} (h : AddsMarks w s t) (h' : AddsMarks w t u) : AddsMarks w s u := by
  intro hs
  obtain ⟨ht, hst⟩ := h hs
  obtain ⟨hu, htu⟩ := h' ht
  refine ⟨hu, fun a => ?_⟩
  rcases htu a with hua | hua <;> rw [hua]
  · exact hst a
  · refine .inr ?_
    rcases hst a with hta | hta <;> rw [hta]
    rw [BitVec.or_assoc, BitVec.or_self]

theorem addsMarks_writeBack (w : Bool) (a : Word) (s : State) :
    AddsMarks w s (countBytes 4#32 { s with pm := pmPutWord s.pm a (pteMark (pmWord s.pm a) w) }) := by
  intro hs
  refine ⟨pmPutWord_wf hs _ _, fun x => ?_⟩
  rw [countBytes_pm, read_pmPutWord_pteMark hs]
  split
  · rename_i hx
    exact .inr (hx ▸ rfl)
  · exact .inl rfl

theorem addsMarks_translationRel (w : Bool) : TranslationRel w (AddsMarks w) where
  refl _ := addsMarks_of_pm_eq rfl
  trans _ _ _ := AddsMarks.trans
  lookup _ _ _ := addsMarks_of_pm_eq rfl
  cache _ _ _ _ := addsMarks_of_pm_eq rfl
  read _ := addsMarks_of_pm_eq rfl
  mark a s _ := addsMarks_writeBack w a s

/-- Settles O36: each effect of a translation only adds the marks, and so does the end of the command. -/
theorem translationOnlyAddsAccessedAndModified : Obligations.TranslationOnlyAddsAccessedAndModified := by
  unfold Obligations.TranslationOnlyAddsAccessedAndModified
  intro s t w hs h a
  obtain ⟨-, hpm, -⟩ := (inv_iff s).mp hs
  have htranslated : (toPhysical (readArg s 0) w s).All (AddsMarks w s) := toPhysical_rel (addsMarks_translationRel w) _ s
  have hmarks : AddsMarks w s t := finish_all (g := writeRes 0) htranslated (fun _ _ hu => hu) (fun _ _ hu => hu) h
  exact (hmarks hpm).2 a

end Sys2Proof.Machine
end

section
/-! SUPPORT. Decode and encode are inverse (30_encoding.md R121, R126, R127): a word is the join of its fields, every row of the opcode
map leaves at most WR free, and the words that no row selects are those with ill-formed fields. -/

namespace Sys2Proof

/-! ### A word and its fields (R121) -/

/-- The bits of a word are those of its fields: OPC in [7:0], WR in [8], RSV in [31:9]. -/
theorem getLsbD_joinWord (f : CommandFields) (k : Nat) : (joinWord f).getLsbD k =
    if k < 8 then f.opc.getLsbD k else if k = 8 then f.wr else f.rsv.getLsbD (k - 9) := by
  have happend : (joinWord f).getLsbD k = (f.rsv ++ BitVec.ofBool f.wr ++ f.opc).getLsbD k := rfl
  rw [happend, BitVec.getLsbD_append, BitVec.getLsbD_append, BitVec.getLsbD_ofBool]
  grind

@[simp] theorem splitWord_joinWord (f : CommandFields) : splitWord (joinWord f) = f := by
  have hopc : (joinWord f).extractLsb' 0 8 = f.opc := by
    ext k hk
    simp [getLsbD_joinWord, hk]
  have hwr : (joinWord f).getLsbD 8 = f.wr := by simp only [getLsbD_joinWord]; rfl
  have hrsv : (joinWord f).extractLsb' 9 23 = f.rsv := by
    ext k hk
    have hopc : ¬ 9 + k < 8 := by omega
    have hwr : 9 + k ≠ 8 := by omega
    simp [getLsbD_joinWord, hopc, hwr, hk]
  rw [splitWord, hopc, hwr, hrsv]

@[simp] theorem joinWord_splitWord (w : Word) : joinWord (splitWord w) = w := by
  refine BitVec.eq_of_getLsbD_eq fun k hk => ?_
  simp only [getLsbD_joinWord, splitWord, BitVec.getLsbD_extractLsb']
  grind

theorem eq_joinWord_iff {w : Word} {f : CommandFields} : w = joinWord f ↔ splitWord w = f :=
  ⟨fun h => by rw [h, splitWord_joinWord], fun h => by rw [← h, joinWord_splitWord]⟩

theorem eq_encode_iff {w : Word} {i : Instr} : w = encode i ↔ splitWord w = i.fields := eq_joinWord_iff

/-! ### The rows of the opcode map (R126) -/

/-- The WR bit in its place, CMD[8]. -/
def writeFlagWord (wr : Bool) : Word := if wr then 0x100#32 else 0#32

theorem and_writeFlag (w : Word) : w &&& 0x100#32 = writeFlagWord (w.getLsbD 8) := BitVec.and_twoPow w 8

/-- No mask leaves a bit free but WR. -/
theorem freeBits_subset_writeFlag : ∀ r ∈ opcodeTable, ~~~r.mask = 0x100#32 &&& ~~~r.mask := by decide

/-- A row's commands have the row's match as their word, with WR in it where the mask leaves it free. -/
theorem encode_build : ∀ r ∈ opcodeTable, ∀ wr, encode (r.build wr) = r.pattern ||| (writeFlagWord wr &&& ~~~r.mask) := by
  decide

theorem eq_encode_of_selects {r : OpcodeRow} {w : Word} (hr : r ∈ opcodeTable) (h : w &&& r.mask = r.pattern) :
    w = encode (r.build (w.getLsbD 8)) := by
  have hfree : w &&& ~~~r.mask = writeFlagWord (w.getLsbD 8) &&& ~~~r.mask := by
    rw [← and_writeFlag, BitVec.and_assoc, ← freeBits_subset_writeFlag r hr]
  calc
    w = (w &&& r.mask) ||| (w &&& ~~~r.mask) := by rw [← BitVec.and_or_distrib_left, BitVec.or_not_self, BitVec.and_allOnes]
    _ = encode (r.build (w.getLsbD 8)) := by rw [h, hfree, encode_build r hr]

/-! ### Decode and encode -/

@[simp] theorem decode_encode (i : Instr) : decode (encode i) = .ok i := by
  cases i with
  | toPhysical wr => cases wr <;> rfl
  | _ => rfl

theorem eq_encode_of_decode {w : Word} {i : Instr} (h : decode w = .ok i) : w = encode i := by
  cases hf : opcodeTable.find? (fun r => r.selects w) with
  | none => simp [decode, hf] at h
  | some r =>
    obtain rfl : r.build (splitWord w).wr = i := by simpa [decode, hf] using h
    exact eq_encode_of_selects (List.mem_of_find?_eq_some hf) (by simpa [OpcodeRow.selects] using List.find?_some hf)

theorem decode_eq_ok_iff {w : Word} {i : Instr} : decode w = .ok i ↔ w = encode i :=
  ⟨eq_encode_of_decode, fun h => by rw [h, decode_encode]⟩

theorem decode_of_selects {r : OpcodeRow} {w : Word} (hr : r ∈ opcodeTable) (h : w &&& r.mask = r.pattern) :
    decode w = .ok (r.build (w.getLsbD 8)) :=
  decode_eq_ok_iff.mpr (eq_encode_of_selects hr h)

/-! ### The words that decode (R127) -/

theorem fields_wellFormed (i : Instr) : i.fields.wellFormed = true := by
  cases i with
  | toPhysical wr => cases wr <;> rfl
  | _ => rfl

theorem assignedOpcodes_eq_map : assignedOpcodes = opcodeTable.map (fun r => (r.build false).opcode) := rfl

theorem writeFlag_build_false : ∀ r ∈ opcodeTable, (r.build false).writeFlag = false := by decide

/-- Well-formed fields are the fields of a command: its row's, or those of TO_PHYSICAL for a write when WR is 1. -/
theorem exists_fields_of_wellFormed {f : CommandFields} (h : f.wellFormed = true) : ∃ i : Instr, f = i.fields := by
  obtain ⟨opc, wr, rsv⟩ := f
  simp only [CommandFields.wellFormed, CommandFields.reservedClear, CommandFields.opcodeAssigned,
    CommandFields.writeFlagAllowed, Bool.and_eq_true, beq_iff_eq, List.contains_iff_mem] at h
  obtain ⟨⟨rfl, hopc⟩, hwr⟩ := h
  cases wr with
  | true =>
    obtain rfl : opc = writeFlagOpcode := by simpa using hwr
    exact ⟨.toPhysical true, rfl⟩
  | false =>
    rw [assignedOpcodes_eq_map] at hopc
    obtain ⟨r, hr, rfl⟩ := List.mem_map.mp hopc
    exact ⟨r.build false, by rw [Instr.fields, writeFlag_build_false r hr]⟩

theorem wellFormed_iff_decodes {w : Word} : (splitWord w).wellFormed = true ↔ ∃ i, decode w = .ok i := by
  simp only [decode_eq_ok_iff, eq_encode_iff]
  exact ⟨exists_fields_of_wellFormed, fun ⟨i, hi⟩ => hi ▸ fields_wellFormed i⟩

theorem decode_error_eq {w : Word} {e : DecodeReject} (h : decode w = .error e) : e = rejectReason w := by
  unfold decode at h
  split at h <;> cases h
  rfl

theorem decode_of_illFormed {w : Word} (h : (splitWord w).wellFormed = false) : decode w = .error (rejectReason w) := by
  cases hd : decode w with
  | ok i => simp [wellFormed_iff_decodes.mpr ⟨i, hd⟩] at h
  | error e => rw [decode_error_eq hd]

/-! ### The statements about the decoder -/

/-- Settles O3: a row's selection gives back every bit of the word, so the row's command has no other word. -/
theorem decodeIsExactlyInverseOfEncode : Obligations.DecodeIsExactlyInverseOfEncode := by
  unfold Obligations.DecodeIsExactlyInverseOfEncode
  exact fun w i => decode_eq_ok_iff

/-- Settles O1: the eight commands by their encoding, the four rejected words by their ill-formed fields. -/
theorem specCommandWordsDecode : Obligations.SpecCommandWordsDecode := by
  unfold Obligations.SpecCommandWordsDecode
  exact ⟨decode_encode .putBytes, decode_encode (.toPhysical false), decode_encode (.toPhysical true),
    decode_of_illFormed rfl, decode_of_illFormed rfl, decode_of_illFormed rfl, decode_of_illFormed rfl,
    decode_encode .tlbCache, decode_encode .setPmcb, decode_encode .flushTlb, decode_encode .getFrameCount,
    decode_encode .pmGet32⟩

/-- Settles O2: the statement is `decode_of_selects`, written out for each row of the map. -/
theorem opcodeMapSelectsByMask : Obligations.OpcodeMapSelectsByMask := by
  unfold Obligations.OpcodeMapSelectsByMask
  intro w
  have hrows : ∀ r ∈ opcodeTable, w &&& r.mask = r.pattern → decode w = .ok (r.build (w.getLsbD 8)) :=
    fun r hr => decode_of_selects hr
  simpa only [opcodeTable, List.forall_mem_cons, List.not_mem_nil, false_imp_iff, implies_true,
    and_true] using hrows

end Sys2Proof
end

section
/-! SUPPORT. When the host's write of CMD is refused for its word (30_encoding.md R122, R127), and not for what its command does. -/

namespace Sys2Proof.Machine

/-- The refusals of a command word (R127; log 7). -/
def wordRefusals : List Refusal := [.reservedBits, .unassignedOpcode, .writeFlagNotAllowed]

theorem rejection_mem_wordRefusals (e : DecodeReject) : rejection e ∈ wordRefusals := by
  cases e <;> decide

theorem hostBufferRange_not_mem_wordRefusals : Refusal.hostBufferRange ∉ wordRefusals := by decide

/-- A word is refused as a word exactly when its fields are ill formed: a command's only refusal is the host buffer range. -/
theorem runCommand_wordRefusal_iff (w : Word) (s : State) :
    (∃ x, x ∈ wordRefusals ∧ runCommand w s = .refused x) ↔ (splitWord w).wellFormed = false := by
  cases hwf : (splitWord w).wellFormed with
  | false =>
    exact iff_of_true ⟨_, rejection_mem_wordRefusals _, runCommand_rejected (decode_of_illFormed hwf)⟩ rfl
  | true =>
    obtain ⟨i, hd⟩ := wellFormed_iff_decodes.mp hwf
    refine iff_of_false ?_ nofun
    rintro ⟨x, hx, hr⟩
    rw [runCommand_decoded hd] at hr
    obtain ⟨rfl, -⟩ := exec_refused hr
    exact hostBufferRange_not_mem_wordRefusals hx

/-- The three conditions of R127 on the bits of a word. -/
theorem illFormed_iff (w : Word) : (splitWord w).wellFormed = false ↔
    w.extractLsb' 0 8 ∉ assignedOpcodes ∨ w.extractLsb' 9 23 ≠ 0#23 ∨
      (w.getLsbD 8 = true ∧ w.extractLsb' 0 8 ≠ writeFlagOpcode) := by
  simp only [CommandFields.wellFormed, CommandFields.reservedClear, CommandFields.opcodeAssigned,
    CommandFields.writeFlagAllowed, splitWord, Bool.and_eq_false_iff, Bool.or_eq_false_iff, Bool.not_eq_false',
    beq_eq_false_iff_ne, List.contains_eq_mem, decide_eq_false_iff_not]
  tauto

/-- Settles O4: a write of CMD runs its word, which is refused as a word exactly when its fields are ill formed. -/
theorem wordsOutsideTheMapAreRefused : Obligations.WordsOutsideTheMapAreRefused := by
  unfold Obligations.WordsOutsideTheMapAreRefused
  intro s w rest hp
  rw [step_writeCmd hp]
  exact (illFormed_iff w).symm.trans (runCommand_wordRefusal_iff w _).symm

end Sys2Proof.Machine
end

section
/-! SUPPORT. PhysicalMemory and its test port (40_physical_memory.md R161 to R172): when a range is not valid, what a block copied
between two memories reads as, and the statements about the primitives and the commands that reach them directly. -/

namespace Sys2Proof.Machine

/-! ### Ranges (R161, 10_state.md R63) -/

/-- The ranges that fail validation: none of them wraps into a valid one, as SIZE is below 2^32 (R161). -/
theorem validRange_eq_false_iff {c : Config} (hc : c.legal = true) (addr n : Word) :
    validRange c.size addr n = false ↔ n.toNat = 0 ∨ c.size < addr.toNat + n.toNat := by
  rw [← Bool.not_eq_true, validRange_iff (Config.size_lt hc)]
  omega

theorem hostInRange_eq_false_iff (s : State) (i n : Word) :
    hostInRange s i n = false ↔ s.cfg.hostMemSize < i.toNat + n.toNat := by
  rw [← Bool.not_eq_true, hostInRange_iff, Nat.not_le]

/-! ### A block copied between memories -/

/-- Read after a block copy: byte k of the source's block at `b + k`, every address outside the target's block as before. -/
theorem Memory.read_copy {m : Memory} (h : m.wf = true) (src : Memory) (b a n x : Nat) :
    (m.writeBytes b (src.readBytes a n)).read x = if b ≤ x ∧ x < b + n then src.read (a + (x - b)) else m.read x := by
  rw [Memory.read_writeBytes h, Memory.length_readBytes]
  split
  · exact Memory.getD_readBytes src a n (x - b) (by omega)
  · rfl

/-! ### The primitives (R161 to R163, R172) -/

/-- Settles O11: `validRange_iff`, for the SIZE of a legal configuration. -/
theorem rangeValidation : Obligations.RangeValidation := by
  unfold Obligations.RangeValidation
  intro s addr n bytes hc
  exact ⟨validRange_iff (Config.size_lt hc) addr n, fun hv => ⟨memRead_invalid hv, memWrite_invalid hv⟩⟩

/-- MemRead gives back what MemWrite stored in the same range (R172). -/
theorem memRead_of_memWrite {s : State} {addr n : Word} {d : List Byte} (hpm : s.pm.wf = true)
    (hv : validRange s.cfg.size addr n = true) (hl : d.length = n.toNat) :
    ∃ t u, memWrite addr n d s = .ok () t ∧ memRead addr n t = .ok d u := by
  have hread := memRead_valid (s := countBytes n { s with pm := s.pm.writeBytes addr.toNat d }) hv
  rw [countBytes_pm, ← hl, Memory.readBytes_writeBytes hpm] at hread
  exact ⟨_, _, memWrite_valid hv hl, hread⟩

/-- Settles O12. -/
theorem roundTripAndBoundsAtomicity : Obligations.RoundTripAndBoundsAtomicity := by
  unfold Obligations.RoundTripAndBoundsAtomicity
  intro s addr n d hc hpm hl
  refine ⟨fun hn hend => ?_, fun hv => ⟨memRead_invalid hv, memWrite_invalid hv⟩⟩
  exact memRead_of_memWrite hpm ((validRange_iff (Config.size_lt hc) addr n).mpr ⟨hn, hend⟩) hl

/-! ### PM_GET_BYTES, PM_PUT_BYTES and PM_GET_32 (R167 to R169) -/

/-- A command that moves one block: the host range is tested first, then the physical range; bytes move only when both hold. -/
theorem finishPlain_moveChunk {s : State} (hc : s.cfg.legal = true) (isWrite : Bool) (pa buf n : Word) :
    (s.cfg.hostMemSize < buf.toNat + n.toNat → finishPlain (moveChunk isWrite pa buf n s) = .refused .hostBufferRange) ∧
    (buf.toNat + n.toNat ≤ s.cfg.hostMemSize →
      (n.toNat = 0 ∨ s.cfg.size < pa.toNat + n.toNat →
        finishPlain (moveChunk isWrite pa buf n s) = .next (takeFault (.physicalMemoryBounds pa) s)) ∧
      (1 ≤ n.toNat → pa.toNat + n.toNat ≤ s.cfg.size →
        finishPlain (moveChunk isWrite pa buf n s) = .next (succeed (movedState isWrite pa buf n s)))) := by
  refine ⟨fun hout => ?_, fun hin => ?_⟩
  · rw [moveChunk_refused ((hostInRange_eq_false_iff ..).mpr hout)]
    rfl
  · have hh := (hostInRange_iff s buf n).mpr hin
    refine ⟨fun hbad => ?_, fun hn hend => ?_⟩
    · rw [moveChunk_outside hh ((validRange_eq_false_iff hc ..).mpr hbad)]
      rfl
    · rw [moveChunk_inBounds hh ((validRange_iff (Config.size_lt hc) ..).mpr ⟨hn, hend⟩)]
      rfl

/-- Settles O13: PM_GET_BYTES is one such move, into HostMem. -/
theorem pmGetBytesCommand : Obligations.PmGetBytesCommand := by
  unfold Obligations.PmGetBytesCommand
  refine ⟨decode_encode .pmGetBytes, fun s hs => ?_⟩
  obtain ⟨hc, -, -, hhost, -⟩ := (inv_iff s).mp hs
  rw [show exec .pmGetBytes s = _ from execPmGetBytes_eq s]
  refine (finishPlain_moveChunk hc false _ _ _).imp_right fun hmove hin => (hmove hin).imp_right fun hmoved hn hend => ?_
  exact ⟨_, hmoved hn hend, Memory.read_copy hhost _ _ _ _⟩

/-- Settles O14: PM_PUT_BYTES is one such move, into PhysicalMemory. -/
theorem pmPutBytesCommand : Obligations.PmPutBytesCommand := by
  unfold Obligations.PmPutBytesCommand
  refine ⟨decode_encode .pmPutBytes, fun s hs => ?_⟩
  obtain ⟨hc, hpm, -⟩ := (inv_iff s).mp hs
  rw [show exec .pmPutBytes s = _ from execPmPutBytes_eq s]
  refine (finishPlain_moveChunk hc true _ _ _).imp_right fun hmove hin => (hmove hin).imp_right fun hmoved hn hend => ?_
  exact ⟨_, hmoved hn hend, Memory.read_copy hpm _ _ _ _⟩

theorem execPmGet32_valid {s : State} (hv : validRange s.cfg.size (readArg s 0) 4#32 = true) :
    execPmGet32 s = .next (succeed (writeRes 0 (pmWord s.pm (readArg s 0)) (countBytes 4#32 s))) := by
  rw [execPmGet32, memRead32_valid hv, finish_ok]

theorem execPmGet32_invalid {s : State} (hv : validRange s.cfg.size (readArg s 0) 4#32 = false) :
    execPmGet32 s = .next (takeFault (.physicalMemoryBounds (readArg s 0)) s) := by
  rw [execPmGet32, memRead32_invalid hv, finish_raised]

/-- Settles O15. -/
theorem pmGet32Command : Obligations.PmGet32Command := by
  unfold Obligations.PmGet32Command
  refine ⟨decode_encode .pmGet32, fun s hc => ⟨fun hend => ?_, fun hout => ?_⟩⟩
  · exact execPmGet32_valid ((validRange_iff (Config.size_lt hc) _ 4#32).mpr ⟨by decide, hend⟩)
  · exact execPmGet32_invalid ((validRange_eq_false_iff hc _ 4#32).mpr (.inr hout))

/-! ### GET_FRAME_COUNT and GET_BYTE_COUNT (R170, R171) -/

/-- FRAME_COUNT of a legal configuration fits a RES register (R9). -/
theorem Config.frameCount_lt {c : Config} (h : c.legal = true) : c.frameCount < 2 ^ 32 := by
  have := Config.size_lt h
  unfold Config.size pageSize at this
  omega

/-- The two words of a u64 hold its value (30_encoding.md R124). -/
theorem toNat_lowWord_add_highWord (c : Count) : (lowWord c).toNat + 2 ^ 32 * (highWord c).toNat = c.toNat := by
  simp only [lowWord, highWord, BitVec.extractLsb'_toNat, Nat.shiftRight_eq_div_pow]
  omega

/-- A pair of RES registers written with a u64 holds its value (R124). -/
theorem toNat_writeResPair {lo hi : Fin 12} (h : lo ≠ hi) (c : Count) (s : State) :
    (writeResPair lo hi c s).res[lo].toNat + 2 ^ 32 * (writeResPair lo hi c s).res[hi].toNat = c.toNat := by
  have hlo : (writeResPair lo hi c s).res[lo] = lowWord c := by
    simp [writeResPair, Vector.getElem_set_ne, Fin.val_ne_of_ne h.symm]
  have hhi : (writeResPair lo hi c s).res[hi] = highWord c := by simp [writeResPair]
  rw [hlo, hhi, toNat_lowWord_add_highWord]

/-- Settles O16: the registers written are read off, and `exec_res` keeps the rest. -/
theorem counterQueries : Obligations.CounterQueries := by
  unfold Obligations.CounterQueries
  have one : ∀ k : Fin 12, 1 ≤ k.val → k ∉ resultRegs .getFrameCount := by decide
  have two : ∀ k : Fin 12, 2 ≤ k.val → k ∉ resultRegs .getByteCount := by decide
  refine ⟨decode_encode .getFrameCount, decode_encode .getByteCount, fun s => ⟨?_, ?_⟩⟩
  · have h : exec .getFrameCount s = .next (succeed (writeRes 0 (BitVec.ofNat 32 s.cfg.frameCount) s)) := rfl
    exact ⟨_, h, fun hc => by simpa using Config.frameCount_lt hc, fun k hk => exec_res h (one k hk)⟩
  · have h : exec .getByteCount s = .next (succeed (writeResPair 0 1 s.byteCount s)) := rfl
    exact ⟨_, h, toNat_writeResPair (by decide) s.byteCount s, fun k hk => exec_res h (two k hk)⟩

end Sys2Proof.Machine
end

section
/-! SUPPORT. The TranslationCache and its commands (41_tlb.md R190 to R201): what the TLB commands answer with and without a TLB, which
entries a Cache keeps, and the LRU stamps before TLB.seq wraps. -/

namespace Sys2Proof.Machine

/-! ### The commands with and without a TLB (R197 to R200) -/

theorem requireTlb_present {s : State} (hp : s.cfg.tlbPresent = true) : requireTlb s = .ok () s := if_pos hp

theorem requireTlb_absent {s : State} (hp : s.cfg.tlbPresent = false) : requireTlb s = .raised .invalidOperation s := by
  simp [requireTlb, hp]

theorem execTlbLookup_present {s : State} (hp : s.cfg.tlbPresent = true) :
    execTlbLookup s =
      .next (succeed (writeRes 0 (tlbLookup (readArg s 0) s.tlb).1 { s with tlb := (tlbLookup (readArg s 0) s.tlb).2 })) := by
  rw [execTlbLookup, requireTlb_present hp, andThen_ok, finish_ok, lookupTlb]

theorem execTlbLookup_absent {s : State} (hp : s.cfg.tlbPresent = false) :
    execTlbLookup s = .next (takeFault .invalidOperation s) := by
  rw [execTlbLookup, requireTlb_absent hp, andThen_raised, finish_raised]

theorem execTlbCache_present {s : State} (hp : s.cfg.tlbPresent = true) :
    execTlbCache s = .next (succeed (cacheTlb (readArg s 0) (readArg s 1) s)) := by
  rw [execTlbCache, requireTlb_present hp, andThen_ok, finishPlain, finish_ok]

theorem execTlbCache_absent {s : State} (hp : s.cfg.tlbPresent = false) :
    execTlbCache s = .next (takeFault .invalidOperation s) := by
  rw [execTlbCache, requireTlb_absent hp, andThen_raised, finishPlain, finish_raised]

theorem execFlushTlb_present {s : State} (hp : s.cfg.tlbPresent = true) :
    execFlushTlb s = .next (succeed { s with tlb := tlbFlush s.tlb }) := by
  rw [execFlushTlb, if_pos hp]

theorem execFlushTlb_absent {s : State} (hp : s.cfg.tlbPresent = false) : execFlushTlb s = .next (succeed s) := by
  simp [execFlushTlb, hp]

theorem execGetTlbStats_present {s : State} (hp : s.cfg.tlbPresent = true) :
    execGetTlbStats s = .next (succeed (writeStats s.tlb s)) := by
  rw [execGetTlbStats, requireTlb_present hp, finish_ok]

theorem execGetTlbStats_absent {s : State} (hp : s.cfg.tlbPresent = false) :
    execGetTlbStats s = .next (takeFault .invalidOperation s) := by
  rw [execGetTlbStats, requireTlb_absent hp, finish_raised]

/-! ### TLB_LOOKUP (R192, R197) -/

/-- Settles O17: a hit stamps the entry found, by `findEntry_stampEntry`; a miss only counts. -/
theorem tlbLookupCommand : Obligations.TlbLookupCommand := by
  unfold Obligations.TlbLookupCommand
  refine ⟨decode_encode .tlbLookup, fun s => ⟨execTlbLookup_absent, fun hp => ?_⟩⟩
  rw [show exec .tlbLookup s = _ from execTlbLookup_present hp]
  refine ⟨fun e he => ?_, fun hmiss => ?_⟩
  · rw [tlbLookup_hit he]
    refine ⟨_, rfl, fun k => ?_⟩
    rw [findEntry_stampEntry, pageKey, he, Option.map_some]
  · rw [tlbLookup_miss hmiss]
    rfl

/-! ### TLB_CACHE (R193, R194, R196, R198) -/

/-- A refresh, and a new key where there is room, keep every entry (R193). -/
theorem makeRoom_keeps {es : List TlbEntry} {cap : Nat} {k : Word}
    (h : (∃ e, findEntry es k = some e) ∨ es.length < cap) : makeRoom cap k es = es := by
  rcases makeRoom_cases cap k es with ⟨hkept, -⟩ | ⟨v, -, hnew, hfull, -⟩
  · exact hkept
  · rcases h with ⟨e, he⟩ | hroom
    · simp [he] at hnew
    · omega

/-- A new key that meets a full cache evicts the victim (R193, R194). -/
theorem makeRoom_evicts {es : List TlbEntry} {cap : Nat} {k : Word} (hcap : 1 ≤ cap) (hnew : findEntry es k = none)
    (hfull : es.length = cap) : ∃ v, victim es = some v ∧ makeRoom cap k es = removeEntry es v.key := by
  rcases makeRoom_cases cap k es with ⟨-, hold | hroom | hempty⟩ | ⟨v, hv, -, -, hroom⟩
  · simp [hnew] at hold
  · exact absurd hfull hroom
  · simp [hempty] at hfull
    omega
  · exact ⟨v, hv, hroom⟩

theorem findEntry_tlbInsert_same {cap : Nat} {va v : Word} (pte : Word) (t : Tlb) (hk : pageKey v = pageKey va) :
    findEntry (tlbInsert cap va pte t).entries (pageKey v) = some ⟨pageKey va, t.seq + 1, pte⟩ := by
  rw [findEntry_tlbInsert, if_pos hk]

theorem findEntry_tlbInsert_other {k va : Word} (hk : k ≠ pageKey va) (cap : Nat) (pte : Word) (t : Tlb) :
    findEntry (tlbInsert cap va pte t).entries k = findEntry (makeRoom cap (pageKey va) t.entries) k := by
  rw [findEntry_tlbInsert, if_neg hk]

/-- Settles O18: the entries after a Cache are those that `makeRoom` keeps and the new one; the victim is `victim_spec`'s. -/
theorem tlbCacheCommand : Obligations.TlbCacheCommand := by
  unfold Obligations.TlbCacheCommand
  refine ⟨decode_encode .tlbCache, fun s hs => ⟨execTlbCache_absent, fun hp => ?_⟩⟩
  have hcap := capacity_pos_of_inv hs hp
  obtain ⟨hrising, -, hlen, -⟩ := (Tlb.wf_present hp).mp (tlb_wf_of_inv hs)
  refine ⟨(tlbInsert s.cfg.tlbCapacity (readArg s 0) (readArg s 1) s.tlb).entries, execTlbCache_present hp,
    length_cached_le hrising hcap hlen ⟨pageKey (readArg s 0), s.tlb.seq + 1, readArg s 1⟩,
    findEntry_tlbInsert_same _ _ rfl, fun hkeep k hk => ?_, fun hnew hfull => ?_⟩
  · rw [findEntry_tlbInsert_other hk, pageKey, makeRoom_keeps hkeep]
  · obtain ⟨v, hv, hroom⟩ := makeRoom_evicts hcap hnew hfull
    obtain ⟨hmem, hfirst⟩ := victim_spec hrising hv
    refine ⟨v, hmem, fun e he hne => (evictsBefore_iff v e).mp (hfirst e he hne), fun k hk => ?_⟩
    rw [findEntry_tlbInsert_other hk, pageKey, hroom, findEntry_removeEntry]

@[simp] theorem readArg_writeArg_same (n : Fin 5) (v : Word) (s : State) : readArg (writeArg n v s) n = v := by
  simp [readArg, writeArg]

/-- Law 1 of R201: a Lookup in the page just cached returns its PTE. -/
theorem tlbLookup_tlbInsert {va v : Word} (hk : pageKey v = pageKey va) (cap : Nat) (pte : Word) (t : Tlb) :
    (tlbLookup v (tlbInsert cap va pte t)).1 = pte := by
  rw [tlbLookup_hit (findEntry_tlbInsert_same pte t hk)]

/-- Settles O21, by `tlbLookup_tlbInsert`. -/
theorem cacheThenLookup : Obligations.CacheThenLookup := by
  unfold Obligations.CacheThenLookup
  intro s t u v hp hpage hcache hlookup
  obtain rfl : succeed (cacheTlb (readArg s 0) (readArg s 1) s) = t :=
    Host.Outcome.next.inj ((execTlbCache_present hp).symm.trans hcache)
  have hnext := execTlbLookup_present (s := writeArg 0 v (succeed (cacheTlb (readArg s 0) (readArg s 1) s))) hp
  rw [readArg_writeArg_same] at hnext
  obtain rfl := Host.Outcome.next.inj (hnext.symm.trans hlookup)
  exact ⟨rfl, (Vector.getElem_set_self _).trans (tlbLookup_tlbInsert hpage _ _ _)⟩

/-! ### LRU stamps (R192 to R194) -/

/-- The stamps are distinct, and none exceeds the sequence number. -/
def StampsDistinct (es : List TlbEntry) (seq : Count) : Prop :=
  (∀ e ∈ es, e.lastRefSeq ≤ seq) ∧ ∀ e ∈ es, ∀ f ∈ es, e.lastRefSeq = f.lastRefSeq → e = f

/-- Before TLB.seq wraps, the next sequence number is a stamp that no entry has: entries stay distinct when at most one takes it. -/
theorem StampsDistinct.next {es es' : List TlbEntry} {seq : Count} (h : StampsDistinct es seq)
    (hseq : seq ≠ BitVec.allOnes 64) {new : TlbEntry} (hnew : new.lastRefSeq = seq + 1)
    (hmem : ∀ f ∈ es', f = new ∨ f ∈ es) : StampsDistinct es' (seq + 1) := by
  obtain ⟨hle, hinj⟩ := h
  have hfresh : ∀ f ∈ es, f.lastRefSeq < seq + 1 := fun f hf => by
    have hnext := BitVec.lt_add_one hseq
    have hold := hle f hf
    bv_omega
  refine ⟨fun f hf => ?_, fun e he f hf heq => ?_⟩
  · rcases hmem f hf with rfl | hold
    · exact BitVec.le_of_eq hnew
    · exact BitVec.le_of_lt (hfresh f hold)
  · rcases hmem e he with rfl | hold <;> rcases hmem f hf with rfl | hold'
    · rfl
    · have := hfresh f hold'
      bv_omega
    · have := hfresh e hold
      bv_omega
    · exact hinj e hold f hold' heq

/-- Rising keys are unique, so an entry is the one filed under its key (10_state.md R49). -/
theorem findEntry_of_mem {es : List TlbEntry} (hr : keysRising es = true) {e : TlbEntry} (he : e ∈ es) :
    findEntry es e.key = some e := by
  induction es with
  | nil => simp at he
  | cons f es ih =>
    obtain ⟨hlt, hrest⟩ := keysRising_cons.mp hr
    rw [findEntry_cons]
    rcases List.mem_cons.mp he with rfl | he
    · rw [if_pos rfl]
    · have := hlt e he
      rw [if_neg (by bv_omega), ih hrest he]

theorem mem_stampEntry_of_findEntry {es : List TlbEntry} (hr : keysRising es = true) {k : Word} {e : TlbEntry}
    (he : findEntry es k = some e) {seq : Count} {f : TlbEntry} (hf : f ∈ stampEntry es k seq) :
    f = { e with lastRefSeq := seq } ∨ f ∈ es := by
  obtain ⟨g, hg, rfl⟩ := List.mem_map.mp hf
  by_cases hk : g.key = k
  · obtain rfl : g = e := Option.some.inj ((findEntry_of_mem hr hg).symm.trans (hk ▸ he))
    exact .inl (if_pos hk)
  · exact .inr (by rwa [if_neg hk])

theorem tlbLookup_stampsDistinct {t : Tlb} (hr : keysRising t.entries = true) (h : StampsDistinct t.entries t.seq)
    (hseq : t.seq ≠ BitVec.allOnes 64) (va : Word) :
    StampsDistinct (tlbLookup va t).2.entries (tlbLookup va t).2.seq := by
  cases hfind : findEntry t.entries (pageKey va) with
  | none =>
    rw [tlbLookup_miss hfind]
    exact h
  | some e =>
    rw [tlbLookup_hit hfind]
    exact h.next hseq rfl fun f hf => mem_stampEntry_of_findEntry hr hfind hf

theorem tlbInsert_stampsDistinct {t : Tlb} (h : StampsDistinct t.entries t.seq) (hseq : t.seq ≠ BitVec.allOnes 64)
    (cap : Nat) (va pte : Word) :
    StampsDistinct (tlbInsert cap va pte t).entries (tlbInsert cap va pte t).seq :=
  h.next hseq (new := ⟨pageKey va, t.seq + 1, pte⟩) rfl fun _ hf => (mem_putEntry hf).imp_right mem_makeRoom

/-- Settles O22: each operation gives the fresh stamp to one entry at most (`StampsDistinct.next`). -/
theorem lruStampsStayDistinct : Obligations.LruStampsStayDistinct := by
  unfold Obligations.LruStampsStayDistinct
  intro cap va pte t hr hle hinj hseq u hu
  rcases hu with rfl | rfl
  · exact tlbLookup_stampsDistinct hr ⟨hle, hinj⟩ hseq va
  · exact tlbInsert_stampsDistinct ⟨hle, hinj⟩ hseq cap va pte

/-! ### FLUSH_TLB and GET_TLB_STATS (R195, R199, R200) -/

/-- Settles O19. -/
theorem flushTlbCommand : Obligations.FlushTlbCommand := by
  unfold Obligations.FlushTlbCommand
  exact ⟨decode_encode .flushTlb, fun s => ⟨execFlushTlb_present, execFlushTlb_absent⟩⟩

/-- The two words of a u64, high then low, are the u64 (30_encoding.md R124). -/
theorem highWord_append_lowWord (c : Count) : highWord c ++ lowWord c = c := by
  rw [highWord, lowWord, BitVec.extractLsb'_append_extractLsb'_eq_extractLsb' (by rfl)]
  exact BitVec.extractLsb'_eq_self

/-- The RES registers that GET_TLB_STATS writes: all twelve (R200). -/
theorem writeStats_res (t : Tlb) (s : State) : (writeStats t s).res =
    #v[lowWord t.recentHits, highWord t.recentHits, lowWord t.totalHits, highWord t.totalHits,
      lowWord t.recentMisses, highWord t.recentMisses, lowWord t.totalMisses, highWord t.totalMisses,
      lowWord t.recentMaxSize, highWord t.recentMaxSize, lowWord t.totalMaxSize, highWord t.totalMaxSize] := by
  ext k hk
  interval_cases k <;> simp [writeStats, writeResPair, writeRes]

/-- Settles O20: the registers are `writeStats_res`'s. -/
theorem getTlbStatsCommand : Obligations.GetTlbStatsCommand := by
  unfold Obligations.GetTlbStatsCommand
  refine ⟨decode_encode .getTlbStats, fun s => ⟨execGetTlbStats_absent, fun hp => ?_⟩⟩
  refine ⟨_, (execGetTlbStats_present hp).trans (by rw [writeStats_eq, writeStats_res]; rfl), ?_⟩
  refine ⟨?_, ?_, ?_, ?_, ?_, ?_⟩ <;> exact highWord_append_lowWord _

end Sys2Proof.Machine
end

section
/-! SUPPORT. The PMCB image and its two commands (42_pmcb.md R230 to R234): the bits of W0, how a SET_PMCB ends when it resumes nothing,
and the transfer it otherwise continues. -/

namespace Sys2Proof.Machine

/-! ### The image (R44, R231) -/

@[simp] theorem OperationState.ofBits_bits (op : OperationState) : OperationState.ofBits op.bits = op := by
  cases op <;> rfl

@[simp] theorem OperationState.bits_ofBits (b : BitVec 2) : (OperationState.ofBits b).bits = b := by
  revert b
  decide

/-- The bits of W0: vm_enable in bit 0, operation_state in bits [2:1], zero above (R231). -/
theorem getLsbD_encodeImage_w0 (p : Pmcb) (k : Nat) : p.encodeImage.w0.getLsbD k =
    if k = 0 then p.vmEnable else p.operationState.bits.getLsbD (k - 1) := by
  cases k with
  | zero => simp [Pmcb.encodeImage]
  | succ k =>
    have hwide : p.operationState.bits.getLsbD k = true → k < 2 := BitVec.lt_of_getLsbD
    simp only [Pmcb.encodeImage, BitVec.getLsbD_or, BitVec.getLsbD_setWidth, BitVec.getLsbD_shiftLeft, BitVec.getLsbD_ofBool]
    grind

theorem encodeImage_w0_vmEnable (p : Pmcb) : p.encodeImage.w0.getLsbD 0 = p.vmEnable := getLsbD_encodeImage_w0 p 0

theorem encodeImage_w0_operationState (p : Pmcb) : p.encodeImage.w0.extractLsb' 1 2 = p.operationState.bits := by
  ext k hk
  simp [getLsbD_encodeImage_w0, hk]

theorem encodeImage_w0_reserved (p : Pmcb) : p.encodeImage.w0.extractLsb' 3 29 = 0#29 := by
  ext k hk
  simp [getLsbD_encodeImage_w0]

theorem decodeImage_encodeImage (p : Pmcb) : Pmcb.decodeImage p.encodeImage = p := by
  simp only [Pmcb.decodeImage, encodeImage_w0_vmEnable, encodeImage_w0_operationState, OperationState.ofBits_bits]
  rfl

/-- Encoding a decoded image keeps bits [2:0] of W0 and clears the rest, which decoding ignores (R231). -/
theorem encodeImage_decodeImage_w0 (w : PmcbImage) : (Pmcb.decodeImage w).encodeImage.w0 = w.w0 &&& 7#32 := by
  refine BitVec.eq_of_getLsbD_eq fun k hk => ?_
  have hseven : (7#32).getLsbD k = decide (k < 3) := by
    revert k
    decide
  rw [getLsbD_encodeImage_w0, BitVec.getLsbD_and, hseven]
  simp only [Pmcb.decodeImage, OperationState.bits_ofBits, BitVec.getLsbD_extractLsb']
  grind

/-- Settles O23. -/
theorem pmcbImageRoundTrip : Obligations.PmcbImageRoundTrip := by
  unfold Obligations.PmcbImageRoundTrip
  refine ⟨fun p => ⟨decodeImage_encodeImage p, encodeImage_w0_vmEnable p, encodeImage_w0_reserved p, ?_, rfl, rfl, rfl, rfl⟩,
    fun w => ?_⟩
  · rw [encodeImage_w0_operationState]
    cases p.operationState <;> rfl
  · rw [← encodeImage_decodeImage_w0]
    rfl

/-! ### GET_PMCB (R232) -/

/-- An image written to RES is in RES0 to RES4, W0 first (R124, R232). -/
theorem writeImage_res_image (w : PmcbImage) (s : State) :
    (writeImage w s).res[0] = w.w0 ∧ (writeImage w s).res[1] = w.w1 ∧ (writeImage w s).res[2] = w.w2 ∧
      (writeImage w s).res[3] = w.w3 ∧ (writeImage w s).res[4] = w.w4 := by
  simp [writeImage]

/-- Settles O24: the registers written are read off, and `exec_res` keeps the rest. -/
theorem getPmcbCommand : Obligations.GetPmcbCommand := by
  unfold Obligations.GetPmcbCommand
  have five : ∀ k : Fin 12, 5 ≤ k.val → k ∉ resultRegs .getPmcb := by decide
  refine ⟨decode_encode .getPmcb, fun s => ?_⟩
  have h : exec .getPmcb s = .next (succeed (writeImage s.pmcb.encodeImage s)) := rfl
  obtain ⟨h0, h1, h2, h3, h4⟩ := writeImage_res_image s.pmcb.encodeImage s
  refine ⟨(writeImage s.pmcb.encodeImage s).res, ?_, h0, h1, h2, h3, h4, fun k hk => exec_res h (five k hk)⟩
  rw [h, writeImage_eq]
  rfl

/-! ### SET_PMCB (R233, R234) -/

/-- The PMCB that SET_PMCB stores: the image in ARG0 to ARG4 as given (R234). -/
theorem decodeImage_readImage (s : State) : Pmcb.decodeImage (readImage s) =
    { vmEnable := (readArg s 0).getLsbD 0
      operationState := .ofBits ((readArg s 0).extractLsb' 1 2)
      pageTableBase := readArg s 1
      nextVaddress := readArg s 2
      remainingCount := readArg s 3
      userBuffer := readArg s 4 } := rfl

theorem execSetPmcb_nothingRemaining {s : State} (h : readArg s 3 = 0#32) :
    execSetPmcb s = .next (succeed (restorePmcb (readImage s) s)) := by
  rw [execSetPmcb, resumePending, if_pos (by exact h), finishPlain, finish_ok]

theorem execSetPmcb_bytesRemaining {s : State} (h : readArg s 3 ≠ 0#32) :
    execSetPmcb s = finishPlain (execute (restorePmcb (readImage s) s)) := by
  rw [execSetPmcb, resumePending, if_neg (by exact h)]

/-- Settles O25. -/
theorem setPmcbStoresWithoutTransfer : Obligations.SetPmcbStoresWithoutTransfer := by
  unfold Obligations.SetPmcbStoresWithoutTransfer
  intro s h3
  rw [show exec .setPmcb s = _ from execSetPmcb_nothingRemaining h3, restorePmcb, decodeImage_readImage, h3]
  rfl

/-- Execute with bytes remaining and no transfer in flight, where the configuration makes that an error (R291). -/
theorem execute_none_error {s : State} (h : s.pmcb.operationState = .none) (h0 : s.pmcb.remainingCount ≠ 0#32)
    (he : s.cfg.nonePendingIsError = true) : execute s = .raised .invalidOperation s := by
  simp [execute, h, h0, he]

theorem execute_none_noError {s : State} (h : s.pmcb.operationState = .none) (he : s.cfg.nonePendingIsError = false) :
    execute s = .ok () s := by
  simp [execute, h, he]

theorem execute_reserved {s : State} (h : s.pmcb.operationState = .reserved) :
    execute s = .raised .invalidOperation s := by
  simp [execute, h]

/-- Settles O26: what Execute answers in each state (R291), at the end of a SET_PMCB. -/
theorem setPmcbWithoutTransferState : Obligations.SetPmcbWithoutTransferState := by
  unfold Obligations.SetPmcbWithoutTransferState
  intro s h3 p hp
  obtain rfl := hp.trans (decodeImage_readImage s).symm
  rw [show exec .setPmcb s = _ from execSetPmcb_bytesRemaining h3]
  have hstate : ∀ {b}, (readArg s 0).extractLsb' 1 2 = b →
      (restorePmcb (readImage s) s).pmcb.operationState = .ofBits b := fun hb => congrArg OperationState.ofBits hb
  refine ⟨fun hb he => ?_, fun hb he => ?_, fun hb => ?_⟩
  · rw [execute_none_error (hstate hb) (by exact h3) he]
    rfl
  · rw [execute_none_noError (hstate hb) he]
    rfl
  · rw [execute_reserved (hstate hb)]
    rfl

/-- SET_PMCB runs Execute on the state a transfer command would load from `u`, ARG apart, which no transfer reads (R233, R343). -/
theorem execSetPmcb_eq_transfer {s u : State} {op : OperationState} (h3 : readArg s 3 ≠ 0#32)
    (hu : { u with args := s.args } =
      { s with pmcb := { s.pmcb with vmEnable := (readArg s 0).getLsbD 0, pageTableBase := readArg s 1 } })
    (hop : OperationState.ofBits ((readArg s 0).extractLsb' 1 2) = op) :
    execSetPmcb s = mapNext (fun t => { t with args := s.args })
      (finishPlain (execute (startTransfer op (readArg s 2) (readArg s 3) (readArg s 4) u))) := by
  subst hop
  rw [execSetPmcb_bytesRemaining h3, ← (unreadByCommand_args s.args).transfer, hu]
  rfl

/-- Settles O27: the state given holds the image's operands where the transfer commands find theirs. -/
theorem setPmcbResumesLikeATransfer : Obligations.SetPmcbResumesLikeATransfer := by
  unfold Obligations.SetPmcbResumesLikeATransfer
  intro s h3 u hu
  have hresume {op} := execSetPmcb_eq_transfer (u := u) (op := op) h3 (by rw [hu])
  subst hu
  exact ⟨fun hb => hresume (ofBits_eq_read.mpr hb), fun hb => hresume (ofBits_eq_write.mpr hb)⟩

end Sys2Proof.Machine
end

section
/-! SUPPORT. Transfers in physical mode (43_translate.md R251, 44_transfer.md R299 to R302): addresses translate to themselves, so the
chunks of a transfer, page by page, are together the move of one block. -/

namespace Sys2Proof.Machine

theorem legal_of_inv {s : State} (h : s.inv = true) : s.cfg.legal = true := by
  obtain ⟨hcfg, -⟩ := (inv_iff s).mp h
  exact hcfg

/-! ### Two moves that follow each other -/

/-- Two block copies that follow each other are one. The second may be empty, and start past the last address. -/
theorem Memory.copy_copy {m : Memory} (h : m.wf = true) (src : Memory) {b b' a a' n k : Nat}
    (hb : k = 0 ∨ b' = b + n) (ha : k = 0 ∨ a' = a + n) :
    (m.writeBytes b (src.readBytes a n)).writeBytes b' (src.readBytes a' k) =
      m.writeBytes b (src.readBytes a (n + k)) := by
  have hfirst := Memory.wf_writeBytes h b (src.readBytes a n)
  refine Memory.eq_of_read (Memory.wf_writeBytes hfirst _ _) (Memory.wf_writeBytes h _ _) fun x => ?_
  rw [Memory.read_copy hfirst, Memory.read_copy h, Memory.read_copy h]
  by_cases hx : b' ≤ x ∧ x < b' + k
  · have hsrc : a' + (x - b') = a + (x - b) := by omega
    rw [if_pos hx, if_pos (by omega), hsrc]
  · by_cases hy : b ≤ x ∧ x < b + n
    · rw [if_neg hx, if_pos hy, if_pos (by omega)]
    · rw [if_neg hx, if_neg hy, if_neg (by omega)]

theorem countBytes_countBytes {n k : Word} (h : n.toNat + k.toNat < 2 ^ 32) (s : State) :
    countBytes k (countBytes n s) = countBytes (n + k) s := by
  have hsum : (n + k).setWidth 64 = n.setWidth 64 + k.setWidth 64 := by bv_omega
  simp only [countBytes, hsum, BitVec.add_assoc]

theorem advanceCursor_advanceCursor (n k : Word) (s : State) :
    advanceCursor k (advanceCursor n s) = advanceCursor (n + k) s := by
  simp only [advanceCursor, BitVec.add_assoc, sub_sub]

@[simp] theorem movedState_cfg (isWrite : Bool) (pa buf n : Word) (s : State) :
    (movedState isWrite pa buf n s).cfg = s.cfg := by
  cases isWrite <;> rfl

theorem movedState_advanceCursor (isWrite : Bool) (pa buf n k : Word) (s : State) :
    movedState isWrite pa buf n (advanceCursor k s) = advanceCursor k (movedState isWrite pa buf n s) := by
  cases isWrite <;> rfl

/-- Two moves that follow each other are one move of both blocks. -/
theorem movedState_movedState {s : State} (hs : s.inv = true) (isWrite : Bool) {pa buf n k : Word}
    (hpa : pa.toNat + n.toNat + k.toNat < 2 ^ 32) (hbuf : buf.toNat + n.toNat + k.toNat ≤ 2 ^ 32) :
    movedState isWrite (pa + n) (buf + n) k (movedState isWrite pa buf n s) = movedState isWrite pa buf (n + k) s := by
  obtain ⟨-, hpm, -, hhost, -⟩ := (inv_iff s).mp hs
  have hpaEnd : k.toNat = 0 ∨ (pa + n).toNat = pa.toNat + n.toNat := by bv_omega
  have hbufEnd : k.toNat = 0 ∨ (buf + n).toNat = buf.toNat + n.toNat := by bv_omega
  have hsum : (n + k).toNat = n.toNat + k.toNat := by bv_omega
  have hcount := countBytes_countBytes (n := n) (k := k) (by omega)
  cases isWrite with
  | true =>
    have hcopy := Memory.copy_copy hpm s.hostMem hpaEnd hbufEnd
    rw [← hsum] at hcopy
    rw [movedState_put pa buf (n + k), ← hcopy, ← hcount]
    rfl
  | false =>
    have hcopy := Memory.copy_copy hhost s.pm hbufEnd hpaEnd
    rw [← hsum] at hcopy
    rw [movedState_get pa buf (n + k), ← hcopy, ← hcount]
    rfl

theorem movedState_zero (isWrite : Bool) (pa buf : Word) (s : State) : movedState isWrite pa buf 0#32 s = s := by
  cases isWrite <;> simp [movedState, countBytes, Memory.readBytes, Memory.writeBytes]

theorem advanceCursor_zero (s : State) : advanceCursor 0#32 s = s := by
  simp [advanceCursor]

/-! ### The whole transfer -/

/-- The next `n` bytes of a transfer moved between their own addresses, and its cursor past them. -/
def movedAhead (isWrite : Bool) (n : Word) (s : State) : State :=
  advanceCursor n (movedState isWrite s.pmcb.nextVaddress s.pmcb.userBuffer n s)

/-- The transfer's data lies inside PhysicalMemory and HostMem, and its buffer does not wrap past 2^32. -/
structure RangesInside (s : State) : Prop where
  memory : s.pmcb.nextVaddress.toNat + s.pmcb.remainingCount.toNat ≤ s.cfg.size
  host : s.pmcb.userBuffer.toNat + s.pmcb.remainingCount.toNat ≤ s.cfg.hostMemSize
  buffer : s.pmcb.userBuffer.toNat + s.pmcb.remainingCount.toNat ≤ 2 ^ 32

/-- In physical mode a chunk moves its bytes from the cursor's own address (R251). -/
theorem transferChunk_physical {isWrite : Bool} {s : State} (hs : s.inv = true) (hvm : s.pmcb.vmEnable = false)
    (hr : RangesInside s) (h0 : s.pmcb.remainingCount ≠ 0#32) :
    transferChunk isWrite s = .ok () (movedAhead isWrite (nextChunk s) s) := by
  have hle : (nextChunk s).toNat ≤ s.pmcb.remainingCount.toNat := chunkSize_le _ _
  have hpos : 1 ≤ (nextChunk s).toNat := chunkSize_pos h0
  obtain ⟨hmem, hhost, -⟩ := hr
  have hhost : hostInRange s s.pmcb.userBuffer (nextChunk s) = true := (hostInRange_iff ..).mpr (by omega)
  have hvalid : validRange s.cfg.size s.pmcb.nextVaddress (nextChunk s) = true :=
    (validRange_iff (Config.size_lt (legal_of_inv hs)) ..).mpr ⟨hpos, by omega⟩
  rw [transferChunk_translated (toPhysical_physicalMode hvm), moveChunk_inBounds hhost hvalid]
  rfl

/-- Moving `n` bytes ahead and then `k` more is moving `n + k` ahead. -/
theorem movedAhead_movedAhead {s : State} (hs : s.inv = true) (isWrite : Bool) {n k : Word}
    (hmem : s.pmcb.nextVaddress.toNat + n.toNat + k.toNat < 2 ^ 32)
    (hbuf : s.pmcb.userBuffer.toNat + n.toNat + k.toNat ≤ 2 ^ 32) :
    movedAhead isWrite k (movedAhead isWrite n s) = movedAhead isWrite (n + k) s := by
  unfold movedAhead
  rw [movedState_advanceCursor, advanceCursor_advanceCursor, advanceCursor_pmcb_nextVaddress,
    advanceCursor_pmcb_userBuffer, movedState_pmcb, movedState_movedState hs isWrite hmem hbuf]

theorem rangesInside_movedAhead {s : State} (hs : s.inv = true) (hr : RangesInside s) (isWrite : Bool) {n : Word}
    (hn : n.toNat ≤ s.pmcb.remainingCount.toNat) : RangesInside (movedAhead isWrite n s) := by
  have hsize := Config.size_lt (legal_of_inv hs)
  have hrem : (s.pmcb.remainingCount - n).toNat = s.pmcb.remainingCount.toNat - n.toNat :=
    BitVec.toNat_sub_of_le (by rwa [BitVec.le_def])
  obtain ⟨hmem, hhost, hbuf⟩ := hr
  unfold movedAhead
  constructor
  all_goals simp only [advanceCursor_cfg, advanceCursor_pmcb_nextVaddress, advanceCursor_pmcb_remainingCount,
    advanceCursor_pmcb_userBuffer, movedState_cfg, movedState_pmcb, hrem, BitVec.toNat_add]
  all_goals omega

/-- A transfer in physical mode moves its bytes as one block, over any number of pages (R298). -/
theorem executeLoop_physical {isWrite : Bool} {s : State} (hs : s.inv = true) (hvm : s.pmcb.vmEnable = false)
    (hr : RangesInside s) :
    executeLoop isWrite s.pmcb.remainingCount.toNat s =
      .ok () (completeTransfer (movedAhead isWrite s.pmcb.remainingCount s)) := by
  revert hs hvm hr
  refine executeLoop_induction (P := fun s r => s.inv = true → s.pmcb.vmEnable = false → RangesInside s →
    r = .ok () (completeTransfer (movedAhead isWrite s.pmcb.remainingCount s))) ?_ ?_ ?_ ?_ s
  · intro s h0 _ _ _
    rw [h0, movedAhead, movedState_zero, advanceCursor_zero]
  · intro s f t h0 hc hs hvm hr
    rw [transferChunk_physical hs hvm hr h0] at hc
    cases hc
  · intro s x h0 hc hs hvm hr
    rw [transferChunk_physical hs hvm hr h0] at hc
    cases hc
  · intro s t r h0 hc _ ih hs hvm hr
    have ht : t.inv = true := by
      have := transferChunk_rel (keepsInv_transferRel isWrite) s
      rw [hc] at this
      exact this hs
    have hsize := Config.size_lt (legal_of_inv hs)
    have hle : (nextChunk s).toNat ≤ s.pmcb.remainingCount.toNat := chunkSize_le _ _
    have hrem : t.pmcb.remainingCount = s.pmcb.remainingCount - nextChunk s := by rw [transferChunk_pmcb hc]
    have hremNat := transferChunk_remaining hc
    have hsplit : nextChunk s + t.pmcb.remainingCount = s.pmcb.remainingCount := by rw [hrem, add_sub_cancel]
    have hvm' : t.pmcb.vmEnable = false := by rw [transferChunk_pmcb hc, hvm]
    obtain rfl : movedAhead isWrite (nextChunk s) s = t := by
      simpa [transferChunk_physical hs hvm hr h0] using hc
    have hr' := rangesInside_movedAhead hs hr isWrite hle
    obtain ⟨hmem, -, hbuf⟩ := hr
    rw [ih ht hvm' hr', movedAhead_movedAhead hs isWrite (by omega) (by omega), hsplit]

/-- A transfer command in physical mode: the block moved, and the cursor past it (R297, R299 to R302). -/
theorem exec_transfer_physical {i : Instr} {s : State} (hi : isGet i = true ∨ isPut i = true) (hs : s.inv = true)
    (hvm : s.pmcb.vmEnable = false) (hr : RangesInside (loadedState i s)) :
    exec i s = .next { movedState (isPut i) (readArg s 0) (readArg s 2) (transferCount i s) s with
      pmcb := { s.pmcb with
        operationState := .none
        nextVaddress := readArg s 0 + transferCount i s
        remainingCount := 0#32
        userBuffer := readArg s 2 + transferCount i s }
      status := statusOk } := by
  have hloop : executeLoop (isPut i) (transferCount i s).toNat (loadedState i s) =
      .ok () (completeTransfer (movedAhead (isPut i) (transferCount i s) (loadedState i s))) :=
    executeLoop_physical (s := loadedState i s) hs hvm hr
  rw [exec_transfer hi, hloop, finishPlain, finish_ok, ← BitVec.sub_self (x := transferCount i s)]
  cases isPut i <;> rfl

/-- Settles O47: the get moves one block of PhysicalMemory into HostMem. -/
theorem getInPhysicalMode : Obligations.GetInPhysicalMode := by
  unfold Obligations.GetInPhysicalMode
  rintro i s n hi hs hvm rfl hmem hhost hbuf
  obtain ⟨-, -, -, hwf, -⟩ := (inv_iff s).mp hs
  refine ⟨_, ?_, Memory.read_copy hwf s.pm _ _ _⟩
  rw [exec_transfer_physical (.inl hi) hs hvm ⟨hmem, hhost, hbuf⟩, isPut_of_isGet hi]
  rfl

/-- Settles O48: the put moves one block of HostMem into PhysicalMemory. -/
theorem putInPhysicalMode : Obligations.PutInPhysicalMode := by
  unfold Obligations.PutInPhysicalMode
  rintro i s n hi hs hvm rfl hmem hhost hbuf
  obtain ⟨-, hwf, -⟩ := (inv_iff s).mp hs
  refine ⟨_, ?_, Memory.read_copy hwf s.hostMem _ _ _⟩
  rw [exec_transfer_physical (.inr hi) hs hvm ⟨hmem, hhost, hbuf⟩, hi]
  rfl

end Sys2Proof.Machine
end

section
/-! SUPPORT. TO_PHYSICAL (43_translate.md R250 to R264): how the command ends on each path of ToPhysical, what a walk leaves in
PhysicalMemory, and when its faults are told apart by the page table alone. -/

namespace Sys2Proof.Machine

/-! ### The command ends as its translation does (R263, 60_exceptions.md R330) -/

theorem exec_toPhysical_ok {w : Bool} {pa : Word} {s t : State} (h : toPhysical (readArg s 0) w s = .ok pa t) :
    exec (.toPhysical w) s = .next (succeed (writeRes 0 pa t)) := by
  rw [exec, execToPhysical, h, finish_ok]

theorem exec_toPhysical_raised {w : Bool} {f : MmuFault} {s t : State}
    (h : toPhysical (readArg s 0) w s = .raised f t) : exec (.toPhysical w) s = .next (takeFault f t) := by
  rw [exec, execToPhysical, h, finish_raised]

/-- Settles O29. -/
theorem translateInPhysicalMode : Obligations.TranslateInPhysicalMode := by
  unfold Obligations.TranslateInPhysicalMode
  intro s va w hvm
  exact ⟨toPhysical_physicalMode hvm, exec_toPhysical_ok (toPhysical_physicalMode hvm)⟩

/-! ### The cache path (R252, R257, R259) -/

theorem toPhysical_cached_ok {va : Word} {w : Bool} {s : State} {e : TlbEntry} (hvm : s.pmcb.vmEnable = true)
    (he : usableEntry s va w = some e) (hw : w = true → pteW e.ptEntry = true) :
    toPhysical va w s = .ok (physicalAddress (pteFrame e.ptEntry) va) { s with tlb := tlbAfterLookup s va } := by
  rw [toPhysical_cached hvm he, if_neg (by simpa using hw)]

theorem toPhysical_cached_readOnly {va : Word} {w : Bool} {s : State} {e : TlbEntry} (hvm : s.pmcb.vmEnable = true)
    (he : usableEntry s va w = some e) (hw : w = true) (hro : pteW e.ptEntry = false) :
    toPhysical va w s = .raised (.writePermissionFault va) { s with tlb := tlbAfterLookup s va } := by
  rw [toPhysical_cached hvm he, if_pos (by simp [hw, hro])]

theorem usableEntry_eq_some_iff {s : State} {va : Word} {w : Bool} {e : TlbEntry} :
    usableEntry s va w = some e ↔
      tlbEntryOf s va = some e ∧ pteP e.ptEntry = true ∧ (w = true → pteM e.ptEntry = true) := by
  unfold usableEntry
  rw [Option.filter_eq_some_iff]
  cases w <;> simp

/-- Settles O30: the entry is usable, so both ends are those of the cache path. -/
theorem translateFromTlb : Obligations.TranslateFromTlb := by
  unfold Obligations.TranslateFromTlb
  intro s w e hvm htlb hfind hP hM
  have hentry : tlbEntryOf s (readArg s 0) = some e := by rw [tlbEntryOf, if_pos htlb]; exact hfind
  have huse : usableEntry s (readArg s 0) w = some e := usableEntry_eq_some_iff.mpr ⟨hentry, hP, hM⟩
  have hlookup : (tlbLookup (readArg s 0) s.tlb).2 = tlbAfterLookup s (readArg s 0) := by rw [tlbAfterLookup, if_pos htlb]
  rw [hlookup]
  exact ⟨fun hw => exec_toPhysical_ok (toPhysical_cached_ok hvm huse hw),
    fun hw hro => exec_toPhysical_raised (toPhysical_cached_readOnly hvm huse hw hro)⟩

/-! ### The conditions of a walk (R253 to R256) -/

theorem pageAligned_iff (base : Word) : pageAligned base = true ↔ base.extractLsb' 0 12 = 0#12 := by
  simp [pageAligned]

/-- A PTE access is valid exactly when its four bytes lie inside PhysicalMemory (R161). -/
theorem validWord_iff {c : Config} (hc : c.legal = true) (a : Word) :
    validRange c.size a 4#32 = true ↔ a.toNat + 4 ≤ c.size := by
  simp [validRange_iff (Config.size_lt hc)]

theorem invalidWord_iff {c : Config} (hc : c.legal = true) (a : Word) :
    validRange c.size a 4#32 = false ↔ ¬ a.toNat + 4 ≤ c.size := by
  rw [← validWord_iff hc, Bool.not_eq_true]

/-- Settles O32: each fault of ToPhysical's walk path, at the end of the command. -/
theorem walkFaultEffects : Obligations.WalkFaultEffects := by
  unfold Obligations.WalkFaultEffects
  rintro s w va rfl hc hvm hu
  refine ⟨fun hna => ?_, fun ha => ?_⟩
  · exact exec_toPhysical_raised (toPhysical_misaligned hvm hu (by simpa [pageAligned] using hna))
  have ha := (pageAligned_iff _).mpr ha
  refine ⟨fun hout1 => ?_, fun hin1 => ?_⟩
  · exact exec_toPhysical_raised (toPhysical_l1Outside hvm hu ha ((invalidWord_iff hc _).mpr hout1))
  have h1 := (validWord_iff hc _).mpr hin1
  refine ⟨fun hp1 => ?_, fun hp1 => ?_⟩
  · exact exec_toPhysical_raised (toPhysical_l1Absent hvm hu ha h1 hp1)
  refine ⟨fun hout2 => ?_, fun hin2 => ?_⟩
  · exact exec_toPhysical_raised (toPhysical_l2Outside hvm hu ha h1 hp1 ((invalidWord_iff hc _).mpr hout2))
  have h2 := (validWord_iff hc _).mpr hin2
  refine ⟨fun hp2 => ?_, fun hp2 hw hro => ?_⟩
  · exact exec_toPhysical_raised (toPhysical_l2Absent hvm hu ha h1 hp1 h2 hp2)
  · exact exec_toPhysical_raised (toPhysical_readOnly hvm hu ha h1 hp1 h2 hp2 hw hro)

/-! ### PhysicalMemory after a walk (R255, R258) -/

section Memory

variable {s : State} (hpm : s.pm.wf = true) (va : Word) (w : Bool)
include hpm

theorem pmMarkedL1_wf : (pmMarkedL1 s va w).wf = true := by
  unfold pmMarkedL1
  split
  · exact hpm
  · exact pmPutWord_wf hpm _ _

theorem read_pmMarkedL1_outside {a : Nat} (h1 : a < (l1Address s va).toNat ∨ (l1Address s va).toNat + 4 ≤ a) :
    (pmMarkedL1 s va w).read a = s.pm.read a := by
  unfold pmMarkedL1
  split
  · rfl
  · exact read_pmPutWord_outside hpm _ _ h1

theorem read_pmMarkedL2_outside {a : Nat} (h1 : a < (l1Address s va).toNat ∨ (l1Address s va).toNat + 4 ≤ a)
    (h2 : a < (l2Address s va).toNat ∨ (l2Address s va).toNat + 4 ≤ a) :
    (pmMarkedL2 s va w).read a = s.pm.read a := by
  rw [← read_pmMarkedL1_outside hpm va w h1]
  unfold pmMarkedL2
  split
  · rfl
  · exact read_pmPutWord_outside (pmMarkedL1_wf hpm va w) _ _ h2

/-- The L1 entry after step 3c (R255). -/
theorem pmWord_pmMarkedL1 : pmWord (pmMarkedL1 s va w) (l1Address s va) =
    if pteA (l1Word s va) then l1Word s va else pteMark (l1Word s va) w := by
  unfold pmMarkedL1
  split
  · rfl
  · exact pmWord_pmPutWord hpm _ _

/-- The L2 entry after step 5 (R258). -/
theorem pmWord_pmMarkedL2 : pmWord (pmMarkedL2 s va w) (l2Address s va) = pteMark (l2Word s va w) w := by
  unfold pmMarkedL2
  split
  · rename_i hsame
    exact hsame.symm
  · exact pmWord_pmPutWord (pmMarkedL1_wf hpm va w) _ _

/-- Step 5 keeps the L1 entry, where it is not the same word. -/
theorem pmWord_pmMarkedL2_l1 (ha : pageAligned s.pmcb.pageTableBase = true) (hne : l1Address s va ≠ l2Address s va) :
    pmWord (pmMarkedL2 s va w) (l1Address s va) = pmWord (pmMarkedL1 s va w) (l1Address s va) := by
  have h1 := l1Address_mod ha va
  have h2 := l2Address_mod s va
  have hne : (l1Address s va).toNat ≠ (l2Address s va).toNat := fun h => hne (BitVec.eq_of_toNat_eq h)
  unfold pmMarkedL2
  split
  · rfl
  · exact pmWord_pmPutWord_outside (pmMarkedL1_wf hpm va w) _ (by omega)

/-- The L2 entry a walk reads is the one from before it, marked in step 3c if the table maps itself (R256). -/
theorem l2Word_cases (ha : pageAligned s.pmcb.pageTableBase = true) :
    l2Word s va w = pmWord s.pm (l2Address s va) ∨ l2Word s va w = pteMark (pmWord s.pm (l2Address s va)) w := by
  have h1 := l1Address_mod ha va
  have h2 := l2Address_mod s va
  unfold l2Word
  by_cases heq : l2Address s va = l1Address s va
  · rw [heq, pmWord_pmMarkedL1 hpm]
    split
    · exact .inl rfl
    · exact .inr rfl
  · have hne : (l2Address s va).toNat ≠ (l1Address s va).toNat := fun h => heq (BitVec.eq_of_toNat_eq h)
    left
    unfold pmMarkedL1
    split
    · rfl
    · exact pmWord_pmPutWord_outside hpm _ (by omega)

end Memory

/-- Settles O31: the walk that ends, and the words it leaves. (`translateByWalk` is the model's own name for the walk path.) -/
theorem translateByWalkCommand : Obligations.TranslateByWalk := by
  unfold Obligations.TranslateByWalk
  rintro s w va rfl hs hvm hu ha hin1 hp1 hin2 hp2 hw
  obtain ⟨hc, hpm, -⟩ := (inv_iff s).mp hs
  have ha := (pageAligned_iff _).mpr ha
  refine ⟨?_, pmWord_pmMarkedL2 hpm _ w, fun hne => ?_, fun a h1 h2 => read_pmMarkedL2_outside hpm _ w h1 h2⟩
  · exact exec_toPhysical_ok
      (toPhysical_walked hvm hu ha ((validWord_iff hc _).mpr hin1) hp1 ((validWord_iff hc _).mpr hin2) hp2 hw)
  · exact (pmWord_pmMarkedL2_l1 hpm _ w ha hne).trans (pmWord_pmMarkedL1 hpm _ w)

/-- A translation leaves PhysicalMemory as it was, with the L1 entry marked, or with both entries marked. -/
theorem toPhysical_pm (va : Word) (w : Bool) (s : State) :
    (toPhysical va w s).All fun t => t.pm = s.pm ∨ t.pm = pmMarkedL1 s va w ∨ t.pm = pmMarkedL2 s va w := by
  cases hvm : s.pmcb.vmEnable with
  | false =>
    rw [toPhysical_physicalMode hvm]
    exact .inl rfl
  | true =>
    cases hu : usableEntry s va w with
    | some e =>
      rw [toPhysical_cached hvm hu]
      split <;> exact .inl rfl
    | none =>
      cases ha : pageAligned s.pmcb.pageTableBase with
      | false =>
        rw [toPhysical_misaligned hvm hu ha]
        exact .inl rfl
      | true =>
        cases h1 : validRange s.cfg.size (l1Address s va) 4#32 with
        | false =>
          rw [toPhysical_l1Outside hvm hu ha h1]
          exact .inl rfl
        | true =>
          cases hp1 : pteP (l1Word s va) with
          | false =>
            rw [toPhysical_l1Absent hvm hu ha h1 hp1]
            exact .inl rfl
          | true =>
            cases h2 : validRange s.cfg.size (l2Address s va) 4#32 with
            | false =>
              rw [toPhysical_l2Outside hvm hu ha h1 hp1 h2]
              exact .inr (.inl rfl)
            | true =>
              cases hp2 : pteP (l2Word s va w) with
              | false =>
                rw [toPhysical_l2Absent hvm hu ha h1 hp1 h2 hp2]
                exact .inr (.inl rfl)
              | true =>
                by_cases hw : w = true → pteW (l2Word s va w) = true
                · rw [toPhysical_walked hvm hu ha h1 hp1 h2 hp2 hw]
                  exact .inr (.inr rfl)
                · obtain ⟨hwr, hro⟩ := Classical.not_imp.mp hw
                  rw [toPhysical_readOnly hvm hu ha h1 hp1 h2 hp2 hwr (by simpa using hro)]
                  exact .inr (.inl rfl)

/-- Settles O35: the frame of every translation, and what `toPhysical_pm` leaves to change in PhysicalMemory. -/
theorem translationTouchesOnlyTablesAndTlb : Obligations.TranslationTouchesOnlyTablesAndTlb := by
  unfold Obligations.TranslationTouchesOnlyTablesAndTlb
  intro s t va pa w f hs h
  obtain ⟨-, hpm, -⟩ := (inv_iff s).mp hs
  have hends : (toPhysical va w s).EndsIn t := h.imp (fun hok => ⟨pa, hok⟩) (fun hraised => ⟨f, hraised⟩)
  refine ⟨?_, fun a h1 h2 => ?_⟩
  · obtain ⟨hcfg, hpmcb, hcmd, hargs, hres, hstatus, hfaultAddr, hhost, hpending⟩ := toPhysical_endsIn_frame hends
    rw [← hcfg, ← hpmcb, ← hcmd, ← hargs, ← hres, ← hstatus, ← hfaultAddr, ← hhost, ← hpending]
  · rcases (toPhysical_pm va w s).endsIn hends with h | h | h <;> rw [h]
    · exact read_pmMarkedL1_outside hpm va w h1
    · exact read_pmMarkedL2_outside hpm va w h1 h2

/-! ### Which fault (R264) -/

@[simp] theorem pteP_pteMark (pte : Word) (w : Bool) : pteP (pteMark pte w) = pteP pte := by
  cases w <;> simp [pteP, pteMark]

@[simp] theorem pteW_pteMark (pte : Word) (w : Bool) : pteW (pteMark pte w) = pteW pte := by
  cases w <;> simp [pteW, pteMark]

/-- No write-back changes P or W, so a walk sees those of the entry from before it (R88). -/
theorem l2Word_permissions {s : State} (hpm : s.pm.wf = true) (va : Word) (w : Bool)
    (ha : pageAligned s.pmcb.pageTableBase = true) :
    pteP (l2Word s va w) = pteP (pmWord s.pm (l2Address s va)) ∧
      pteW (l2Word s va w) = pteW (pmWord s.pm (l2Address s va)) := by
  rcases l2Word_cases hpm va w ha with h | h <;> simp [h]

/-- A cached PTE that is used and not stale is the L2 entry a walk would read (R252, R264). -/
theorem usableEntry_fresh {s : State} {va : Word} {w : Bool} {e : TlbEntry} (hu : usableEntry s va w = some e)
    (hfresh : ∀ e, tlbEntryOf s va = some e → ¬ staleEntry s va w e) :
    pteP (l1Word s va) = true ∧ l2Word s va w = e.ptEntry ∧ pteP e.ptEntry = true := by
  obtain ⟨hentry, hP, -⟩ := usableEntry_eq_some_iff.mp hu
  obtain ⟨hp1, hl2⟩ := not_not.mp (hfresh e hentry)
  exact ⟨hp1, hl2, hP⟩

/-- The faults of TO_PHYSICAL where no entry is stale, cached or walked: the L1 and the L2 entry decide them (R257, R264). -/
theorem exec_toPhysical_status {s : State} {va : Word} {w : Bool} (hva : va = readArg s 0) (hvm : s.pmcb.vmEnable = true)
    (ha : pageAligned s.pmcb.pageTableBase = true)
    (hfresh : ∀ e, tlbEntryOf s va = some e → ¬ staleEntry s va w e)
    (h1 : validRange s.cfg.size (l1Address s va) 4#32 = true)
    (h2 : pteP (l1Word s va) = true → validRange s.cfg.size (l2Address s va) 4#32 = true) :
    ∃ t, exec (.toPhysical w) s = .next t ∧
      (t.status = 1#32 ↔ pteP (l1Word s va) = false ∨ pteP (l2Word s va w) = false) ∧
      (t.status = 2#32 ↔ pteP (l1Word s va) = true ∧ pteP (l2Word s va w) = true ∧
        w = true ∧ pteW (l2Word s va w) = false) := by
  subst hva
  cases hu : usableEntry s (readArg s 0) w with
  | some e =>
    obtain ⟨hp1, hl2, hP⟩ := usableEntry_fresh hu hfresh
    rw [hp1, hl2, hP]
    by_cases hro : w = true ∧ pteW e.ptEntry = false
    · obtain ⟨rfl, hro⟩ := hro
      exact ⟨_, exec_toPhysical_raised (toPhysical_cached_readOnly hvm hu rfl hro), by simp [hro, MmuFault.code]⟩
    · exact ⟨_, exec_toPhysical_ok (toPhysical_cached_ok hvm hu (by simpa using hro)), by simp [hro, statusOk]⟩
  | none =>
    cases hp1 : pteP (l1Word s (readArg s 0)) with
    | false => exact ⟨_, exec_toPhysical_raised (toPhysical_l1Absent hvm hu ha h1 hp1), by simp [MmuFault.code]⟩
    | true =>
      have h2 := h2 hp1
      cases hp2 : pteP (l2Word s (readArg s 0) w) with
      | false => exact ⟨_, exec_toPhysical_raised (toPhysical_l2Absent hvm hu ha h1 hp1 h2 hp2), by simp [MmuFault.code]⟩
      | true =>
        by_cases hro : w = true ∧ pteW (l2Word s (readArg s 0) w) = false
        · obtain ⟨rfl, hro⟩ := hro
          have hend := toPhysical_readOnly hvm hu ha h1 hp1 h2 hp2 rfl hro
          exact ⟨_, exec_toPhysical_raised hend, by simp [hro, MmuFault.code]⟩
        · have hend := toPhysical_walked hvm hu ha h1 hp1 h2 hp2 (by simpa using hro)
          exact ⟨_, exec_toPhysical_ok hend, by simp [hro, statusOk]⟩

/-- Settles O34: `exec_toPhysical_status`, with P and W of the L2 entry as they were before the walk. -/
theorem faultDiscrimination : Obligations.FaultDiscrimination := by
  unfold Obligations.FaultDiscrimination
  rintro s w va hva hs hvm ha hfresh hin1 hin2
  obtain ⟨hc, hpm, -⟩ := (inv_iff s).mp hs
  have ha := (pageAligned_iff _).mpr ha
  obtain ⟨hP, hW⟩ := l2Word_permissions hpm va w ha
  have hstatus := exec_toPhysical_status hva hvm ha hfresh ((validWord_iff hc _).mpr hin1)
    fun hp1 => (validWord_iff hc _).mpr (hin2 hp1)
  rwa [hP, hW] at hstatus

end Sys2Proof.Machine
end

section
/-! SUPPORT. Execute and the four byte-transfer commands (44_transfer.md R290 to R304): the cursor a transfer ends with, what a transfer
that faults has completed, a transfer of one chunk, and what the translations of a get add to PhysicalMemory. -/

namespace Sys2Proof.Machine

/-! ### The size of a chunk (R293) -/

/-- Settles O37, by `chunkSize_toNat`. -/
theorem chunkStaysInPage : Obligations.ChunkStaysInPage := by
  unfold Obligations.ChunkStaysInPage
  intro rem va
  have hsize := chunkSize_toNat rem va
  refine ⟨hsize, fun h0 => ?_⟩
  have hpos := chunkSize_pos (va := va) h0
  refine ⟨hpos, by omega, by omega, ?_⟩
  rcases Nat.le_total rem.toNat (4096 - va.toNat % 4096) with hle | hge
  · exact .inl (BitVec.eq_of_toNat_eq (by omega))
  · exact .inr (by omega)

/-- A chunk that leaves bytes remaining reaches the end of its page. -/
theorem chunkSize_of_lt {rem va : Word} (h : (chunkSize rem va).toNat < rem.toNat) :
    (chunkSize rem va).toNat = 4096 - va.toNat % 4096 := by
  rw [chunkSize_toNat] at h ⊢
  omega

/-- So the cursor after it is at a page boundary. -/
theorem add_chunkSize_mod {rem va : Word} (h : (chunkSize rem va).toNat < rem.toNat) :
    (va + chunkSize rem va).toNat % 4096 = 0 := by
  rw [BitVec.toNat_add, chunkSize_of_lt h]
  omega

/-- The chunk has the same size in every transfer that is no shorter than it. -/
theorem chunkSize_of_longer {rem va m : Word} (h : (chunkSize rem va).toNat < rem.toNat)
    (hm : (chunkSize rem va).toNat ≤ m.toNat) : chunkSize m va = chunkSize rem va := by
  have hsize := chunkSize_of_lt h
  refine BitVec.eq_of_toNat_eq ?_
  rw [chunkSize_toNat m va]
  omega

/-! ### Execute as its loop (R291, R298) -/

/-- Settles O39: a chunk keeps operation_state, so Execute's loop goes on as Execute. -/
theorem executeIsItsLoop : Obligations.ExecuteIsItsLoop := by
  unfold Obligations.ExecuteIsItsLoop
  intro s hop
  rw [execute_inFlight hop]
  refine ⟨fun h0 => executeLoop_done h0 _, fun h0 => ?_⟩
  rw [executeLoop_while h0]
  cases hc : transferChunk (decide (s.pmcb.operationState = .write)) s with
  | ok x t =>
    have hsame : t.pmcb.operationState = s.pmcb.operationState := by rw [transferChunk_pmcb hc]
    rw [andThen_ok, andThen_ok, execute_inFlight (by rwa [hsame]), hsame]
  | raised f t => rfl
  | refuse x => rfl

/-- The PMCB with its transfer done: operation_state None and the cursor past the last byte (R295, R297). -/
def Pmcb.completed (p : Pmcb) : Pmcb :=
  { p with
    operationState := .none
    nextVaddress := p.nextVaddress + p.remainingCount
    remainingCount := 0#32
    userBuffer := p.userBuffer + p.remainingCount }

@[simp] theorem Pmcb.completed_operationState (p : Pmcb) : p.completed.operationState = .none := rfl
@[simp] theorem Pmcb.completed_nextVaddress (p : Pmcb) : p.completed.nextVaddress = p.nextVaddress + p.remainingCount := rfl
@[simp] theorem Pmcb.completed_remainingCount (p : Pmcb) : p.completed.remainingCount = 0#32 := rfl
@[simp] theorem Pmcb.completed_userBuffer (p : Pmcb) : p.completed.userBuffer = p.userBuffer + p.remainingCount := rfl

theorem executeLoop_ok_pmcb {isWrite : Bool} {s t : State}
    (h : executeLoop isWrite s.pmcb.remainingCount.toNat s = .ok () t) :
    t.pmcb = s.pmcb.completed := by
  revert h
  refine executeLoop_induction (P := fun s r => r = .ok () t → t.pmcb = s.pmcb.completed) ?_ ?_ ?_ ?_ s
  · intro s h0 h
    obtain rfl : completeTransfer s = t := by simpa using h
    simp only [completeTransfer, Pmcb.completed, h0, BitVec.add_zero]
  · intro s f u _ _ h
    cases h
  · intro s x _ _ h
    cases h
  · intro s u r _ hc _ ih h
    simp only [ih h, transferChunk_pmcb hc, Pmcb.completed, add_add_sub_cancel]

/-! ### Cutting a transfer (R295, R297, R303) -/

/-- The transfer `op` with `m` bytes remaining, at the same cursor. -/
def setTransfer (op : OperationState) (m : Word) (s : State) : State :=
  { s with pmcb := { s.pmcb with operationState := op, remainingCount := m } }

/-- A completed Execute with nothing put back into the PMCB stays as it is. -/
theorem execute_setTransfer_zero {s t : State} (hop : s.pmcb.operationState = .read ∨ s.pmcb.operationState = .write)
    (h : execute s = .ok () t) : execute (setTransfer s.pmcb.operationState 0#32 t) = .ok () t := by
  rw [execute_inFlight hop] at h
  have hend : completeTransfer (setTransfer s.pmcb.operationState 0#32 t) = t := by
    have hnone : t.pmcb.operationState = .none := by simp [executeLoop_ok_pmcb h]
    have hzero := executeLoop_ok_remaining h
    rw [completeTransfer, setTransfer, ← hnone, ← hzero]
  rw [execute_inFlight (s := setTransfer s.pmcb.operationState 0#32 t) hop, executeLoop_done rfl, hend]

/-- Settles O50: `execute_cut` at a page boundary; where the cut is the end of the transfer, nothing is left to do. -/
theorem splitTransferEqualsWhole : Obligations.SplitTransferEqualsWhole := by
  unfold Obligations.SplitTransferEqualsWhole
  rintro s t m hop hm (rfl | hb) h
  · rw [BitVec.sub_self]
    exact h.trans (execute_setTransfer_zero hop h).symm
  · exact execute_cut hop hm (.inr hb) h

/-! ### A transfer that faults (R296, R340) -/

/-- The loop from `s` faults after `m` bytes: they end at a page boundary, they are a transfer that completes in `t`, and the chunk that
follows them raises `f` and leaves `u`. -/
structure FaultsAfter (isWrite : Bool) (m : Word) (t : State) (f : MmuFault) (u s : State) : Prop where
  short : m.toNat < s.pmcb.remainingCount.toNat
  boundary : m = 0#32 ∨ (s.pmcb.nextVaddress + m).toNat % 4096 = 0
  completes : executeLoop isWrite m.toNat (setTransfer s.pmcb.operationState m s) = .ok () t
  faults : transferChunk isWrite (setTransfer s.pmcb.operationState (s.pmcb.remainingCount - m) t) = .raised f u

/-- The first chunk faults: no byte moved. -/
theorem faultsAfter_zero {isWrite : Bool} {f : MmuFault} {s u : State} (h0 : s.pmcb.remainingCount ≠ 0#32)
    (h : transferChunk isWrite s = .raised f u) :
    FaultsAfter isWrite 0#32 (completeTransfer (setTransfer s.pmcb.operationState 0#32 s)) f u s where
  short := Nat.pos_of_ne_zero (toNat_ne_zero h0)
  boundary := .inl rfl
  completes := rfl
  faults := by
    rw [BitVec.sub_zero]
    exact h

/-- A chunk before the bytes that complete makes them more by its size. -/
theorem FaultsAfter.chunk {isWrite : Bool} {m : Word} {t u v s : State} {f : MmuFault} (h0 : s.pmcb.remainingCount ≠ 0#32)
    (hc : transferChunk isWrite s = .ok () v) (h : FaultsAfter isWrite m t f u v) :
    FaultsAfter isWrite (nextChunk s + m) t f u s := by
  have hpmcb := transferChunk_pmcb hc
  have hrem := transferChunk_remaining hc
  have hpos : 1 ≤ (nextChunk s).toNat := chunkSize_pos h0
  have hlt := s.pmcb.remainingCount.isLt
  obtain ⟨hshort, hbound, hok, hfault⟩ := h
  have hsum : (nextChunk s + m).toNat = (nextChunk s).toNat + m.toNat := by
    rw [BitVec.toNat_add]
    omega
  have hle : (nextChunk s).toNat ≤ (nextChunk s + m).toNat := by omega
  have hmore : (nextChunk s).toNat < s.pmcb.remainingCount.toNat := by omega
  have hop : v.pmcb.operationState = s.pmcb.operationState := by rw [hpmcb]
  have hnext : v.pmcb.nextVaddress = s.pmcb.nextVaddress + nextChunk s := by rw [hpmcb]
  have hleft : v.pmcb.remainingCount - m = s.pmcb.remainingCount - (nextChunk s + m) := by rw [hpmcb, sub_sub]
  rw [hop] at hok hfault
  have hfirst : transferChunk isWrite (setTransfer s.pmcb.operationState (nextChunk s + m) s) =
      .ok () (setTransfer s.pmcb.operationState m v) := by
    refine (transferChunk_remainingCount s.pmcb.operationState (chunkSize_of_longer hmore hle) hc).trans ?_
    rw [add_sub_cancel_left]
    rfl
  refine ⟨by omega, .inr ?_, ?_, hleft ▸ hfault⟩
  · rw [← BitVec.add_assoc, ← hnext]
    rcases hbound with rfl | hbound
    · rw [BitVec.add_zero, hnext]
      exact add_chunkSize_mod hmore
    · exact hbound
  · have hne : nextChunk s + m ≠ 0#32 := by bv_omega
    refine (executeLoop_while (s := setTransfer s.pmcb.operationState (nextChunk s + m) s) hne).trans ?_
    rw [hfirst, andThen_ok]
    exact hok

/-- Every loop that faults does so after bytes that complete. -/
theorem executeLoop_raised {isWrite : Bool} {s u : State} {f : MmuFault}
    (h : executeLoop isWrite s.pmcb.remainingCount.toNat s = .raised f u) : ∃ m t, FaultsAfter isWrite m t f u s := by
  revert h
  refine executeLoop_induction (P := fun s r => r = .raised f u → ∃ m t, FaultsAfter isWrite m t f u s) ?_ ?_ ?_ ?_ s
  · intro s _ h
    cases h
  · intro s g v h0 hc h
    exact ⟨_, _, faultsAfter_zero h0 (hc.trans h)⟩
  · intro s x _ _ h
    cases h
  · intro s v r h0 hc _ ih h
    obtain ⟨m, t, hafter⟩ := ih h
    exact ⟨_, t, hafter.chunk h0 hc⟩

/-- The checkpoint of a transfer that faults (R296). -/
theorem FaultsAfter.pmcb {isWrite : Bool} {m : Word} {t u s : State} {f : MmuFault} (h : FaultsAfter isWrite m t f u s) :
    t.pmcb.nextVaddress = s.pmcb.nextVaddress + m ∧ t.pmcb.userBuffer = s.pmcb.userBuffer + m ∧
      u.pmcb = { s.pmcb with
        nextVaddress := s.pmcb.nextVaddress + m
        remainingCount := s.pmcb.remainingCount - m
        userBuffer := s.pmcb.userBuffer + m } := by
  have ht := executeLoop_ok_pmcb (s := setTransfer s.pmcb.operationState m s) h.completes
  have hu := transferChunk_raised_pmcb h.faults
  refine ⟨by simp [ht, setTransfer], by simp [ht, setTransfer], ?_⟩
  simp only [hu, setTransfer, ht, Pmcb.completed]

/-- A chunk that faults adds the marks of its translation to PhysicalMemory, and nothing else (R340). -/
theorem transferChunk_raised_addsMarks {isWrite : Bool} {s u : State} {f : MmuFault}
    (h : transferChunk isWrite s = .raised f u) : AddsMarks isWrite s u := by
  have htr := toPhysical_rel (addsMarks_translationRel isWrite) s.pmcb.nextVaddress s
  rcases transferChunk_raised h with h | ⟨pa, h, -⟩
  · exact htr.endsIn (.inr ⟨f, h⟩)
  · exact htr.endsIn (.inl ⟨pa, h⟩)

/-- The bytes that complete before the fault leave a state that meets the invariant. -/
theorem FaultsAfter.inv {isWrite : Bool} {m : Word} {t u s : State} {f : MmuFault} (h : FaultsAfter isWrite m t f u s)
    (hs : s.inv = true) : t.inv = true :=
  (executeLoop_rel (keepsInv_transferRel isWrite) (setTransfer s.pmcb.operationState m s)).endsIn (.inl ⟨(), h.completes⟩) hs

/-- Settles O51: the transfer that completes is `executeLoop_raised`'s, and the chunk after it moved no byte. -/
theorem faultedTransferIsACompletedPrefix : Obligations.FaultedTransferIsACompletedPrefix := by
  unfold Obligations.FaultedTransferIsACompletedPrefix
  intro s u f hs hop h
  rw [execute_inFlight hop] at h
  obtain ⟨m, t, hafter⟩ := executeLoop_raised h
  obtain ⟨hnext, hbuf, hu⟩ := hafter.pmcb
  obtain ⟨-, hpm, -⟩ := (inv_iff t).mp (hafter.inv hs)
  refine ⟨m, t, hafter.short, ?_, ?_, (transferChunk_raised_hostMem hafter.faults :), fun a => ?_⟩
  · rw [execute_inFlight (by exact hop)]
    exact hafter.completes
  · rw [hu, hnext, hbuf]
  · have hmarks := (transferChunk_raised_addsMarks hafter.faults hpm).2 a
    cases hw : decide (s.pmcb.operationState = .write) <;> rw [hw] at hmarks
    · exact hmarks.imp_right .inl
    · exact hmarks.imp_right .inr

/-! ### What a translation fault records (R331, R332) -/

/-- Every fault the result raises satisfies `P`. -/
def Result.Raises {α : Type} (P : MmuFault → Prop) (r : Result α) : Prop :=
  match r with
  | .ok _ _ => True
  | .raised f _ => P f
  | .refuse _ => True

@[simp] theorem raises_ok {α : Type} (P : MmuFault → Prop) (a : α) (s : State) : (Result.ok a s).Raises P := trivial

@[simp] theorem raises_raised {α : Type} {P : MmuFault → Prop} {f : MmuFault} {s : State} :
    (Result.raised f s : Result α).Raises P ↔ P f := Iff.rfl

theorem raises_andThen {α β : Type} {P : MmuFault → Prop} {r : Result α} {k : α → State → Result β} (hr : r.Raises P)
    (hk : ∀ a s, (k a s).Raises P) : (r.andThen k).Raises P := by
  cases r with
  | ok a s => exact hk a s
  | raised f s => exact hr
  | refuse x => trivial

/-- A PageFault or WritePermissionFault records `va`. -/
def RecordsVa (va : Word) (f : MmuFault) : Prop := f.code = 1#32 ∨ f.code = 2#32 → f.info = va

theorem recordsVa_bounds (va a : Word) : RecordsVa va (.physicalMemoryBounds a) := by
  simp [RecordsVa, MmuFault.code]

theorem recordsVa_invalidOperation (va : Word) : RecordsVa va .invalidOperation := by
  simp [RecordsVa, MmuFault.code]

theorem memRead32_records (va a : Word) (s : State) : (memRead32 a s).Raises (RecordsVa va) := by
  cases hv : validRange s.cfg.size a 4#32 with
  | true => simp [memRead32_valid hv]
  | false => simp [memRead32_invalid hv, recordsVa_bounds]

theorem memWrite32_records (va a v : Word) (s : State) : (memWrite32 a v s).Raises (RecordsVa va) := by
  cases hv : validRange s.cfg.size a 4#32 with
  | true => simp [memWrite32_valid hv]
  | false => simp [memWrite32, memWrite_invalid hv, recordsVa_bounds]

theorem markL1_records (va a l1 : Word) (w : Bool) (s : State) : (markL1 a l1 w s).Raises (RecordsVa va) := by
  unfold markL1
  split
  · exact raises_ok _ _ _
  · exact memWrite32_records va a _ s

theorem markL2_records (va a pte : Word) (w : Bool) (s : State) : (markL2 a pte w s).Raises (RecordsVa va) := by
  unfold markL2
  split
  · exact raises_ok _ _ _
  · exact memWrite32_records va a _ s

theorem walk_records (va : Word) (w : Bool) (s : State) : (walk va w s).Raises (RecordsVa va) := by
  unfold walk
  split
  · refine raises_andThen (memRead32_records va _ s) fun l1 s1 => ?_
    split
    · refine raises_andThen (markL1_records va _ l1 w s1) fun _ s2 => ?_
      exact raises_andThen (memRead32_records va _ s2) fun _ _ => raises_ok _ _ _
    · exact raises_raised.mpr fun _ => rfl
  · exact raises_raised.mpr (recordsVa_invalidOperation va)

theorem permit_records (va : Word) (w : Bool) (pte : Word) (s : State) : (permit va w pte s).Raises (RecordsVa va) := by
  unfold permit
  split
  · exact raises_raised.mpr fun _ => rfl
  · split
    · exact raises_raised.mpr fun _ => rfl
    · exact raises_ok _ _ _

/-- A PageFault or WritePermissionFault of a translation records the address being translated. -/
theorem toPhysical_records (va : Word) (w : Bool) (s : State) : (toPhysical va w s).Raises (RecordsVa va) := by
  unfold toPhysical
  split
  · split
    · exact raises_andThen (permit_records va w _ _) fun _ _ => raises_ok _ _ _
    · refine raises_andThen (walk_records va w _) fun e s1 => ?_
      refine raises_andThen (permit_records va w e.2 s1) fun _ s2 => ?_
      exact raises_andThen (markL2_records va e.1 e.2 w s2) fun _ _ => raises_ok _ _ _
  · exact raises_ok _ _ _

/-- Of a chunk's faults, only those of its translation are of these two kinds. -/
theorem transferChunk_raised_records {isWrite : Bool} {s u : State} {f : MmuFault}
    (h : transferChunk isWrite s = .raised f u) : RecordsVa s.pmcb.nextVaddress f := by
  rcases transferChunk_raised h with h | ⟨pa, -, rfl, -⟩
  · have := toPhysical_records s.pmcb.nextVaddress isWrite s
    rwa [h] at this
  · exact recordsVa_bounds _ pa

/-! ### The transfer commands, completed or faulted (R296, R297, R330) -/

/-- How a transfer command that answers a next state ended. -/
theorem exec_transfer_next {i : Instr} {s t : State} (hi : isGet i = true ∨ isPut i = true) (h : exec i s = .next t) :
    (∃ u, executeLoop (isPut i) (transferCount i s).toNat (loadedState i s) = .ok () u ∧ t = succeed u) ∨
    (∃ f u, executeLoop (isPut i) (transferCount i s).toNat (loadedState i s) = .raised f u ∧ t = takeFault f u) := by
  rw [exec_transfer hi] at h
  rcases finish_next h with ⟨x, u, hu, rfl⟩ | hraised
  · exact .inl ⟨u, hu, rfl⟩
  · exact .inr hraised

theorem MmuFault.code_ne_zero (f : MmuFault) : f.code ≠ 0#32 := by
  cases f <;> simp [MmuFault.code]

/-- Settles O45: the cursor is `executeLoop_ok_pmcb`'s. -/
theorem transferCompletionCursor : Obligations.TransferCompletionCursor := by
  unfold Obligations.TransferCompletionCursor
  intro i s t hi h hst
  rcases exec_transfer_next hi h with ⟨u, hu, rfl⟩ | ⟨f, u, -, rfl⟩
  · exact (executeLoop_ok_pmcb (s := loadedState i s) hu :)
  · exact absurd hst f.code_ne_zero

/-- Settles O46: the checkpoint is `FaultsAfter.pmcb`'s, and the chunk that faults translates its next_vaddress. -/
theorem transferFaultCheckpoint : Obligations.TransferFaultCheckpoint := by
  unfold Obligations.TransferFaultCheckpoint
  intro i s t hi h hst
  rcases exec_transfer_next hi h with ⟨u, -, rfl⟩ | ⟨f, u, hu, rfl⟩
  · exact absurd rfl hst
  · obtain ⟨m, v, hafter⟩ := executeLoop_raised (s := loadedState i s) hu
    obtain ⟨hnext, -, hpmcb⟩ := hafter.pmcb
    have hrecords := transferChunk_raised_records hafter.faults
    exact ⟨m, hafter.short, hafter.boundary, hpmcb, fun hcode => (hrecords hcode).trans hnext⟩

/-- Settles O40: loading the transfer overwrites every transfer field. -/
theorem transferOverwritesCheckpoint : Obligations.TransferOverwritesCheckpoint := by
  unfold Obligations.TransferOverwritesCheckpoint
  intro i s op va n buf hi
  rw [exec_eq_execute hi, exec_eq_execute hi]
  cases i <;> rfl

/-- Settles O38: with no bytes remaining the loop ends at once. -/
theorem zeroLengthTransfersComplete : Obligations.ZeroLengthTransfersComplete := by
  unfold Obligations.ZeroLengthTransfersComplete
  intro s i hi h0
  have hcount : transferCount i s = 0#32 := by
    rcases hi with rfl | rfl <;> exact h0
  have htransfer : isGet i = true ∨ isPut i = true := hi.imp (by rintro rfl; rfl) (by rintro rfl; rfl)
  rw [exec_transfer htransfer, executeLoop_done (s := loadedState i s) hcount, loadedState, hcount]
  rfl

/-! ### One chunk, by its translation and its ranges (R292 to R294) -/

section Chunk

variable {isWrite : Bool} {s t : State}

theorem transferChunk_untranslated {f : MmuFault} (h : toPhysical s.pmcb.nextVaddress isWrite s = .raised f t) :
    transferChunk isWrite s = .raised f t := by
  rw [transferChunk, h, andThen_raised]

variable {pa : Word} (h : toPhysical s.pmcb.nextVaddress isWrite s = .ok pa t)
  (hh : hostInRange t s.pmcb.userBuffer (nextChunk s) = true)
include h hh

theorem transferChunk_outside (hv : validRange t.cfg.size pa (nextChunk s) = false) :
    transferChunk isWrite s = .raised (.physicalMemoryBounds pa) t := by
  rw [transferChunk_translated h, moveChunk_outside hh hv, andThen_raised]

theorem transferChunk_inBounds (hv : validRange t.cfg.size pa (nextChunk s) = true) :
    transferChunk isWrite s =
      .ok () (advanceCursor (nextChunk s) (movedState isWrite pa s.pmcb.userBuffer (nextChunk s) t)) := by
  rw [transferChunk_translated h, moveChunk_inBounds hh hv, andThen_ok]

end Chunk

/-! ### The first chunk of a transfer command -/

/-- A transfer command with bytes to move begins with one chunk. -/
theorem exec_transfer_while {i : Instr} {s : State} (hi : isGet i = true ∨ isPut i = true) (h0 : transferCount i s ≠ 0#32) :
    exec i s = finishPlain ((transferChunk (isPut i) (loadedState i s)).andThen fun _ t =>
      executeLoop (isPut i) t.pmcb.remainingCount.toNat t) := by
  rw [exec_transfer hi]
  exact congrArg finishPlain (executeLoop_while (s := loadedState i s) h0)

/-- The first chunk faults, and the command with it. -/
theorem exec_transfer_firstRaised {i : Instr} {s u : State} {f : MmuFault} (hi : isGet i = true ∨ isPut i = true)
    (h0 : transferCount i s ≠ 0#32) (h : transferChunk (isPut i) (loadedState i s) = .raised f u) :
    exec i s = .next (takeFault f u) ∧ u.pmcb = (loadedState i s).pmcb ∧ u.hostMem = s.hostMem := by
  refine ⟨?_, transferChunk_raised_pmcb h, (transferChunk_raised_hostMem h :)⟩
  rw [exec_transfer_while hi h0, h]
  rfl

/-- Settles O43: the translation of the first chunk faults, or the move after it does. -/
theorem firstChunkFaultLeavesLoadedCheckpoint : Obligations.FirstChunkFaultLeavesLoadedCheckpoint := by
  unfold Obligations.FirstChunkFaultLeavesLoadedCheckpoint
  intro i s u hi hc h0
  refine ⟨fun f ht => ?_, fun pa ht hhost hout => ?_⟩
  · exact exec_transfer_firstRaised hi h0 (transferChunk_untranslated (s := loadedState i s) ht)
  · have hcfg : u.cfg = s.cfg := (toPhysical_frame_ok ht).cfg
    rw [← hcfg] at hc hhost hout
    exact exec_transfer_firstRaised hi h0 (transferChunk_outside (s := loadedState i s) ht
      ((hostInRange_iff ..).mpr hhost) ((validRange_eq_false_iff hc ..).mpr (.inr hout)))

/-- A transfer command within one page moves its bytes as one chunk, and completes (R292 to R297). -/
theorem exec_transfer_onePage {i : Instr} {s u : State} {pa : Word} (hi : isGet i = true ∨ isPut i = true)
    (hc : s.cfg.legal = true) (hpos : 1 ≤ (transferCount i s).toNat)
    (hpage : (readArg s 0).toNat % 4096 + (transferCount i s).toNat ≤ 4096)
    (ht : toPhysical (readArg s 0) (isPut i) (loadedState i s) = .ok pa u)
    (hmem : pa.toNat + (transferCount i s).toNat ≤ s.cfg.size)
    (hhost : (readArg s 2).toNat + (transferCount i s).toNat ≤ s.cfg.hostMemSize) :
    exec i s = .next { movedState (isPut i) pa (readArg s 2) (transferCount i s) u with
      pmcb := { s.pmcb with
        operationState := .none
        nextVaddress := readArg s 0 + transferCount i s
        remainingCount := 0#32
        userBuffer := readArg s 2 + transferCount i s }
      status := statusOk } := by
  have h0 : transferCount i s ≠ 0#32 := fun h => by simp [h] at hpos
  have hchunk : nextChunk (loadedState i s) = transferCount i s := by
    refine BitVec.eq_of_toNat_eq ((chunkSize_toNat (transferCount i s) (readArg s 0)).trans ?_)
    omega
  obtain ⟨hcfg, hpmcb⟩ : u.cfg = s.cfg ∧ u.pmcb = (loadedState i s).pmcb :=
    ⟨(toPhysical_frame_ok ht).cfg, (toPhysical_frame_ok ht).pmcb⟩
  rw [← hcfg] at hc hmem hhost
  rw [← hchunk] at hpos hmem hhost
  have hfirst := transferChunk_inBounds (s := loadedState i s) ht ((hostInRange_iff ..).mpr hhost)
    ((validRange_iff (Config.size_lt hc) ..).mpr ⟨hpos, hmem⟩)
  rw [hchunk, show (loadedState i s).pmcb.userBuffer = readArg s 2 from rfl] at hfirst
  have hlast : (advanceCursor (transferCount i s)
      (movedState (isPut i) pa (readArg s 2) (transferCount i s) u)).pmcb.remainingCount = 0#32 := by
    rw [advanceCursor_pmcb_remainingCount, movedState_pmcb, hpmcb]
    exact BitVec.sub_self (transferCount i s)
  rw [exec_transfer_while hi h0, hfirst, andThen_ok, executeLoop_done hlast, finishPlain, finish_ok, ← hlast, succeed,
    completeTransfer, advanceCursor, movedState_pmcb, hpmcb]
  rfl

/-- Settles O41: the one chunk copies from the translated address into HostMem. -/
theorem getWithinOnePage : Obligations.GetWithinOnePage := by
  unfold Obligations.GetWithinOnePage
  rintro i s u pa n hi hs rfl hpos hpage ht hmem hhost
  obtain ⟨hc, -, -, hwf, -⟩ := (inv_iff s).mp hs
  have hkept : u.hostMem = s.hostMem := (toPhysical_frame_ok ht).hostMem
  rw [← isPut_of_isGet hi] at ht
  rw [← hkept] at hwf ⊢
  refine ⟨_, ?_, Memory.read_copy hwf u.pm _ _ _⟩
  rw [exec_transfer_onePage (.inl hi) hc hpos hpage ht hmem hhost, isPut_of_isGet hi]
  rfl

/-- Settles O42: the one chunk copies from HostMem to the translated address. -/
theorem putWithinOnePage : Obligations.PutWithinOnePage := by
  unfold Obligations.PutWithinOnePage
  rintro i s u pa n hi hs rfl hpos hpage ht hmem hhost
  have hc := legal_of_inv hs
  have hkept : u.hostMem = s.hostMem := (toPhysical_frame_ok ht).hostMem
  have hu : u.inv = true :=
    (toPhysical_rel (keepsInv_transferRel true).toTranslationRel (readArg s 0) (loadedState i s)).endsIn (.inl ⟨pa, ht⟩) hs
  obtain ⟨-, hwf, -⟩ := (inv_iff u).mp hu
  rw [← hi] at ht
  rw [← hkept]
  refine ⟨_, ?_, Memory.read_copy hwf u.hostMem _ _ _⟩
  rw [exec_transfer_onePage (.inr hi) hc hpos hpage ht hmem hhost, hi]
  rfl

/-! ### A get and PhysicalMemory (R299) -/

/-- A get changes PhysicalMemory by its translations only, which add A. -/
theorem addsMarks_transferRel : TransferRel false (AddsMarks false) where
  toTranslationRel := addsMarks_translationRel false
  move _ _ _ _ _ _ := addsMarks_of_pm_eq rfl
  advance _ _ := addsMarks_of_pm_eq rfl
  complete _ := addsMarks_of_pm_eq rfl

/-- Settles O49. -/
theorem readsNeverSetModified : Obligations.ReadsNeverSetModified := by
  unfold Obligations.ReadsNeverSetModified
  intro i s t hi hs h a
  obtain ⟨-, hpm, -⟩ := (inv_iff s).mp hs
  rw [exec_transfer (.inl hi), isPut_of_isGet hi] at h
  have hloop := executeLoop_rel addsMarks_transferRel (loadedState i s)
  have hmarks : AddsMarks false (loadedState i s) t := finish_all hloop (fun _ _ hu => hu) (fun _ _ hu => hu) h
  exact (hmarks hpm).2 a

end Sys2Proof.Machine
end

section
/-! SUPPORT. The faults of the block (60_exceptions.md R330 to R337): the first check of a translation that fails decides its fault, and
each command raises only the faults of its row in R335. -/

namespace Sys2Proof.Machine

/-! ### The fault of a translation (R337) -/

/-- The first check of a walk that fails, in R337's order. -/
def walkFault (s : State) (va : Word) (w : Bool) : Option MmuFault :=
  if pageAligned s.pmcb.pageTableBase = false then some .invalidOperation
  else if validRange s.cfg.size (l1Address s va) 4#32 = false then some (.physicalMemoryBounds (l1Address s va))
  else if pteP (l1Word s va) = false then some (.pageFault va)
  else if validRange s.cfg.size (l2Address s va) 4#32 = false then some (.physicalMemoryBounds (l2Address s va))
  else if pteP (l2Word s va w) = false then some (.pageFault va)
  else if w = true ∧ pteW (l2Word s va w) = false then some (.writePermissionFault va)
  else none

/-- The fault of the cache path: a write to a read-only entry. -/
def cachedFault (va : Word) (w : Bool) (e : TlbEntry) : Option MmuFault :=
  if w = true ∧ pteW e.ptEntry = false then some (.writePermissionFault va) else none

/-- The fault of `ToPhysical(va, w)`, if any: physical mode checks nothing, and a usable cached entry spares the walk. -/
def translationFault (s : State) (va : Word) (w : Bool) : Option MmuFault :=
  if s.pmcb.vmEnable = true then
    match usableEntry s va w with
    | some e => cachedFault va w e
    | none => walkFault s va w
  else none

section Paths

variable {s : State} {va : Word} {w : Bool}

theorem translationFault_physicalMode (hvm : s.pmcb.vmEnable = false) : translationFault s va w = none := by
  simp [translationFault, hvm]

theorem translationFault_cached {e : TlbEntry} (hvm : s.pmcb.vmEnable = true) (hu : usableEntry s va w = some e) :
    translationFault s va w = cachedFault va w e := by
  simp [translationFault, hvm, hu]

theorem translationFault_walked (hvm : s.pmcb.vmEnable = true) (hu : usableEntry s va w = none) :
    translationFault s va w = walkFault s va w := by
  simp [translationFault, hvm, hu]

end Paths

/-- The result raises the fault `o`, or ends with a value where there is none. -/
def Result.Reports {α : Type} (r : Result α) (o : Option MmuFault) : Prop :=
  match o with
  | some f => ∃ t, r = .raised f t
  | none => ∃ a t, r = .ok a t

theorem toPhysical_reports_walkFault {s : State} {va : Word} {w : Bool} (hvm : s.pmcb.vmEnable = true)
    (hu : usableEntry s va w = none) : (toPhysical va w s).Reports (walkFault s va w) := by
  unfold walkFault
  split_ifs with ha h1 hp1 h2 hp2 hro
  · exact ⟨_, toPhysical_misaligned hvm hu ha⟩
  all_goals rw [Bool.not_eq_false] at ha
  · exact ⟨_, toPhysical_l1Outside hvm hu ha h1⟩
  all_goals rw [Bool.not_eq_false] at h1
  · exact ⟨_, toPhysical_l1Absent hvm hu ha h1 hp1⟩
  all_goals rw [Bool.not_eq_false] at hp1
  · exact ⟨_, toPhysical_l2Outside hvm hu ha h1 hp1 h2⟩
  all_goals rw [Bool.not_eq_false] at h2
  · exact ⟨_, toPhysical_l2Absent hvm hu ha h1 hp1 h2 hp2⟩
  all_goals rw [Bool.not_eq_false] at hp2
  · exact ⟨_, toPhysical_readOnly hvm hu ha h1 hp1 h2 hp2 hro.1 hro.2⟩
  · exact ⟨_, _, toPhysical_walked hvm hu ha h1 hp1 h2 hp2 (by simpa using hro)⟩

theorem toPhysical_reports_cachedFault {s : State} {va : Word} {w : Bool} {e : TlbEntry} (hvm : s.pmcb.vmEnable = true)
    (hu : usableEntry s va w = some e) : (toPhysical va w s).Reports (cachedFault va w e) := by
  unfold cachedFault
  split_ifs with hro
  · exact ⟨_, toPhysical_cached_readOnly hvm hu hro.1 hro.2⟩
  · exact ⟨_, _, toPhysical_cached_ok hvm hu (by simpa using hro)⟩

/-- Every translation reports the first of its checks that fails. -/
theorem toPhysical_reports (s : State) (va : Word) (w : Bool) : (toPhysical va w s).Reports (translationFault s va w) := by
  cases hvm : s.pmcb.vmEnable with
  | false =>
    rw [translationFault_physicalMode hvm]
    exact ⟨_, _, toPhysical_physicalMode hvm⟩
  | true =>
    cases hu : usableEntry s va w with
    | some e =>
      rw [translationFault_cached hvm hu]
      exact toPhysical_reports_cachedFault hvm hu
    | none =>
      rw [translationFault_walked hvm hu]
      exact toPhysical_reports_walkFault hvm hu

/-- STATUS and FAULT_ADDR after a command that ends with the fault `o`, or completes where there is none (R330). -/
def Records (t : State) (o : Option MmuFault) : Prop :=
  match o with
  | some f => t.status = f.code ∧ t.faultAddr = f.info
  | none => t.status = statusOk

theorem exec_toPhysical_records (s : State) (w : Bool) :
    ∃ t, exec (.toPhysical w) s = .next t ∧ Records t (translationFault s (readArg s 0) w) := by
  have h := toPhysical_reports s (readArg s 0) w
  cases hf : translationFault s (readArg s 0) w with
  | some f =>
    rw [hf] at h
    obtain ⟨t, ht⟩ := h
    exact ⟨_, exec_toPhysical_raised ht, rfl, rfl⟩
  | none =>
    rw [hf] at h
    obtain ⟨pa, t, ht⟩ := h
    exact ⟨_, exec_toPhysical_ok ht, rfl⟩

theorem pageAligned_eq_false_iff (base : Word) : pageAligned base = false ↔ base.extractLsb' 0 12 ≠ 0#12 := by
  rw [← Bool.not_eq_true, pageAligned_iff]

/-- Settles O33: the checks of `translationFault`, those of a walk under a legal configuration. -/
theorem translationFaultPriority : Obligations.TranslationFaultPriority := by
  unfold Obligations.TranslationFaultPriority
  rintro s w va rfl hc
  obtain ⟨t, ht, hrec⟩ := exec_toPhysical_records s w
  refine ⟨t, ht, fun hvm => ?_, fun hvm => ⟨fun e hu => ?_, fun hu => ?_⟩⟩
  · rwa [translationFault_physicalMode hvm] at hrec
  · rw [translationFault_cached hvm hu, cachedFault] at hrec
    refine ⟨fun hro => ?_, fun hro => ?_⟩
    · rwa [if_pos (by exact hro)] at hrec
    · rwa [if_neg (by exact hro)] at hrec
  · rw [translationFault_walked hvm hu] at hrec
    unfold walkFault pteP pteW at hrec
    simp only [pageAligned_eq_false_iff, invalidWord_iff hc, not_le] at hrec
    split_ifs at hrec ⊢ <;> exact hrec

/-! ### The fault codes of each command (R335) -/

/-- The codes of a translation and of a transfer: WritePermissionFault for a write only (R332). -/
def pagingCodes (w : Bool) : List Word := if w then [1#32, 2#32, 3#32, 4#32] else [1#32, 3#32, 4#32]

theorem two_mem_pagingCodes {w : Bool} : 2#32 ∈ pagingCodes w ↔ w = true := by
  cases w <;> decide

/-- The codes each command can end with. -/
def faultCodes (i : Instr) : List Word :=
  match i with
  | .getByte | .getBytes => pagingCodes false
  | .putByte | .putBytes | .setPmcb => pagingCodes true
  | .toPhysical w => pagingCodes w
  | .pmGetBytes | .pmPutBytes | .pmGet32 => [3#32]
  | .getTlbStats | .tlbLookup | .tlbCache => [4#32]
  | .getPmcb | .flushTlb | .getFrameCount | .getByteCount => []

/-- A fault a translation for a read or a write can raise, a PageFault in virtual mode only (R331, R332). -/
def PagingFault (vm w : Bool) (f : MmuFault) : Prop := f.code ∈ pagingCodes w ∧ (f.code = 1#32 → vm = true)

theorem pagingFault_bounds (vm w : Bool) (a : Word) : PagingFault vm w (.physicalMemoryBounds a) := by
  cases w <;> simp [PagingFault, pagingCodes, MmuFault.code]

theorem pagingFault_invalidOperation (vm w : Bool) : PagingFault vm w .invalidOperation := by
  cases w <;> simp [PagingFault, pagingCodes, MmuFault.code]

theorem pagingFault_pageFault (w : Bool) (va : Word) : PagingFault true w (.pageFault va) := by
  cases w <;> simp [PagingFault, pagingCodes, MmuFault.code]

theorem pagingFault_writePermissionFault (vm : Bool) (va : Word) : PagingFault vm true (.writePermissionFault va) := by
  simp [PagingFault, pagingCodes, MmuFault.code]

theorem PagingFault.forWrite {vm w : Bool} {f : MmuFault} (h : PagingFault vm w f) : PagingFault vm true f := by
  refine ⟨?_, h.2⟩
  cases f <;> simp [pagingCodes, MmuFault.code]

theorem walkFault_paging {s : State} {va : Word} {w : Bool} {f : MmuFault} (h : walkFault s va w = some f) :
    PagingFault true w f := by
  unfold walkFault at h
  split_ifs at h with ha h1 hp1 h2 hp2 hro <;> cases h
  · exact pagingFault_invalidOperation _ _
  · exact pagingFault_bounds _ _ _
  · exact pagingFault_pageFault _ _
  · exact pagingFault_bounds _ _ _
  · exact pagingFault_pageFault _ _
  · rw [hro.1]
    exact pagingFault_writePermissionFault _ _

theorem cachedFault_paging {va : Word} {w : Bool} {e : TlbEntry} {f : MmuFault} (h : cachedFault va w e = some f) :
    PagingFault true w f := by
  unfold cachedFault at h
  split_ifs at h with hro
  cases h
  rw [hro.1]
  exact pagingFault_writePermissionFault _ _

theorem translationFault_paging {s : State} {va : Word} {w : Bool} {f : MmuFault} (h : translationFault s va w = some f) :
    PagingFault s.pmcb.vmEnable w f := by
  cases hvm : s.pmcb.vmEnable with
  | false => simp [translationFault_physicalMode hvm] at h
  | true =>
    cases hu : usableEntry s va w with
    | some e =>
      rw [translationFault_cached hvm hu] at h
      exact cachedFault_paging h
    | none =>
      rw [translationFault_walked hvm hu] at h
      exact walkFault_paging h

theorem raises_iff {α : Type} {P : MmuFault → Prop} {r : Result α} : r.Raises P ↔ ∀ f s, r = .raised f s → P f := by
  cases r <;> simp [Result.Raises]

theorem Result.Raises.mono {α : Type} {P Q : MmuFault → Prop} {r : Result α} (h : r.Raises P) (hPQ : ∀ f, P f → Q f) :
    r.Raises Q := raises_iff.mpr fun f s hr => hPQ f (raises_iff.mp h f s hr)

theorem toPhysical_raises (va : Word) (w : Bool) (s : State) :
    (toPhysical va w s).Raises (PagingFault s.pmcb.vmEnable w) := by
  have h := toPhysical_reports s va w
  cases hf : translationFault s va w with
  | some f =>
    rw [hf] at h
    obtain ⟨t, ht⟩ := h
    rw [ht]
    exact translationFault_paging hf
  | none =>
    rw [hf] at h
    obtain ⟨pa, t, ht⟩ := h
    rw [ht]
    trivial

theorem moveChunk_raises (isWrite : Bool) (pa buf n : Word) (s : State) :
    (moveChunk isWrite pa buf n s).Raises (· = .physicalMemoryBounds pa) := by
  cases hh : hostInRange s buf n with
  | false => simp [moveChunk_refused hh, Result.Raises]
  | true =>
    cases hv : validRange s.cfg.size pa n with
    | false => simp [moveChunk_outside hh hv]
    | true => simp [moveChunk_inBounds hh hv]

theorem memRead32_raises (a : Word) (s : State) : (memRead32 a s).Raises (· = .physicalMemoryBounds a) := by
  cases hv : validRange s.cfg.size a 4#32 with
  | true => simp [memRead32_valid hv]
  | false => simp [memRead32_invalid hv]

theorem requireTlb_raises (s : State) : (requireTlb s).Raises (· = .invalidOperation) := by
  unfold requireTlb
  split <;> trivial

theorem transferChunk_raises (isWrite : Bool) (s : State) :
    (transferChunk isWrite s).Raises (PagingFault s.pmcb.vmEnable isWrite) := by
  refine raises_iff.mpr fun f u h => ?_
  rcases transferChunk_raised h with ht | ⟨pa, -, rfl, -⟩
  · exact raises_iff.mp (toPhysical_raises _ _ s) f u ht
  · exact pagingFault_bounds _ _ pa

/-- A transfer faults in one of its chunks, which all run in the mode it began in. -/
theorem executeLoop_raises (isWrite : Bool) (s : State) :
    (executeLoop isWrite s.pmcb.remainingCount.toNat s).Raises (PagingFault s.pmcb.vmEnable isWrite) := by
  refine raises_iff.mpr fun f u h => ?_
  obtain ⟨m, t, hafter⟩ := executeLoop_raised h
  obtain ⟨-, -, hpmcb⟩ := hafter.pmcb
  have hfault := raises_iff.mp (transferChunk_raises isWrite _) f u hafter.faults
  rwa [← transferChunk_raised_pmcb hafter.faults, hpmcb] at hfault

theorem execute_raises (s : State) : (execute s).Raises (PagingFault s.pmcb.vmEnable true) := by
  unfold execute
  split
  · split
    · exact pagingFault_invalidOperation _ _
    · trivial
  · exact pagingFault_invalidOperation _ _
  · exact (executeLoop_raises false s).mono fun _ => PagingFault.forWrite
  · exact executeLoop_raises true s

/-- A fault that command `i` can end with in the state `s`; the mode of a SET_PMCB is that of its image (R233). -/
def CommandFault (i : Instr) (s : State) (f : MmuFault) : Prop :=
  f.code ∈ faultCodes i ∧ (f.code = 1#32 → i ≠ .setPmcb → s.pmcb.vmEnable = true)

theorem PagingFault.command {vm w : Bool} {i : Instr} {s : State} {f : MmuFault} (h : PagingFault vm w f)
    (hcodes : faultCodes i = pagingCodes w) (hvm : i ≠ .setPmcb → vm = s.pmcb.vmEnable) : CommandFault i s f :=
  ⟨hcodes ▸ h.1, fun h1 hi => hvm hi ▸ h.2 h1⟩

theorem commandFault_bounds {i : Instr} (hi : faultCodes i = [3#32]) (s : State) (a : Word) :
    CommandFault i s (.physicalMemoryBounds a) := by
  simp [CommandFault, hi, MmuFault.code]

theorem commandFault_invalidOperation {i : Instr} (hi : faultCodes i = [4#32]) (s : State) :
    CommandFault i s .invalidOperation := by
  simp [CommandFault, hi, MmuFault.code]

theorem finish_records {α : Type} {P : MmuFault → Prop} {r : Result α} {g : α → State → State} {t : State}
    (hr : r.Raises P) (h : finish r g = .next t) : ∃ o, Records t o ∧ ∀ f ∈ o, P f := by
  rcases finish_next h with ⟨a, u, -, rfl⟩ | ⟨f, u, rfl, rfl⟩
  · exact ⟨none, rfl, nofun⟩
  · refine ⟨some f, ⟨rfl, rfl⟩, ?_⟩
    rintro _ ⟨⟩
    exact hr

/-- The end of every command: completed, or with one of its own faults. -/
theorem exec_records {i : Instr} {s t : State} (h : exec i s = .next t) :
    ∃ o, Records t o ∧ ∀ f ∈ o, CommandFault i s f := by
  have transfer (hi : isGet i = true ∨ isPut i = true) (hcodes : faultCodes i = pagingCodes (isPut i)) :
      ∃ o, Records t o ∧ ∀ f ∈ o, CommandFault i s f := by
    rw [exec_transfer hi] at h
    exact finish_records ((executeLoop_raises (isPut i) (loadedState i s)).mono
      fun f hf => hf.command hcodes fun _ => rfl) h
  have completed {v : State} (h : Host.Outcome.next (succeed v) = (.next t : Host.Outcome State Fault Refusal)) :
      ∃ o, Records t o ∧ ∀ f ∈ o, CommandFault i s f := by
    cases h
    exact ⟨none, rfl, nofun⟩
  have noTlb {α : Type} {k : Unit → State → Result α} (hi : faultCodes i = [4#32]) (hk : ∀ x u, (k x u).Raises fun _ => False) :
      ((requireTlb s).andThen k).Raises (CommandFault i s) :=
    raises_andThen ((requireTlb_raises s).mono fun f hf => hf ▸ commandFault_invalidOperation hi s)
      fun x u => (hk x u).mono fun _ => False.elim
  cases i with
  | getByte => exact transfer (.inl rfl) rfl
  | getBytes => exact transfer (.inl rfl) rfl
  | putByte => exact transfer (.inr rfl) rfl
  | putBytes => exact transfer (.inr rfl) rfl
  | setPmcb =>
    refine finish_records ?_ h
    unfold resumePending
    split
    · trivial
    · exact (execute_raises _).mono fun f hf => hf.command rfl (absurd rfl)
  | toPhysical w => exact finish_records ((toPhysical_raises _ w s).mono fun f hf => hf.command rfl fun _ => rfl) h
  | pmGetBytes =>
    rw [exec, execPmGetBytes_eq] at h
    exact finish_records ((moveChunk_raises ..).mono fun f hf => hf ▸ commandFault_bounds rfl s _) h
  | pmPutBytes =>
    rw [exec, execPmPutBytes_eq] at h
    exact finish_records ((moveChunk_raises ..).mono fun f hf => hf ▸ commandFault_bounds rfl s _) h
  | pmGet32 => exact finish_records ((memRead32_raises _ s).mono fun f hf => hf ▸ commandFault_bounds rfl s _) h
  | getTlbStats =>
    exact finish_records ((requireTlb_raises s).mono fun f hf => hf ▸ commandFault_invalidOperation rfl s) h
  | tlbLookup => exact finish_records (noTlb rfl fun _ _ => raises_ok _ _ _) h
  | tlbCache => exact finish_records (noTlb rfl fun _ _ => raises_ok _ _ _) h
  | getPmcb | flushTlb | getFrameCount | getByteCount => exact completed h

/-- Settles O57: the commands that have each code in their row. -/
theorem faultCodesPerCommand : Obligations.FaultCodesPerCommand := by
  unfold Obligations.FaultCodesPerCommand
  intro i s t h
  obtain ⟨o, hrec, hf⟩ := exec_records h
  cases o with
  | none =>
    have hst : t.status = 0#32 := hrec
    simp [hst]
  | some f =>
    obtain ⟨hst, haddr⟩ := hrec
    obtain ⟨hmem, hvm⟩ := hf f rfl
    rw [hst, haddr]
    refine ⟨fun h1 => ⟨?_, hvm h1⟩, fun h2 => ?_, fun h3 => ?_, fun h4 => ⟨?_, ?_⟩⟩
    · rw [h1] at hmem
      cases i <;> simp [faultCodes] at hmem ⊢
    · rw [h2] at hmem
      cases i with
      | toPhysical w => simpa using two_mem_pagingCodes.mp hmem
      | _ => simp [faultCodes, pagingCodes] at hmem ⊢
    · rw [h3] at hmem
      cases i <;> simp [faultCodes] at hmem ⊢
    · rw [h4] at hmem
      cases i <;> simp [faultCodes] at hmem ⊢
    · cases f <;> simp [MmuFault.code, MmuFault.info] at h4 ⊢

end Sys2Proof.Machine
end

section
/-! SUPPORT. Construction (70_reset_and_hazards.md R370, R371): which configurations it fails on. -/

namespace Sys2Proof.Machine

theorem capacityLegal_eq_false_iff {c : Config} :
    c.capacityLegal = false ↔ c.tlbPresent = true ∧ c.tlbCapacity = 0 := by
  simp [Config.capacityLegal]

/-- The capacity is judged before FRAME_COUNT, so no hypothesis about the latter is needed. -/
theorem construct_capacity_illegal {c : Config} (h : c.capacityLegal = false) (d : ResetDraw) :
    State.construct c d = .fault .constructionInvalidOperation := by
  simp [State.construct, h]

/-- Settles O8. -/
theorem constructionNeedsTlbCapacity : Obligations.ConstructionNeedsTlbCapacity := by
  unfold Obligations.ConstructionNeedsTlbCapacity
  intro c d hpresent hzero
  have hillegal : c.capacityLegal = false := capacityLegal_eq_false_iff.mpr ⟨hpresent, hzero⟩
  exact construct_capacity_illegal hillegal d

end Sys2Proof.Machine
end
